-- ==== Sys2Proof/Word.lean ====
section
/-! DEFINITION. The word types of the WYW-PQC CORE and their plainest arithmetic. -/

namespace Sys2Proof

/-- A byte of `SEED` or `BBUF` (rule R33, R34). -/
abbrev Byte := BitVec 8

/-- A 16-bit value: a slot coefficient (rule R21), `FA_A`, `FA_B`, `ARG`, `BLEN`. -/
abbrev Half := BitVec 16

/-- A 32-bit bus word (rule R62), a command word (rule R80), `FA_W`, `RESULT`. -/
abbrev Word := BitVec 32

/-- `zext_32` of a 16-bit value (rule R13). -/
def Half.zext (v : Half) : Word := v.setWidth 32

/-- `v[15:0]` of a word (rule R13). -/
def Word.low (v : Word) : Half := v.setWidth 16

/-- Byte `k` of a word, little-endian: `v[8k+7 : 8k]` (rule R60). -/
def Word.byte (v : Word) (k : Nat) : Byte := v.extractLsb' (8 * k) 8

end Sys2Proof
end

