-- ==== Sys2Proof/Syntax.lean ====
section
/-! DEFINITION. The commands of the block: one constructor per row of the opcode map (rule R85). -/

namespace Sys2Proof

/-- A slot number `p0`–`p15` (rules R21, R81). -/
abbrev SlotNo := Fin 16

/-- A command (rule R85). `d` is the destination slot, `a` and `b` are source slots; `eta` and `w` are
the parameter field `P`, a bound or a bit width, as the plain number the field holds (rule R82). -/
inductive Instr
  | nop
  | fadd
  | fsub
  | fmul
  | fred
  | fbred
  | fmred
  | padd (d a b : SlotNo)
  | psub (d a b : SlotNo)
  | pred (d a : SlotNo)
  | ntt (d : SlotNo)
  | intt (d : SlotNo)
  | bmul (d a b : SlotNo)
  | bmac (d a b : SlotNo)
  | suni (d : SlotNo)
  | scbd (d : SlotNo) (eta : Nat)
  | cmpr (d a : SlotNo) (w : Nat)
  | dcmp (d a : SlotNo) (w : Nat)
  | enc (a : SlotNo) (w : Nat)
  | dec (d : SlotNo) (w : Nat)
  | pzero (d : SlotNo)
  | pcopy (d a : SlotNo)
  | wipe
deriving DecidableEq, Repr

end Sys2Proof
end

