-- ==== Sys2Proof/WellFormed.lean ====
section
/-! DEFINITION. Which commands the encoding admits: the legal values of the parameter field (rule R82).
Slot numbers need no check, every 4-bit number being a slot (rule R81). -/

namespace Sys2Proof

/-- The legal noise bounds of `SCBD` (rule R82). -/
def legalEta (eta : Nat) : Bool := eta == 2 || eta == 3

/-- The legal widths of `CMPR` and `DCMP` (rule R82; conflict C8). -/
def legalCompressWidth (w : Nat) : Bool := 1 ≤ w && w ≤ 11

/-- The legal widths of `ENC` and `DEC` (rule R82). -/
def legalPackWidth (w : Nat) : Bool := 1 ≤ w && w ≤ 12

/-- A command whose parameter is legal (rule R82). -/
def Instr.wellFormed : Instr → Bool
  | .nop | .fadd | .fsub | .fmul | .fred | .fbred | .fmred => true
  | .padd _ _ _ | .psub _ _ _ | .pred _ _ => true
  | .ntt _ | .intt _ | .bmul _ _ _ | .bmac _ _ _ => true
  | .suni _ => true
  | .scbd _ eta => legalEta eta
  | .cmpr _ _ w | .dcmp _ _ w => legalCompressWidth w
  | .enc _ w | .dec _ w => legalPackWidth w
  | .pzero _ | .pcopy _ _ | .wipe => true

end Sys2Proof
end

