-- ==== Sys2Proof/Decode.lean ====
section
/-! DEFINITION. The command decoder, total on every 32-bit word and rejecting by name, and the encoder
(rules R80–R88). -/

namespace Sys2Proof

/-- Why a word is no command: its opcode is reserved (rule R87), or its opcode is legal and a field is
not (rules R82, R83, R84). -/
inductive Reject
  | reservedOpcode
  | illegalField
deriving DecidableEq, Repr

/-- Bits `[lo+n-1 : lo]` of a word as a number (rule R13). -/
def field (v : Word) (lo n : Nat) : Nat := (v.toNat >>> lo) % 2 ^ n

/-- `OPC` (rule R80). -/
def opcOf (v : Word) : Nat := field v 0 8

/-- `D` (rules R80, R81). -/
def dOf (v : Word) : Nat := field v 8 4

/-- `A` (rules R80, R81). -/
def aOf (v : Word) : Nat := field v 12 4

/-- `B` (rules R80, R81). -/
def bOf (v : Word) : Nat := field v 16 4

/-- `P` (rules R80, R82). -/
def pOf (v : Word) : Nat := field v 20 4

/-- `RSV` (rules R80, R83). -/
def rsvOf (v : Word) : Nat := field v 24 8

/-- A row of the opcode map (rule R85): which slot fields the command uses (an unused one must be 0,
rule R84), the legal values of `P` (only 0 where the command does not use it), and the command. -/
structure Row where
  opc : Nat
  usesD : Bool
  usesA : Bool
  usesB : Bool
  legalP : List Nat
  build : SlotNo → SlotNo → SlotNo → Nat → Instr

/-- The widths of `CMPR` and `DCMP` (rule R82). -/
def compressWidths : List Nat := [1, 2, 3, 4, 5, 6, 7, 8, 9, 10, 11]

/-- The widths of `ENC` and `DEC` (rule R82). -/
def packWidths : List Nat := [1, 2, 3, 4, 5, 6, 7, 8, 9, 10, 11, 12]

/-- The opcode map, row by row (rule R85). -/
def opcodeMap : List Row :=
  [ ⟨0x00, false, false, false, [0], fun _ _ _ _ => .nop⟩,
    ⟨0x01, false, false, false, [0], fun _ _ _ _ => .fadd⟩,
    ⟨0x02, false, false, false, [0], fun _ _ _ _ => .fsub⟩,
    ⟨0x03, false, false, false, [0], fun _ _ _ _ => .fmul⟩,
    ⟨0x04, false, false, false, [0], fun _ _ _ _ => .fred⟩,
    ⟨0x05, false, false, false, [0], fun _ _ _ _ => .fbred⟩,
    ⟨0x06, false, false, false, [0], fun _ _ _ _ => .fmred⟩,
    ⟨0x10, true, true, true, [0], fun d a b _ => .padd d a b⟩,
    ⟨0x11, true, true, true, [0], fun d a b _ => .psub d a b⟩,
    ⟨0x12, true, true, false, [0], fun d a _ _ => .pred d a⟩,
    ⟨0x20, true, false, false, [0], fun d _ _ _ => .ntt d⟩,
    ⟨0x21, true, false, false, [0], fun d _ _ _ => .intt d⟩,
    ⟨0x22, true, true, true, [0], fun d a b _ => .bmul d a b⟩,
    ⟨0x23, true, true, true, [0], fun d a b _ => .bmac d a b⟩,
    ⟨0x30, true, false, false, [0], fun d _ _ _ => .suni d⟩,
    ⟨0x31, true, false, false, [2, 3], fun d _ _ p => .scbd d p⟩,
    ⟨0x40, true, true, false, compressWidths, fun d a _ p => .cmpr d a p⟩,
    ⟨0x41, true, true, false, compressWidths, fun d a _ p => .dcmp d a p⟩,
    ⟨0x42, false, true, false, packWidths, fun _ a _ p => .enc a p⟩,
    ⟨0x43, true, false, false, packWidths, fun d _ _ p => .dec d p⟩,
    ⟨0x50, true, false, false, [0], fun d _ _ _ => .pzero d⟩,
    ⟨0x51, true, true, false, [0], fun d a _ _ => .pcopy d a⟩,
    ⟨0x5F, false, false, false, [0], fun _ _ _ _ => .wipe⟩ ]

/-- A slot field names the slot of its number (rule R81). -/
def slotOf (n : Nat) : SlotNo := Fin.ofNat 16 n

/-- The field checks of a row whose opcode matches: `RSV` is 0 (rule R83), every unused field is 0
(rule R84), `P` is legal (rule R82). -/
def Row.fieldsLegal (r : Row) (v : Word) : Bool :=
  rsvOf v == 0 && (r.usesD || dOf v == 0) && (r.usesA || aOf v == 0) && (r.usesB || bOf v == 0)
    && r.legalP.contains (pOf v)

/-- The command of a word (rule R86), or the reason it is none, the opcode checked first (rule R204). -/
def decode (v : Word) : Except Reject Instr :=
  match opcodeMap.find? (fun r => r.opc == opcOf v) with
  | none => .error .reservedOpcode
  | some r =>
    if r.fieldsLegal v then .ok (r.build (slotOf (dOf v)) (slotOf (aOf v)) (slotOf (bOf v)) (pOf v))
    else .error .illegalField

/-- The word of a command: `OPC | D << 8 | A << 12 | B << 16 | P << 20` (rule R80). The fields do not
overlap, so their sum is their `|`. -/
def pack (opc d a b p : Nat) : Word :=
  BitVec.ofNat 32 (opc + d * 2 ^ 8 + a * 2 ^ 12 + b * 2 ^ 16 + p * 2 ^ 20)

/-- The encoder (rules R80, R85). -/
def encode : Instr → Word
  | .nop => pack 0x00 0 0 0 0
  | .fadd => pack 0x01 0 0 0 0
  | .fsub => pack 0x02 0 0 0 0
  | .fmul => pack 0x03 0 0 0 0
  | .fred => pack 0x04 0 0 0 0
  | .fbred => pack 0x05 0 0 0 0
  | .fmred => pack 0x06 0 0 0 0
  | .padd d a b => pack 0x10 d.val a.val b.val 0
  | .psub d a b => pack 0x11 d.val a.val b.val 0
  | .pred d a => pack 0x12 d.val a.val 0 0
  | .ntt d => pack 0x20 d.val 0 0 0
  | .intt d => pack 0x21 d.val 0 0 0
  | .bmul d a b => pack 0x22 d.val a.val b.val 0
  | .bmac d a b => pack 0x23 d.val a.val b.val 0
  | .suni d => pack 0x30 d.val 0 0 0
  | .scbd d eta => pack 0x31 d.val 0 0 eta
  | .cmpr d a w => pack 0x40 d.val a.val 0 w
  | .dcmp d a w => pack 0x41 d.val a.val 0 w
  | .enc a w => pack 0x42 0 a.val 0 w
  | .dec d w => pack 0x43 d.val 0 0 w
  | .pzero d => pack 0x50 d.val 0 0 0
  | .pcopy d a => pack 0x51 d.val a.val 0 0
  | .wipe => pack 0x5F 0 0 0 0

/-- The command word made of the low `nbits` bits of `w` (rule R88: a command is one 32-bit word). -/
def tableWord (nbits w : Nat) : Word := BitVec.ofNat 32 (w % 2 ^ nbits)

/-- The command this decoder reads from a word of `nbits` bits numbered as the opcode table numbers
them; `none` where the decoder rejects it. -/
def decodeTableWord (nbits w : Nat) : Option Instr :=
  match decode (tableWord nbits w) with
  | .ok i => some i
  | .error _ => none

end Sys2Proof
end

