-- ==== Sys2Proof/Config.lean ====
section
/-! DEFINITION. What is fixed for the block (rules R9, R11) and what the spec leaves open: the open
parameters and the free values, as constants without a body. -/

namespace Sys2Proof.Config

/-- The modulus (rule R9). -/
def Q : Nat := 3329

/-- Coefficients of a polynomial (rule R9). -/
def N : Nat := 256

/-- The value of `ID` (rules R3, R25). -/
def id : Word := 0x4D4C0701#32

/-- The size of the register window in bytes (rule R11, `WINDOW`). -/
def window : Nat := 0x4000

/-- `XOF(m)[k]`: the extendable-output function, an OPEN parameter (rules R11, R150; log entry 3). -/
opaque xof : List Byte → Nat → Byte

/-- `PRF(m, L)[k]` for `k < L`: the pseudorandom function, an OPEN parameter (rules R11, R150; log entry 3). -/
opaque prf : List Byte → Nat → Nat → Byte

/-- `XOF_LIMIT_BYTES`: the byte budget of one `SUNI`, 0 meaning none; an OPEN parameter (rules R11, R154; log entry 4). -/
opaque xofLimitBytes : Nat

/-- How many 3-byte groups one step of the block may consume for `SUNI` before another step is
needed. Not a quantity of the hardware: no claim of time rests on it (log entry 5, DESIGN CHOICE). -/
def suniGroupsPerStep : Nat := 65536

/-- The free coefficient `i` of draw `n`: an `UNSPEC` coefficient (rule R15; log entry 2). -/
opaque freeCoeff : Nat → Nat → Half

/-- The free byte `k` of draw `n`: an `UNSPEC` byte (rule R15; log entry 2). -/
opaque freeByte : Nat → Nat → Byte

/-- The free word of draw `n`: an `UNSPEC` register or an `UNSPEC` read (rule R15; log entry 2). -/
opaque freeWord : Nat → Word

/-- `RESULT` after a `SUNI` that read `pos` bytes, for a count that 32 bits do not hold: a free function of the
count (rules R154, R159, R205; log entry 8). -/
opaque freeByteCount (pos : Nat) : Word

end Sys2Proof.Config
end

