-- ==== Sys2Proof/Machine/State.lean ====
section
/-! DEFINITION. The state of the block as plain data, everything the spec gives it, and the state after
reset (rules R20–R45, R230). -/

namespace Sys2Proof.Machine

/-- The contents of the block's memories `SEED`, `BBUF` and the slots, keyed by byte offset in the
window (rule R20): addresses strictly rising and no entry equal to what an unlisted address reads as
(`Memory.wf`). -/
abbrev Memory := List Host.Cell

/-- The error codes a command or an access can record (rule R200). Code 0, `E_NONE`, is the absence of
one. -/
inductive ErrCode
  | busy
  | opcode
  | param
  | range
  | length
  | xofLimit
  | access
deriving DecidableEq, Repr

/-- The operands a command captured at its acceptance (rule R39): the memories and the operand
registers, as they stood then. -/
structure Operands where
  mem : Memory
  arg : Half
  blen : Half
  faA : Half
  faB : Half
  faW : Word
deriving DecidableEq, Repr

/-- How far a `SUNI` in flight has come (rules R40, R42): the position in the XOF stream and the values
accepted so far, oldest first. -/
structure Sampling where
  pos : Nat
  accepted : List Nat
deriving DecidableEq, Repr

/-- A `SUNI` that has read nothing (rule R152). -/
def Sampling.start : Sampling := ⟨0, []⟩

/-- What the block's engine is doing (rules R24, R39, R41): nothing; the command whose word it
captured, on the operands it captured; the reset wipe. `STATUS.BUSY` is 0 exactly when it is idle. -/
inductive Engine
  | idle
  | running (cmd : Word) (ops : Operands) (sampling : Sampling)
  | wiping
deriving DecidableEq, Repr

/-- One host access: byte offset in the window, number of bytes, and for a write the value
(rules R15, R62). -/
inductive BusAccess
  | read (offset size : Nat)
  | write (offset size : Nat) (value : Word)
deriving DecidableEq, Repr

/-- What the world does next: a host access, a pulse on the reset input (rule R230), or nothing until
the block itself has taken a step (rules R207, R247). -/
inductive Arrival
  | access (a : BusAccess)
  | resetPulse
  | blockStep
deriving DecidableEq, Repr

/-- What the last host access was answered (rule R69). -/
inductive Response
  | none
  | data (v : Word)
  | written
deriving DecidableEq, Repr

/-- The machine's state. Every register of rule R20 has one home: `ID` and the two ROMs are constants
(`Config.id`, `zetaRom`, `gammaRom`); `STATUS` is composed of `engine`, `done` and `error`. -/
structure State where
  /-- `SEED`, `BBUF`, `p0`–`p15` (rules R21, R33, R34). -/
  mem : Memory
  /-- `CTRL.IE_DONE` (rule R26). -/
  ieDone : Bool
  /-- `CTRL.IE_ERR` (rule R26). -/
  ieErr : Bool
  /-- `STATUS.DONE` (rule R27). -/
  done : Bool
  /-- `STATUS.ERR` and `STATUS.ERRCODE` (rule R27): no code is `ERR` = 0. -/
  error : Option ErrCode
  /-- `CMD` (rule R28). -/
  cmd : Word
  /-- `ARG`, `X` in the low byte and `Y` in the high byte (rule R29). -/
  arg : Half
  /-- `BLEN` (rule R30). -/
  blen : Half
  /-- `RESULT` (rule R31). -/
  result : Word
  /-- `FA_A` (rule R32). -/
  faA : Half
  /-- `FA_B` (rule R32). -/
  faB : Half
  /-- `FA_W` (rule R32). -/
  faW : Word
  /-- The command in flight or the reset wipe (rules R39–R41); `STATUS.BUSY`. -/
  engine : Engine
  /-- What arrives from outside, in the order of service (rules R69, R207); the model's own field. -/
  arrivals : List Arrival
  /-- The answer to the last host access; the model's own field. -/
  response : Response
  /-- How many free values have been drawn (rule R15); the model's own field. -/
  draws : Nat
deriving DecidableEq, Repr

/-- Why the machine stops. All four are the bus error of rule R63, told apart by their cause; the host's
access raises them, the block's own steps never. Each is safe: the block answers the access with an
error, changes no state and would go on (log entry 6). -/
inductive Fault
  /-- An access that is not 32 bits wide; raised by `busAccess`. Safe. -/
  | busErrorSize
  /-- An access at an offset not divisible by 4; raised by `busAccess`. Safe. -/
  | busErrorAlignment
  /-- An access to an offset the map does not list; raised by `busAccess`. Safe. -/
  | busErrorUnmapped
  /-- A write to `ID`, `RESULT` or a ROM; raised by `busAccess`. Safe. -/
  | busErrorReadOnly
deriving DecidableEq, Repr

/-- Why the model refuses a step. -/
inductive Refusal
  /-- An instruction without a meaning, by its mnemonic; raised by no arm of `exec`. Safe. -/
  | notModelled (mnemonic : String)
  /-- The engine holds a word that is no command; raised by `step`. No run reaches it: only an accepted
  word is captured (rule R204). Safe. -/
  | noSuchCommandInFlight
deriving DecidableEq, Repr

/-- The state right after power-up: every register at its reset value, the reset wipe running (rules R45,
R217, R230, R232). DESIGN CHOICE (log entry 20): every memory byte is already 0 while this wipe runs, so a
`SEED` read then gives 0, as after any reset (log entry 11); rule R45 gives 0 only once the wipe ends, and no
earlier value exists. Unsafe. -/
def State.reset : State where
  mem := []
  ieDone := false
  ieErr := false
  done := false
  error := none
  cmd := 0#32
  arg := 0#16
  blen := 0#16
  result := 0#32
  faA := 0#16
  faB := 0#16
  faW := 0#32
  engine := .wiping
  arrivals := []
  response := .none
  draws := 0

end Sys2Proof.Machine
end

