-- ==== Sys2Proof/Machine/Ops.lean ====
section
/-! DEFINITION. The named operations every meaning is built from: the memories, byte by byte and slot by
slot; the registers; free values; and recording an error and acknowledging it, which is all this
hardware has of taking an exception and returning from one (rules R202, R209, R210). -/

namespace Sys2Proof.Machine

/-! ## The memories -/

/-- What an unlisted address reads as: every byte is 0 after the reset wipe (rule R45); before the power-up
wipe ends that is the model's choice (log entry 20). -/
def Memory.unlisted : Byte := 0#8

/-- One byte. -/
def Memory.read : Memory → Nat → Byte
  | [], _ => Memory.unlisted
  | c :: m, x => if c.1 = x then c.2 else Memory.read m x

/-- The cells of a byte string laid from address `x` up, bytes equal to the unlisted one left out. -/
def Memory.cellsFrom : Nat → List Byte → Memory
  | _, [] => []
  | x, v :: vs =>
    if v = Memory.unlisted then Memory.cellsFrom (x + 1) vs
    else (x, v) :: Memory.cellsFrom (x + 1) vs

/-- Store a byte string from address `x` up. -/
def Memory.write (m : Memory) (x : Nat) (vs : List Byte) : Memory :=
  m.filter (fun c => decide (c.1 < x)) ++ Memory.cellsFrom x vs
    ++ m.filter (fun c => decide (x + vs.length ≤ c.1))

/-- The canonical form: addresses strictly rising, nothing listed that an unlisted address would read as. -/
def Memory.wf : Memory → Bool
  | [] => true
  | [c] => c.2 != Memory.unlisted
  | c :: c' :: m => c.2 != Memory.unlisted && decide (c.1 < c'.1) && Memory.wf (c' :: m)

/-- The two bytes of a 16-bit value, low byte first (rule R60). -/
def halfBytes (v : Half) : List Byte := [v.extractLsb' 0 8, v.extractLsb' 8 8]

/-- The four bytes of a word, low byte first (rule R60). -/
def wordBytes (v : Word) : List Byte := [v.byte 0, v.byte 1, v.byte 2, v.byte 3]

/-- The 16-bit value at address `x`, little-endian (rule R60). -/
def Memory.half (m : Memory) (x : Nat) : Half := m.read (x + 1) ++ m.read x

/-- The word at address `x`, little-endian (rule R60). -/
def Memory.word (m : Memory) (x : Nat) : Word :=
  m.read (x + 3) ++ m.read (x + 2) ++ m.read (x + 1) ++ m.read x

/-- Store a word at address `x`, little-endian (rule R60). -/
def Memory.setWord (m : Memory) (x : Nat) (v : Word) : Memory := m.write x (wordBytes v)

/-- The offset of `SEED[0]` (rule R20). -/
def seedBase : Nat := 0x40

/-- The offset of `BBUF[0]` (rule R20). -/
def bbufBase : Nat := 0x400

/-- The offset of slot `p`'s first coefficient (rule R23). -/
def slotBase (p : SlotNo) : Nat := 0x2000 + 0x200 * p.val

/-- An address that belongs to `SEED`, `BBUF` or a slot (rule R20). -/
def inMemoryMap (x : Nat) : Bool :=
  (0x40 ≤ x && x < 0x60) || (0x400 ≤ x && x < 0x580) || (0x2000 ≤ x && x < 0x4000)

/-- Coefficient `i` of slot `p`, `P[p][i]` (rules R14, R21, R23). -/
def Memory.coeff (m : Memory) (p : SlotNo) (i : Nat) : Half := m.half (slotBase p + 2 * i)

/-! ## Polynomials -/

/-- A polynomial in the middle of a computation: its 256 values, coefficient 0 first (rule R17). -/
abbrev Poly := List Nat

/-- Coefficient `i`. -/
def Poly.at (f : Poly) (i : Nat) : Nat := f.getD i 0

/-- The polynomial with coefficients `g 0 … g 255`. -/
def lanes (g : Nat → Nat) : Poly := (List.range Config.N).map g

/-- The content of slot `p`. -/
def Memory.poly (m : Memory) (p : SlotNo) : Poly := lanes fun i => (m.coeff p i).toNat

/-- `P[p] <- f`: all 256 coefficients at once, each narrowed to 16 bits (rules R14, R21). -/
def Memory.setPoly (m : Memory) (p : SlotNo) (f : Poly) : Memory :=
  m.write (slotBase p) ((List.range Config.N).flatMap fun i => halfBytes (BitVec.ofNat 16 (f.at i)))

/-! ## State updates -/

/-- `P[p] <- f` (rule R14). -/
def State.setSlot (p : SlotNo) (f : Poly) (s : State) : State := { s with mem := s.mem.setPoly p f }

/-- `P[p] <- UNSPEC`, one free value per coefficient (rules R15, R201). -/
def State.freeSlot (p : SlotNo) (s : State) : State :=
  { s with
    mem := s.mem.setPoly p (lanes fun i => (Config.freeCoeff s.draws i).toNat)
    draws := s.draws + 1 }

/-- `BBUF[0 ..] <- vs` (rule R34). -/
def State.setBuffer (vs : List Byte) (s : State) : State := { s with mem := s.mem.write bbufBase vs }

/-- `BBUF[0 .. n - 1] <- UNSPEC`, one free value per byte (rules R15, R201). -/
def State.freeBuffer (n : Nat) (s : State) : State :=
  { s with
    mem := s.mem.write bbufBase ((List.range n).map (Config.freeByte s.draws))
    draws := s.draws + 1 }

/-- `R(RESULT) <- v` (rule R31). -/
def State.setResult (v : Word) (s : State) : State := { s with result := v }

/-- `R(RESULT) <- UNSPEC` (rules R15, R201). -/
def State.freeResult (s : State) : State :=
  { s with result := Config.freeWord s.draws, draws := s.draws + 1 }

/-- `R(BLEN) <- v` (rule R30). -/
def State.setBlen (v : Half) (s : State) : State := { s with blen := v }

/-! ## Errors: recording one and acknowledging it -/

/-- The error held after `code` is raised: the first since the last clear is kept (rule R202). -/
def firstError (held : Option ErrCode) (code : ErrCode) : Option ErrCode := some (held.getD code)

/-- `raise Error(code)` (rule R202): nothing but the code is recorded (rules R200, R209). -/
def raiseError (code : ErrCode) (s : State) : State := { s with error := firstError s.error code }

/-- The host's acknowledgement, a write of `v` to `STATUS` (rules R27, R210): a 1 in bit 1 clears
`DONE`, a 1 in bit 2 clears `ERR` and `ERRCODE` together. -/
def acknowledge (v : Word) (s : State) : State :=
  { s with
    done := s.done && !v.getLsbD 1
    error := if v.getLsbD 2 then none else s.error }

/-! ## Reset -/

/-- Every byte of `SEED` becomes 0, its reset value (rule R20). -/
def Memory.clearSeed (m : Memory) : Memory := m.write seedBase (List.replicate 32 0#8)

/-- The start of a reset (rules R230, R231): every register at its reset value, a command in flight
abandoned with its operand copy, the wipe running. DEDUCED (log entry 11): `SEED` is 0 from here on, since
it can be read during the wipe (rule R66) and a reset leaves no secret readable (rule R194). DESIGN CHOICE
(log entry 11): `BBUF` and the slots, which cannot be read then, keep their contents until the wipe ends,
which is one step (rules R232, R247). -/
def enterReset (s : State) : State :=
  { s with
    mem := s.mem.clearSeed
    ieDone := false, ieErr := false, done := false, error := none
    cmd := 0#32, arg := 0#16, blen := 0#16, result := 0#32
    faA := 0#16, faB := 0#16, faW := 0#32
    engine := .wiping }

/-- The end of the reset wipe (rule R232): every slot, `SEED` and `BBUF` byte is 0 and `BUSY` falls;
`DONE` is not set. -/
def endWipe (s : State) : State := { s with mem := [], engine := .idle }

end Sys2Proof.Machine
end

