-- ==== Sys2Proof/Machine/Operands.lean ====
section
/-! DEFINITION. Where a command finds its operands, and the range checks on them (rules R16, R39, R201).
A command names slots by number (rule R81) and everything else by fixed role (rule R38); there is no
other operand form. -/

namespace Sys2Proof.Machine

/-- The operands as they stand, captured at a command's acceptance (rule R39). -/
def capture (s : State) : Operands := ⟨s.mem, s.arg, s.blen, s.faA, s.faB, s.faW⟩

/-- What a command computes from: the operands captured at its acceptance (rules R16, R39); the live
ones where no command is in flight, which no step of the machine comes to (log entry 7). -/
def operands (s : State) : Operands :=
  match s.engine with
  | .running _ ops _ => ops
  | .idle | .wiping => capture s

/-- How far the command in flight has sampled (rule R40). -/
def samplingOf (s : State) : Sampling :=
  match s.engine with
  | .running _ _ smp => smp
  | .idle | .wiping => .start

/-- Source slot `p` (rule R81). -/
def Operands.poly (o : Operands) (p : SlotNo) : Poly := o.mem.poly p

/-- `SEED[0..31]` (rule R151). -/
def Operands.seed (o : Operands) : List Byte := (List.range 32).map fun b => o.mem.read (seedBase + b)

/-- `BBUF[k]` (rule R34). -/
def Operands.bbuf (o : Operands) (k : Nat) : Byte := o.mem.read (bbufBase + k)

/-- `ARG.X` (rule R29). -/
def Operands.argX (o : Operands) : Byte := o.arg.extractLsb' 0 8

/-- `ARG.Y` (rule R29). -/
def Operands.argY (o : Operands) : Byte := o.arg.extractLsb' 8 8

/-- Every coefficient is below `lim` (rules R109, R201). -/
def below (lim : Nat) (f : Poly) : Bool := f.all fun v => decide (v < lim)

/-- Every coefficient is canonical (rule R17). -/
def canonical (f : Poly) : Bool := below Config.Q f

end Sys2Proof.Machine
end

