-- ==== Sys2Proof/Machine/Flags.lean ====
section
/-! DEFINITION. `STATUS` and the interrupt line, and what issue and completion do to them (rules R27,
R36, R200, R204, R205, R208). No command sets an arithmetic flag (rule R36). -/

namespace Sys2Proof.Machine

/-- `STATUS.BUSY` (rule R27): a command is in flight or the reset wipe is running. -/
def State.busy (s : State) : Bool :=
  match s.engine with
  | .idle => false
  | .running _ _ _ => true
  | .wiping => true

/-- The number of an error code (rule R200). -/
def ErrCode.number : ErrCode → Nat
  | .busy => 1
  | .opcode => 2
  | .param => 3
  | .range => 4
  | .length => 5
  | .xofLimit => 6
  | .access => 7

/-- `STATUS.ERR` (rule R27). -/
def State.err (s : State) : Bool := s.error.isSome

/-- `STATUS.ERRCODE` (rules R27, R200): 0 when no error is held. -/
def State.errCode (s : State) : Nat :=
  match s.error with
  | none => 0
  | some c => c.number

/-- `STATUS` as the host reads it (rule R27): `BUSY` in bit 0, `DONE` in bit 1, `ERR` in bit 2,
`ERRCODE` in bits 11:8, the rest 0. -/
def State.status (s : State) : Word :=
  BitVec.ofNat 32 (s.busy.toNat + 2 * s.done.toNat + 4 * s.err.toNat + 256 * s.errCode)

/-- `CTRL` as the host reads it (rule R26): `IE_DONE` in bit 0, `IE_ERR` in bit 1, the rest 0. -/
def State.ctrl (s : State) : Word := BitVec.ofNat 32 (s.ieDone.toNat + 2 * s.ieErr.toNat)

/-- The interrupt line (rule R208). -/
def State.irq (s : State) : Bool := (s.ieDone && s.done) || (s.ieErr && s.err)

/-- Acceptance of the command word `v` (rule R204): `DONE <- 0`, `BUSY <- 1`, the word and its operands
captured (rule R39). -/
def accept (v : Word) (s : State) : State :=
  { s with done := false, engine := .running v (capture s) .start }

/-- Rejection of a command word (rule R204): the error is recorded, `DONE <- 1`, nothing else changes. -/
def reject (code : ErrCode) (s : State) : State := { raiseError code s with done := true }

/-- Completion of a command (rules R44, R205): `BUSY <- 0`, `DONE <- 1`; the captured operands are gone. -/
def complete (s : State) : State := { s with done := true, engine := .idle }

/-- Completion of a command that leaves `v` in `RESULT` (rule R205). -/
def finish (v : Word) (s : State) : State := complete (s.setResult v)

/-- Completion of a scalar command (rules R103–R108): `v` in `RESULT` if the operands were in range, else
`RESULT` is free and `E_RANGE` is recorded. -/
def finishScalar (inRange : Bool) (v : Nat) (s : State) : State :=
  if inRange then finish (BitVec.ofNat 32 v) s else complete (raiseError .range s.freeResult)

/-- Completion of a polynomial command (rules R109, R201): `f` in slot `d` if the sources were in range,
else slot `d` is free and `E_RANGE` is recorded; `RESULT` is 0 either way. -/
def finishPoly (inRange : Bool) (d : SlotNo) (f : Poly) (s : State) : State :=
  finish 0#32 (if inRange then s.setSlot d f else raiseError .range (s.freeSlot d))

end Sys2Proof.Machine
end

