-- ==== Sys2Proof/Machine/Field.lean ====
section
/-! DEFINITION. Field arithmetic (40_field.md): the scalar commands and the lane-by-lane ones. Every result
is the exact one reduced to `[0, Q)` (rule R100); which reduction the datapath uses is not observable
(rule R102). -/

namespace Sys2Proof.Machine

/-- `(x + y) mod Q`. -/
def addMod (x y : Nat) : Nat := (x + y) % Config.Q

/-- `(x - y) mod Q`, in `[0, Q)` also where `x < y` (rules R13, R100). -/
def subMod (x y : Nat) : Nat := (x + (Config.Q - y % Config.Q)) % Config.Q

/-- `(x * y) mod Q`. -/
def mulMod (x y : Nat) : Nat := (x * y) % Config.Q

/-- `2^-16 mod Q` (rules R10, R108). -/
def montgomeryFactor : Nat := 169

/-- `FMRED`'s bound `Q * 2^16` (rule R108). -/
def montgomeryBound : Nat := Config.Q * 2 ^ 16

/-- A lane-by-lane command on two slots (rule R109). -/
def zipLanes (g : Nat → Nat → Nat) (x y : Poly) : Poly := lanes fun i => g (x.at i) (y.at i)

/-- A lane-by-lane command on one slot (rule R109). -/
def mapLanes (g : Nat → Nat) (x : Poly) : Poly := lanes fun i => g (x.at i)

/-- A scalar command on `FA_A` and `FA_B`, both to be canonical (rules R103–R105). -/
def scalarCommand (g : Nat → Nat → Nat) (s : State) : State :=
  let x := (operands s).faA.toNat
  let y := (operands s).faB.toNat
  finishScalar (decide (x < Config.Q) && decide (y < Config.Q)) (g x y) s

/-- A lane-by-lane command on slots `a` and `b`, both to be canonical (rules R109–R111). -/
def laneCommand (g : Nat → Nat → Nat) (d a b : SlotNo) (s : State) : State :=
  let x := (operands s).poly a
  let y := (operands s).poly b
  finishPoly (canonical x && canonical y) d (zipLanes g x y) s

/-- `FADD` (rule R103). -/
def execFadd (s : State) : Host.Outcome State Fault Refusal := .next (scalarCommand addMod s)

/-- `FSUB` (rule R104). -/
def execFsub (s : State) : Host.Outcome State Fault Refusal := .next (scalarCommand subMod s)

/-- `FMUL` (rule R105). -/
def execFmul (s : State) : Host.Outcome State Fault Refusal := .next (scalarCommand mulMod s)

/-- `FRED` (rule R106): any 16-bit value. -/
def execFred (s : State) : Host.Outcome State Fault Refusal :=
  .next (finishScalar true ((operands s).faA.toNat % Config.Q) s)

/-- `FBRED` (rule R107): any 32-bit value. -/
def execFbred (s : State) : Host.Outcome State Fault Refusal :=
  .next (finishScalar true ((operands s).faW.toNat % Config.Q) s)

/-- `FMRED` (rule R108): `w * 2^-16 mod Q` for `w < Q * 2^16`. -/
def execFmred (s : State) : Host.Outcome State Fault Refusal :=
  let v := (operands s).faW.toNat
  .next (finishScalar (decide (v < montgomeryBound)) (mulMod v montgomeryFactor) s)

/-- `PADD` (rule R110). -/
def execPadd (d a b : SlotNo) (s : State) : Host.Outcome State Fault Refusal :=
  .next (laneCommand addMod d a b s)

/-- `PSUB` (rule R111). -/
def execPsub (d a b : SlotNo) (s : State) : Host.Outcome State Fault Refusal :=
  .next (laneCommand subMod d a b s)

/-- `PRED` (rule R112): any 16-bit values. -/
def execPred (d a : SlotNo) (s : State) : Host.Outcome State Fault Refusal :=
  .next (finishPoly true d (mapLanes (fun x => x % Config.Q) ((operands s).poly a)) s)

end Sys2Proof.Machine
end

