-- ==== Sys2Proof/Machine/Sampler.lean ====
section
/-! DEFINITION. The sampler (42_sampler.md): uniform rejection sampling from the XOF and centered binomial
sampling from the PRF. -/

namespace Sys2Proof.Machine

/-! ## Uniform rejection sampling -/

/-- The low 12 bits of a 3-byte group (rule R153). -/
def candidate1 (b0 b1 : Nat) : Nat := b0 + 256 * (b1 % 16)

/-- The high 12 bits of a 3-byte group (rule R153). -/
def candidate2 (b1 b2 : Nat) : Nat := b1 / 16 + 16 * b2

/-- One candidate: accepted if it is below `Q` and fewer than 256 are accepted so far (rule R152). -/
def acceptCandidate (c : Nat) (out : List Nat) : List Nat :=
  if c < Config.Q ∧ out.length < Config.N then out ++ [c] else out

/-- The body of the loop of rule R152 on stream `x`: one 3-byte group, its two candidates in order. -/
def takeGroup (x : Nat → Byte) (smp : Sampling) : Sampling where
  pos := smp.pos + 3
  accepted :=
    let b0 := (x smp.pos).toNat
    let b1 := (x (smp.pos + 1)).toNat
    let b2 := (x (smp.pos + 2)).toNat
    acceptCandidate (candidate2 b1 b2) (acceptCandidate (candidate1 b0 b1) smp.accepted)

/-- How a stretch of the loop of rule R152 ends: 256 values are accepted; the next group would pass
the limit; neither yet. -/
inductive LoopEnd
  | accepted (smp : Sampling)
  | limit
  | unfinished (smp : Sampling)
deriving DecidableEq, Repr

/-- At most `n` rounds of the loop of rule R152 on stream `x` with `XOF_LIMIT_BYTES = lim`. -/
def rejectionLoop (x : Nat → Byte) (lim : Nat) : Nat → Sampling → LoopEnd
  | 0, smp => if Config.N ≤ smp.accepted.length then .accepted smp else .unfinished smp
  | n + 1, smp =>
    if Config.N ≤ smp.accepted.length then .accepted smp
    else if lim ≠ 0 ∧ lim < smp.pos + 3 then .limit
    else rejectionLoop x lim n (takeGroup x smp)

/-- The 34 bytes `SUNI` absorbs (rules R151, R152). -/
def suniInput (o : Operands) : List Byte := o.seed ++ [o.argX, o.argY]

/-- `RESULT` after a `SUNI` that read `pos` bytes (rules R152, R154); a free function of the count where 32
bits do not hold it and the spec states no value, so that the sampler stays pure (rule R159; log
entry 8). -/
def byteCount (pos : Nat) : Word :=
  if pos < 2 ^ 32 then BitVec.ofNat 32 pos else Config.freeByteCount pos

/-- The end of a `SUNI` by acceptance of 256 values (rules R152, R205). -/
def suniAccepted (d : SlotNo) (smp : Sampling) (s : State) : State :=
  finish (byteCount smp.pos) (s.setSlot d smp.accepted)

/-- The end of a `SUNI` by the limit (rules R152, R205). -/
def suniLimit (d : SlotNo) (s : State) : State :=
  complete (raiseError .xofLimit (s.freeSlot d).freeResult)

/-- A `SUNI` that has not ended: it stays in flight with what it has sampled (rules R40, R206, R246). -/
def suniUnfinished (d : SlotNo) (smp : Sampling) (s : State) : State :=
  { s with engine := .running (encode (.suni d)) (operands s) smp }

/-- What the end of the loop does to the state (rules R152, R205, R246). -/
def suniEnd (d : SlotNo) (e : LoopEnd) (s : State) : State :=
  match e with
  | .accepted smp => suniAccepted d smp s
  | .limit => suniLimit d s
  | .unfinished smp => suniUnfinished d smp s

/-- The loop of the command in flight, from where it stands (rule R152). -/
def suniLoop (s : State) : LoopEnd :=
  rejectionLoop (Config.xof (suniInput (operands s))) Config.xofLimitBytes Config.suniGroupsPerStep
    (samplingOf s)

/-- `SUNI` (rule R152). -/
def execSuni (d : SlotNo) (s : State) : Host.Outcome State Fault Refusal :=
  .next (suniEnd d (suniLoop s) s)

/-! ## Centered binomial sampling -/

/-- Bit `k` of a byte string, least significant bit of each byte first (rules R157, R176). -/
def streamBit (x : Nat → Byte) (k : Nat) : Nat := ((x (k / 8)).toNat >>> (k % 8)) % 2

/-- The sum of `n` stream bits from bit `k` on: a Hamming weight (rules R156, R157). -/
def weight (x : Nat → Byte) (k n : Nat) : Nat := ((List.range n).map fun t => streamBit x (k + t)).sum

/-- Coefficient `i` of the binomial polynomial (rules R156, R157). -/
def cbdCoeff (x : Nat → Byte) (eta i : Nat) : Nat :=
  subMod (weight x (2 * i * eta) eta) (weight x (2 * i * eta + eta) eta)

/-- The 33 bytes `SCBD` absorbs: the seed and the nonce `ARG.X` (rules R151, R156). -/
def scbdInput (o : Operands) : List Byte := o.seed ++ [o.argX]

/-- `SCBD` (rule R156): `64 * eta` bytes of the PRF, one coefficient from each `2 * eta` bits. -/
def execScbd (d : SlotNo) (eta : Nat) (s : State) : Host.Outcome State Fault Refusal :=
  .next (finishPoly true d (lanes (cbdCoeff (Config.prf (scbdInput (operands s)) (64 * eta)) eta)) s)

end Sys2Proof.Machine
end

