-- ==== Sys2Proof/Machine/Codec.lean ====
section
/-! DEFINITION. The codec (43_codec.md): compression, decompression, and packing to and from `BBUF`. -/

namespace Sys2Proof.Machine

/-- `Compress_w(x)`: `round(2^w * x / Q) mod 2^w` in its closed form (rule R170). -/
def compress (w x : Nat) : Nat := ((x <<< (w + 1)) + Config.Q) / (2 * Config.Q) % 2 ^ w

/-- `Decompress_w(y)`: `round(Q * y / 2^w)`, halves up, in its closed form (rule R171). -/
def decompress (w y : Nat) : Nat := (Config.Q * y + 2 ^ (w - 1)) >>> w

/-- The length of a packed polynomial in bytes (rule R175). -/
def packedLength (w : Nat) : Nat := 32 * w

/-- The bound `ENC` checks against: `Q` at 12 bits, else `2^w` (rule R177). -/
def packLimit (w : Nat) : Nat := if w = 12 then Config.Q else 2 ^ w

/-- Bit `k` of the packed string: bit `k mod w` of value `k div w` (rule R176). -/
def packedBit (f : Poly) (w k : Nat) : Nat := (f.at (k / w) >>> (k % w)) % 2

/-- Byte `k` of the packed string (rule R177). -/
def packedByte (f : Poly) (w k : Nat) : Byte :=
  BitVec.ofNat 8 ((List.range 8).map fun m => packedBit f w (8 * k + m) <<< m).sum

/-- The packed string (rule R177). -/
def packPoly (f : Poly) (w : Nat) : List Byte := (List.range (packedLength w)).map (packedByte f w)

/-- Value `i` of a packed string, before any reduction (rule R178). -/
def unpackedValue (x : Nat → Byte) (w i : Nat) : Nat :=
  ((List.range w).map fun j => streamBit x (i * w + j) <<< j).sum

/-- The values of a packed string, before any reduction (rule R178). -/
def unpackPoly (x : Nat → Byte) (w : Nat) : Poly := lanes (unpackedValue x w)

/-- How many values are not canonical (rule R178). -/
def overflowCount (f : Poly) : Nat := f.countP fun v => decide (Config.Q ≤ v)

/-- `CMPR` (rule R172). -/
def execCmpr (d a : SlotNo) (w : Nat) (s : State) : Host.Outcome State Fault Refusal :=
  let x := (operands s).poly a
  .next (finishPoly (canonical x) d (mapLanes (compress w) x) s)

/-- `DCMP` (rule R174). -/
def execDcmp (d a : SlotNo) (w : Nat) (s : State) : Host.Outcome State Fault Refusal :=
  let x := (operands s).poly a
  .next (finishPoly (below (2 ^ w) x) d (mapLanes (decompress w) x) s)

/-- `ENC` (rule R177): `BLEN` is written also when `E_RANGE` is raised. -/
def execEnc (a : SlotNo) (w : Nat) (s : State) : Host.Outcome State Fault Refusal :=
  let x := (operands s).poly a
  let s' := s.setBlen (BitVec.ofNat 16 (packedLength w))
  .next (finish 0#32
    (if below (packLimit w) x then s'.setBuffer (packPoly x w)
     else raiseError .range (s'.freeBuffer (packedLength w))))

/-- `DEC` (rule R178): at 12 bits the values are reduced and `RESULT` counts those that were not
canonical. Its length check is made at issue (rule R204). -/
def execDec (d : SlotNo) (w : Nat) (s : State) : Host.Outcome State Fault Refusal :=
  let f := unpackPoly (operands s).bbuf w
  .next
    (if w = 12 then
      finish (BitVec.ofNat 32 (overflowCount f)) (s.setSlot d (mapLanes (fun v => v % Config.Q) f))
     else finish 0#32 (s.setSlot d f))

end Sys2Proof.Machine
end

