-- ==== Sys2Proof/Machine/Bus.lean ====
section
/-! DEFINITION. The host's side: the register map, reads and writes, the issue of a command, the reset
input (20_memory.md, rules R20, R203, R204, R230, R231), and whose turn it is (rule R247). -/

namespace Sys2Proof.Machine

/-! ## Issue -/

/-- The byte count `BLEN` must hold for a command to be accepted: only `DEC` has one (rules R178, R204). -/
def neededLength : Instr → Option Nat
  | .dec _ w => some (packedLength w)
  | .nop | .fadd | .fsub | .fmul | .fred | .fbred | .fmred | .padd _ _ _ | .psub _ _ _ | .pred _ _
  | .ntt _ | .intt _ | .bmul _ _ _ | .bmac _ _ _ | .suni _ | .scbd _ _ | .cmpr _ _ _ | .dcmp _ _ _
  | .enc _ _ | .pzero _ | .pcopy _ _ | .wipe => none

/-- The length check of rule R204. -/
def lengthLegal (i : Instr) (blen : Half) : Bool :=
  match neededLength i with
  | none => true
  | some n => blen.toNat == n

/-- The error code of a word the decoder rejects (rules R87, R200). -/
def Reject.code : Reject → ErrCode
  | .reservedOpcode => .opcode
  | .illegalField => .param

/-- Issue of the word `v` while idle (rule R204): the checks in their order, then acceptance. -/
def issue (v : Word) (s : State) : State :=
  match decode v with
  | .error r => reject (Reject.code r) s
  | .ok i => if lengthLegal i s.blen then accept v s else reject .length s

/-- A write of `v` to `CMD` (rules R28, R203): `v` is stored; while busy that and `E_BUSY` is all. -/
def writeCmd (v : Word) (s : State) : State :=
  let s' := { s with cmd := v }
  if s.busy then raiseError .busy s' else issue v s'

/-! ## The register map -/

/-- What a word of the window is (rule R20). `buffer` is a word of `BBUF` or of a slot. -/
inductive Location
  | id
  | ctrl
  | status
  | cmd
  | arg
  | blen
  | result
  | faA
  | faB
  | faW
  | seed (x : Nat)
  | buffer (x : Nat)
  | zeta (i : Nat)
  | gamma (i : Nat)
deriving DecidableEq, Repr

/-- The map of rule R20 at an offset divisible by 4; `none` where it lists nothing (rule R63). -/
def locate (x : Nat) : Option Location :=
  if x = 0x000 then some .id
  else if x = 0x004 then some .ctrl
  else if x = 0x008 then some .status
  else if x = 0x00C then some .cmd
  else if x = 0x010 then some .arg
  else if x = 0x014 then some .blen
  else if x = 0x018 then some .result
  else if x = 0x020 then some .faA
  else if x = 0x024 then some .faB
  else if x = 0x028 then some .faW
  else if 0x040 ≤ x ∧ x < 0x060 then some (.seed x)
  else if 0x400 ≤ x ∧ x < 0x580 then some (.buffer x)
  else if 0x800 ≤ x ∧ x < 0xA00 then some (.zeta ((x - 0x800) / 4))
  else if 0xA00 ≤ x ∧ x < 0xC00 then some (.gamma ((x - 0xA00) / 4))
  else if 0x2000 ≤ x ∧ x < 0x4000 then some (.buffer x)
  else none

/-- The value a location holds (rules R20, R23, R25–R35). -/
def valueAt (l : Location) (s : State) : Word :=
  match l with
  | .id => Config.id
  | .ctrl => s.ctrl
  | .status => s.status
  | .cmd => s.cmd
  | .arg => s.arg.zext
  | .blen => s.blen.zext
  | .result => s.result
  | .faA => s.faA.zext
  | .faB => s.faB.zext
  | .faW => s.faW
  | .seed x => s.mem.word x
  | .buffer x => s.mem.word x
  | .zeta i => BitVec.ofNat 32 (Machine.zeta i)
  | .gamma i => BitVec.ofNat 32 (Machine.gamma i)

/-- Whether a read shows the location's value (rule R66): not `RESULT`, `BLEN`, `BBUF` or a slot while
busy. `SEED` reads its current value at any time, the reset wipe included (log entry 9). -/
def readable (l : Location) (s : State) : Bool :=
  match l with
  | .result | .blen | .buffer _ => !s.busy
  | .id | .ctrl | .status | .cmd | .arg | .faA | .faB | .faW | .seed _ | .zeta _ | .gamma _ => true

/-- A host read (rules R65, R66): it changes nothing but the answer, which is the location's value or a
free value. -/
def readLocation (l : Location) (s : State) : State :=
  if readable l s then { s with response := .data (valueAt l s) }
  else { s with response := .data (Config.freeWord s.draws), draws := s.draws + 1 }

/-- A write to an operand location (rule R66): dropped with `E_ACCESS` while busy. -/
def writeOperand (store : State) (s : State) : State := if s.busy then raiseError .access s else store

/-- A write to `CTRL` (rules R26, R231): with bit 31 set a soft reset, the rest of the word ignored. -/
def writeCtrl (v : Word) (s : State) : State :=
  if v.getLsbD 31 then enterReset s else { s with ieDone := v.getLsbD 0, ieErr := v.getLsbD 1 }

/-- A host write; `none` where the location is read-only (rules R63, R65, R66). -/
def writeLocation (l : Location) (v : Word) (s : State) : Option State :=
  match l with
  | .id | .result | .zeta _ | .gamma _ => none
  | .ctrl => some (writeCtrl v s)
  | .status => some (acknowledge v s)
  | .cmd => some (writeCmd v s)
  | .arg => some (writeOperand { s with arg := v.low } s)
  | .blen => some (writeOperand { s with blen := v.low } s)
  | .faA => some (writeOperand { s with faA := v.low } s)
  | .faB => some (writeOperand { s with faB := v.low } s)
  | .faW => some (writeOperand { s with faW := v } s)
  | .seed x | .buffer x => some (writeOperand { s with mem := s.mem.setWord x v } s)

/-- One host access (rules R62–R66): width and alignment first, then the map, then the access. -/
def busAccess (a : BusAccess) (s : State) : Host.Outcome State Fault Refusal :=
  match a with
  | .read x n =>
    if n ≠ 4 then .fault .busErrorSize
    else if x % 4 ≠ 0 then .fault .busErrorAlignment
    else match locate x with
      | none => .fault .busErrorUnmapped
      | some l => .next (readLocation l s)
  | .write x n v =>
    if n ≠ 4 then .fault .busErrorSize
    else if x % 4 ≠ 0 then .fault .busErrorAlignment
    else match locate x with
      | none => .fault .busErrorUnmapped
      | some l =>
        match writeLocation l v s with
        | none => .fault .busErrorReadOnly
        | some s' => .next { s' with response := .written }

/-! ## Whose turn it is -/

/-- What the next step does (rule R247). -/
inductive Turn
  | host (a : BusAccess)
  | resetPulse
  | command (i : Instr)
  | noSuchCommand
  | wipeEnds
  | rest
deriving DecidableEq, Repr

/-- The block's own step (rules R205, R232): the command it captured, the end of the wipe, or none. -/
def blockTurn (s : State) : Turn :=
  match s.engine with
  | .idle => .rest
  | .wiping => .wipeEnds
  | .running v _ _ =>
    match decode v with
    | .ok i => .command i
    | .error _ => .noSuchCommand

/-- The next step (rules R69, R207, R246): what arrives first; the block's own step where an arrival
leaves it the turn or nothing arrives. -/
def nextTurn (s : State) : Turn :=
  match s.arrivals with
  | [] | .blockStep :: _ => blockTurn s
  | .access a :: _ => .host a
  | .resetPulse :: _ => .resetPulse

/-- The state in which the turn is taken: the arrival has been served. -/
def served (s : State) : State := { s with arrivals := s.arrivals.tail }

/-- A state in which the very next step runs the command word `v`: the word written to `CMD`, accepted
with the operands as they stand, and the block's own step next (log entry 10). -/
def loadCommand (v : Word) (s : State) : State :=
  { accept v { s with cmd := v } with arrivals := .blockStep :: s.arrivals }

end Sys2Proof.Machine
end

