-- ==== Sys2Proof/Machine/Control.lean ====
section
/-! DEFINITION. The control and buffer commands (44_control.md). -/

namespace Sys2Proof.Machine

/-- `NOP` (rule R190). -/
def execNop (s : State) : Host.Outcome State Fault Refusal := .next (finish 0#32 s)

/-- `PZERO` (rule R191). -/
def execPzero (d : SlotNo) (s : State) : Host.Outcome State Fault Refusal :=
  .next (finish 0#32 (s.setSlot d (lanes fun _ => 0)))

/-- `PCOPY` (rule R192): raw values, no range check. -/
def execPcopy (d a : SlotNo) (s : State) : Host.Outcome State Fault Refusal :=
  .next (finish 0#32 (s.setSlot d ((operands s).poly a)))

/-- `WIPE` (rule R193): every memory and operand register is 0; the captured operands go with the end
of the command. -/
def execWipe (s : State) : Host.Outcome State Fault Refusal :=
  .next (finish 0#32
    { s with mem := [], arg := 0#16, blen := 0#16, faA := 0#16, faB := 0#16, faW := 0#32 })

end Sys2Proof.Machine
end

