-- ==== Sys2Proof/Machine/Ntt.lean ====
section
/-! DEFINITION. The NTT engine (41_ntt.md): the transforms of rules R131 and R132, seven layers each
(conflict C2), and the degree-2 base multiplication. A layer takes the blocks of the polynomial one
after the other, as the loop over `start` does; the butterflies inside a block touch disjoint lanes and
are taken together. `Safety.lean` writes the loops of the two rules out as the spec prints them. -/

namespace Sys2Proof.Machine

/-- One block of `NTT`: the butterflies between its lower half `lo` and its upper half `hi` with
twiddle `z` (rule R131). -/
def nttBlock (z : Nat) (lo hi : Poly) : Poly :=
  let t := hi.map (mulMod z)
  List.zipWith addMod lo t ++ List.zipWith subMod lo t

/-- One block of `INTT` (rule R132). -/
def inttBlock (z : Nat) (lo hi : Poly) : Poly :=
  List.zipWith addMod lo hi ++ (List.zipWith subMod hi lo).map (mulMod z)

/-- `n` blocks of `NTT` with half-length `len`, the twiddle index rising from `k` (rule R131). -/
def nttBlocks (len : Nat) : Nat → Nat → Poly → Poly
  | 0, _, f => f
  | n + 1, k, f =>
    nttBlock (zeta k) (f.take len) ((f.drop len).take len) ++ nttBlocks len n (k + 1) (f.drop (2 * len))

/-- `n` blocks of `INTT` with half-length `len`, the twiddle index falling from `k` (rule R132). -/
def inttBlocks (len : Nat) : Nat → Nat → Poly → Poly
  | 0, _, f => f
  | n + 1, k, f =>
    inttBlock (zeta k) (f.take len) ((f.drop len).take len) ++ inttBlocks len n (k - 1) (f.drop (2 * len))

/-- A layer of `NTT` has `128 / len` blocks; its first twiddle index is the number of twiddles used
before it plus one, `128 / len` (rules R131, R137). -/
def nttLayer (len : Nat) (f : Poly) : Poly := nttBlocks len (128 / len) (128 / len) f

/-- A layer of `INTT`; its first twiddle index is `256 / len - 1`, the index 127 of the first layer
halving with the number of blocks (rules R132, R137). -/
def inttLayer (len : Nat) (f : Poly) : Poly := inttBlocks len (128 / len) (256 / len - 1) f

/-- `128^-1 mod Q` (rules R10, R132; conflict C3). -/
def inverseScale : Nat := 3303

/-- The forward transform of a canonical polynomial (rule R131). -/
def nttPoly (f : Poly) : Poly := [128, 64, 32, 16, 8, 4, 2].foldl (fun g len => nttLayer len g) f

/-- The inverse transform of a canonical polynomial, with its scaling (rule R132). -/
def inttPoly (f : Poly) : Poly :=
  ([2, 4, 8, 16, 32, 64, 128].foldl (fun g len => inttLayer len g) f).map (mulMod · inverseScale)

/-- Coefficient `i` of the NTT-domain product: pair `i / 2` is multiplied modulo
`X^2 - GAMMA[i / 2]` (rule R133). -/
def baseMul (x y : Poly) (i : Nat) : Nat :=
  let m := i / 2
  let x0 := x.at (2 * m)
  let x1 := x.at (2 * m + 1)
  let y0 := y.at (2 * m)
  let y1 := y.at (2 * m + 1)
  if i % 2 = 0 then (x0 * y0 + x1 * y1 * gamma m) % Config.Q
  else (x0 * y1 + x1 * y0) % Config.Q

/-- `NTT` (rule R131). -/
def execNtt (d : SlotNo) (s : State) : Host.Outcome State Fault Refusal :=
  let f := (operands s).poly d
  .next (finishPoly (canonical f) d (nttPoly f) s)

/-- `INTT` (rule R132). -/
def execIntt (d : SlotNo) (s : State) : Host.Outcome State Fault Refusal :=
  let f := (operands s).poly d
  .next (finishPoly (canonical f) d (inttPoly f) s)

/-- `BMUL` (rule R133). -/
def execBmul (d a b : SlotNo) (s : State) : Host.Outcome State Fault Refusal :=
  let x := (operands s).poly a
  let y := (operands s).poly b
  .next (finishPoly (canonical x && canonical y) d (lanes (baseMul x y)) s)

/-- `BMAC` (rule R134): the old content of slot `d` is a third checked source. -/
def execBmac (d a b : SlotNo) (s : State) : Host.Outcome State Fault Refusal :=
  let x := (operands s).poly a
  let y := (operands s).poly b
  let acc := (operands s).poly d
  .next (finishPoly (canonical x && canonical y && canonical acc) d
    (lanes fun i => addMod (acc.at i) (baseMul x y i)) s)

end Sys2Proof.Machine
end

