-- ==== Sys2Proof/Machine/Dispatch.lean ====
section
/-! DEFINITION. One arm per command: the completion of an accepted command (rule R205), by its meaning. -/

namespace Sys2Proof.Machine

def exec (i : Instr) (s : State) : Host.Outcome State Fault Refusal :=
  match i with
  | .nop => Sys2Proof.Machine.execNop s
  | .fadd => Sys2Proof.Machine.execFadd s
  | .fsub => Sys2Proof.Machine.execFsub s
  | .fmul => Sys2Proof.Machine.execFmul s
  | .fred => Sys2Proof.Machine.execFred s
  | .fbred => Sys2Proof.Machine.execFbred s
  | .fmred => Sys2Proof.Machine.execFmred s
  | .padd d a b => Sys2Proof.Machine.execPadd d a b s
  | .psub d a b => Sys2Proof.Machine.execPsub d a b s
  | .pred d a => Sys2Proof.Machine.execPred d a s
  | .ntt d => Sys2Proof.Machine.execNtt d s
  | .intt d => Sys2Proof.Machine.execIntt d s
  | .bmul d a b => Sys2Proof.Machine.execBmul d a b s
  | .bmac d a b => Sys2Proof.Machine.execBmac d a b s
  | .suni d => Sys2Proof.Machine.execSuni d s
  | .scbd d eta => Sys2Proof.Machine.execScbd d eta s
  | .cmpr d a w => Sys2Proof.Machine.execCmpr d a w s
  | .dcmp d a w => Sys2Proof.Machine.execDcmp d a w s
  | .enc a w => Sys2Proof.Machine.execEnc a w s
  | .dec d w => Sys2Proof.Machine.execDec d w s
  | .pzero d => Sys2Proof.Machine.execPzero d s
  | .pcopy d a => Sys2Proof.Machine.execPcopy d a s
  | .wipe => Sys2Proof.Machine.execWipe s

end Sys2Proof.Machine
end

