-- ==== Sys2Proof/Machine/Step.lean ====
section
/-! DEFINITION. One step of the machine: a host access, a reset pulse, or the block's own step
(rule R247). -/

namespace Sys2Proof.Machine

/-- One step. With nothing arriving and nothing in flight the block holds its state (rule R217). -/
def step (s : State) : Host.Outcome State Fault Refusal :=
  match nextTurn s with
  | .host a => busAccess a (served s)
  | .resetPulse => .next (enterReset (served s))
  | .command i => exec i (served s)
  | .noSuchCommand => .refused .noSuchCommandInFlight
  | .wipeEnds => .next (endWipe (served s))
  | .rest => .next (served s)

/-- `s` with the command word of `nbits` bits `w` in flight, so that the next step runs it. -/
def State.withFetchWord (s : State) (nbits w : Nat) : State := loadCommand (tableWord nbits w) s

end Sys2Proof.Machine
end

