-- ==== Sys2Proof/Safety.lean ====
section
/-! DEFINITION. What claims are stated in: the invariant, what a step leaves alone, the loops of the
spec written out as it prints them, and the reference reductions. -/

namespace Sys2Proof.Machine

/-! ## The invariant -/

/-- Only addresses of `SEED`, `BBUF` and the slots are listed (rule R20). -/
def Memory.mapped (m : Memory) : Bool := m.all fun c => inMemoryMap c.1

/-- What a command in flight can have sampled (rules R40, R152, R154): fewer than 256 canonical values,
at most two from each of the 3-byte groups read; nothing for a command other than `SUNI`. -/
def samplingLegal (i : Instr) (smp : Sampling) : Bool :=
  match i with
  | .suni _ =>
    canonical smp.accepted && decide (smp.accepted.length < 256) && smp.pos % 3 == 0
      && decide (3 * smp.accepted.length ≤ 2 * smp.pos)
  | .nop | .fadd | .fsub | .fmul | .fred | .fbred | .fmred | .padd _ _ _ | .psub _ _ _ | .pred _ _
  | .ntt _ | .intt _ | .bmul _ _ _ | .bmac _ _ _ | .scbd _ _ | .cmpr _ _ _ | .dcmp _ _ _
  | .enc _ _ | .dec _ _ | .pzero _ | .pcopy _ _ | .wipe => smp == .start

/-- The command in flight is one rule R204 accepts, and the operands it captured are the live ones
(rule R39); during the reset wipe every `SEED` byte is 0, so that no read then shows a secret (rules R66,
R194; log entry 11). -/
def engineLegal (s : State) : Bool :=
  match s.engine with
  | .idle => true
  | .wiping => (List.range 32).all fun k => s.mem.read (0x40 + k) == 0#8
  | .running v ops smp =>
    match decode v with
    | .error _ => false
    | .ok i => lengthLegal i ops.blen && ops == capture s && samplingLegal i smp

/-- The invariant: the memories in canonical form and inside the map (rule R20); the engine legal; `DONE`
never 1 while `BUSY` is (rules R27, R243). -/
def State.inv (s : State) : Bool :=
  s.mem.wf && s.mem.mapped && engineLegal s && !(s.busy && s.done)

/-! ## Operands and results, lane by lane -/

/-- Coefficient `i` of slot `p` among the operands of a command, as a number (rule R14). -/
def Operands.lane (o : Operands) (p : SlotNo) (i : Nat) : Nat := (o.mem.coeff p i).toNat

/-- Coefficient `i` of slot `p`, as a number (rule R14). -/
def State.lane (s : State) (p : SlotNo) (i : Nat) : Nat := (s.mem.coeff p i).toNat

/-- Byte `k` of `SEED` (rule R33). -/
def State.seedByte (s : State) (k : Nat) : Byte := s.mem.read (0x40 + k)

/-- Byte `k` of `BBUF` (rule R34). -/
def State.bufferByte (s : State) (k : Nat) : Byte := s.mem.read (0x400 + k)

/-- Every coefficient of slot `p` among the operands is below `lim` (rule R201). -/
def Operands.slotBelow (o : Operands) (p : SlotNo) (lim : Nat) : Prop := ∀ i, i < 256 → o.lane p i < lim

/-- Every coefficient of slot `p` is below `lim`. -/
def State.slotBelow (s : State) (p : SlotNo) (lim : Nat) : Prop := ∀ i, i < 256 → s.lane p i < lim

/-! ## What a step leaves alone -/

/-- The registers a command writes nothing to: `CTRL`, `CMD`, `ARG`, `FA_A`, `FA_B`, `FA_W`; and what
belongs to the world outside. -/
structure SameControls (s t : State) : Prop where
  ieDone : t.ieDone = s.ieDone
  ieErr : t.ieErr = s.ieErr
  cmd : t.cmd = s.cmd
  arg : t.arg = s.arg
  faA : t.faA = s.faA
  faB : t.faB = s.faB
  faW : t.faW = s.faW
  arrivals : t.arrivals = s.arrivals
  response : t.response = s.response

/-- Every byte of memory outside the `n` bytes from address `x` up reads as before. -/
def SameOutside (x n : Nat) (s t : State) : Prop :=
  ∀ y, y < x ∨ x + n ≤ y → t.mem.read y = s.mem.read y

/-- Every byte of memory reads as before. -/
def SameMemory (s t : State) : Prop := ∀ y, t.mem.read y = s.mem.read y

/-- The command has completed (rules R44, R205): `BUSY` = 0 and `DONE` = 1. -/
def Completed (t : State) : Prop := t.engine = .idle ∧ t.done = true

/-- `ERR` and `ERRCODE` are as they were. -/
def NoError (s t : State) : Prop := t.error = s.error

/-- `code` was raised: it is held now unless an earlier error was (rule R202). -/
def Raised (code : ErrCode) (s t : State) : Prop :=
  t.error = match s.error with
    | none => some code
    | some earlier => some earlier

/-- The slot a command writes: the one rule R85 names as its destination. -/
def destination : Instr → Option SlotNo
  | .padd d _ _ | .psub d _ _ | .pred d _ | .ntt d | .intt d | .bmul d _ _ | .bmac d _ _ | .suni d
  | .scbd d _ | .cmpr d _ _ | .dcmp d _ _ | .dec d _ | .pzero d | .pcopy d _ => some d
  | .nop | .fadd | .fsub | .fmul | .fred | .fbred | .fmred | .enc _ _ | .wipe => none

/-- The slots a command reads (rule R85): its sources, and its destination where that is read too. -/
def sources : Instr → List SlotNo
  | .padd _ a b | .psub _ a b | .bmul _ a b => [a, b]
  | .bmac d a b => [d, a, b]
  | .pred _ a | .cmpr _ a _ | .dcmp _ a _ | .pcopy _ a | .enc a _ => [a]
  | .ntt d | .intt d => [d]
  | .nop | .fadd | .fsub | .fmul | .fred | .fbred | .fmred | .suni _ | .scbd _ _ | .dec _ _ | .pzero _
  | .wipe => []

/-- The word `v` is the command `i`, both ways (rules R80, R85). -/
def Encodes (i : Instr) (v : Nat) : Prop :=
  encode i = BitVec.ofNat 32 v ∧ decode (BitVec.ofNat 32 v) = .ok i

/-- A host write of `v` to offset `x` is served next. -/
def WritesNext (x : Nat) (v : Word) (s : State) : Prop :=
  ∃ rest, s.arrivals = .access (.write x 4 v) :: rest

/-- A host read of offset `x` is served next. -/
def ReadsNext (x : Nat) (s : State) : Prop := ∃ rest, s.arrivals = .access (.read x 4) :: rest

/-- Nothing arrives before the block's own step (rule R247). -/
def BlockNext (s : State) : Prop := s.arrivals = [] ∨ ∃ rest, s.arrivals = .blockStep :: rest

/-- The word `v` is no command, and written to `CMD` while `BUSY` = 0 it is rejected with `E_PARAM`
(rules R82–R84, R204). -/
def RejectedWithParam (v : Nat) : Prop :=
  decode (BitVec.ofNat 32 v) = .error .illegalField ∧
  ∀ s : State, WritesNext 0x00C (BitVec.ofNat 32 v) s → s.busy = false →
    ∃ t : State, step s = .next t ∧ t.busy = false ∧ t.done = true ∧ Raised .param s t ∧
      SameMemory s t ∧ t.result = s.result ∧ t.blen = s.blen

/-! ## The loops of the spec, as it prints them -/

/-- `x mod Q` of an integer, in `[0, Q)` (rule R13). -/
def intMod (x : Int) : Nat := (x % (Config.Q : Int)).toNat

/-- The values of `start`: `0, 2 * len, 4 * len, …` while below 256 (rules R131, R132). -/
def starts (len : Nat) : List Nat := (List.range (128 / len)).map fun m => m * (2 * len)

/-- The loops of rule R131 with their in-place assignments and the twiddle index `k` running through
all of them. -/
def loopR131 (f : Poly) : Poly :=
  ([128, 64, 32, 16, 8, 4, 2].foldl
    (fun (fk : Poly × Nat) len =>
      (starts len).foldl
        (fun (gk : Poly × Nat) start =>
          ((List.range len).foldl
            (fun (g : Poly) (m : Nat) =>
              let j := start + m
              let t := (zeta gk.2 * g.at (j + len)) % Config.Q
              let g' : Poly := g.set (j + len) (intMod ((g.at j : Int) - t))
              g'.set j ((g'.at j + t) % Config.Q))
            gk.1, gk.2 + 1))
        fk)
    (f, 1)).1

/-- The loops of rule R132 with their in-place assignments, the twiddle index `k` running down, and the
final scaling by `3303 = 128^-1 mod Q`. -/
def loopR132 (f : Poly) : Poly :=
  ([2, 4, 8, 16, 32, 64, 128].foldl
    (fun (fk : Poly × Nat) len =>
      (starts len).foldl
        (fun (gk : Poly × Nat) start =>
          ((List.range len).foldl
            (fun (g : Poly) (m : Nat) =>
              let j := start + m
              let t := g.at j
              let g' : Poly := g.set j ((t + g.at (j + len)) % Config.Q)
              g'.set (j + len) (intMod ((zeta gk.2 : Int) * ((g'.at (j + len) : Int) - t))))
            gk.1, gk.2 - 1))
        fk)
    (f, 127)).1.map fun v => (v * 3303) % Config.Q

/-- The 7-bit bit reversal: bit `j` becomes bit `6 - j` (rule R130). -/
def brv7 (i : Nat) : Nat := ((List.range 7).map fun j => (i >>> j) % 2 * 2 ^ (6 - j)).sum

/-- `BarrettReduce32` (rule R102). -/
def barrettReduce32 (v : Nat) : Nat :=
  let t := (v * 1290167) >>> 32
  let r := v - t * Config.Q
  if Config.Q ≤ r then r - Config.Q else r

/-- `MontgomeryReduce` (rule R102). -/
def montgomeryReduce (v : Nat) : Nat :=
  let t := ((v % 2 ^ 16) * 3327) % 2 ^ 16
  let u := (v + t * Config.Q) >>> 16
  if Config.Q ≤ u then u - Config.Q else u

/-- The candidates of the first `n` 3-byte groups of a stream, in the order they are tested
(rules R152, R153). -/
def candidates (x : Nat → Byte) (n : Nat) : List Nat :=
  (List.range n).flatMap fun m =>
    let b0 := (x (3 * m)).toNat
    let b1 := (x (3 * m + 1)).toNat
    let b2 := (x (3 * m + 2)).toNat
    [b0 + 256 * (b1 % 16), b1 / 16 + 16 * b2]

/-- The values of the first `n` groups that are below `Q` (rule R152). -/
def acceptable (x : Nat → Byte) (n : Nat) : List Nat :=
  (candidates x n).filter fun c => decide (c < Config.Q)

/-- The named assumption rule R246 asks for, `SUNI` termination: the stream of the operands holds 256
candidates below `Q`. No claim of the model assumes it (log entry 5). -/
def SuniTermination (o : Operands) : Prop :=
  ∃ n, 256 ≤ (acceptable (Config.xof (suniInput o)) n).length

/-- The reserved opcodes, as rule R87 lists them. -/
def reservedOpcode (n : Nat) : Bool :=
  (0x07 ≤ n && n ≤ 0x0F) || (0x13 ≤ n && n ≤ 0x1F) || (0x24 ≤ n && n ≤ 0x2F) || (0x32 ≤ n && n ≤ 0x3F)
    || (0x44 ≤ n && n ≤ 0x4F) || (0x52 ≤ n && n ≤ 0x5E) || (0x60 ≤ n && n ≤ 0xFF)

/-- The offsets the map does not list, as rule R63 lists them; offsets outside the window belong to no
location of the block (rule R67). -/
def unlistedOffset (x : Nat) : Bool :=
  x == 0x01C || (0x02C ≤ x && x ≤ 0x03C) || (0x060 ≤ x && x ≤ 0x3FC) || (0x580 ≤ x && x ≤ 0x7FC)
    || (0xC00 ≤ x && x ≤ 0x1FFC) || Config.window ≤ x

/-- The offsets whose words are read-only: `ID`, `RESULT` and the two ROMs (rule R63). -/
def readOnlyOffset (x : Nat) : Bool := x == 0x000 || x == 0x018 || (0x800 ≤ x && x < 0xC00)

end Sys2Proof.Machine
end

