-- ==== Sys2Proof/Certificates/Slice0/Obligations.lean ====
section
/-! DEFINITION. The statements for the provers, each from the rules of the spec its docstring names. -/

open Sys2Proof Sys2Proof.Machine

/-! ## Encoding -/

/-- Command words written out in 95_test_vectors.md section 7, and one more for each family, decode to
the commands they stand for. -/
def Obligations.PrintedCommandWordsDecode : Prop :=
  decode 0x00000000#32 = .ok .nop ∧ decode 0x00000001#32 = .ok .fadd ∧ decode 0x00000003#32 = .ok .fmul ∧
  decode 0x00031410#32 = .ok (.padd 4 1 3) ∧ decode 0x00000120#32 = .ok (.ntt 1) ∧
  decode 0x00000221#32 = .ok (.intt 2) ∧ decode 0x00010222#32 = .ok (.bmul 2 0 1) ∧
  decode 0x00000030#32 = .ok (.suni 0) ∧ decode 0x00200131#32 = .ok (.scbd 1 2) ∧
  decode 0x00104540#32 = .ok (.cmpr 5 4 1) ∧ decode 0x00100141#32 = .ok (.dcmp 1 0 1) ∧
  decode 0x00102042#32 = .ok (.enc 2 1) ∧ decode 0x00100043#32 = .ok (.dec 0 1) ∧
  decode 0x00002551#32 = .ok (.pcopy 5 2) ∧ decode 0x0000005F#32 = .ok .wipe ∧
  decode 0x000000FF#32 = .error .reservedOpcode ∧ decode 0x00000007#32 = .error .reservedOpcode ∧
  decode 0x01032110#32 = .error .illegalField ∧ decode 0x00002120#32 = .error .illegalField ∧
  decode 0x00400031#32 = .error .illegalField ∧ decode 0x00C00140#32 = .error .illegalField

/-- Decoding the word of a well-formed command gives the command back, every operand at every value its
field admits (rules R80–R85). -/
def Obligations.DecodeOfEncode : Prop :=
  ∀ i : Instr, i.wellFormed = true → decode (encode i) = .ok i

/-- A word that decodes is the word of exactly the command it decodes to, and that command is well
formed: no bit of a word is ignored (rules R83, R84, R86, R88). -/
def Obligations.EncodeOfDecode : Prop :=
  ∀ (v : Word) (i : Instr), decode v = .ok i → i.wellFormed = true ∧ encode i = v

/-- The opcodes without a command are exactly those rule R87 lists, and a word with a legal opcode that is no
command's is rejected for its fields (rules R82–R84, R87). -/
def Obligations.RejectedWords : Prop :=
  ∀ v : Word,
    (decode v = .error .reservedOpcode ↔ reservedOpcode (v.toNat % 256) = true) ∧
    (decode v = .error .illegalField ↔
      reservedOpcode (v.toNat % 256) = false ∧ ∀ i : Instr, i.wellFormed = true → encode i ≠ v)

/-! ## Issue, and what a step does -/

/-- The issue of a word written to `CMD` while `BUSY` = 0 (rule R204): the opcode is checked first, then the
fields, then the length `DEC` needs; the first check that fails is recorded and sets `DONE`, and
nothing else changes; a word that passes all is accepted with its operands captured (rule R39; that the
capture is all memories and operand registers, whatever the command names, is the model's choice, log
entry 17). `CMD` holds the word either way (rule R28). -/
def Obligations.IssueProcedure : Prop :=
  ∀ (s : State) (v : Word), WritesNext 0x00C v s → s.busy = false →
    let s' : State := { s with arrivals := s.arrivals.tail, cmd := v, response := .written }
    let rejected (code : ErrCode) : State := { s' with done := true, error := some (s.error.getD code) }
    (reservedOpcode (v.toNat % 256) = true → step s = .next (rejected .opcode)) ∧
    (reservedOpcode (v.toNat % 256) = false → (∀ i : Instr, i.wellFormed = true → encode i ≠ v) →
      step s = .next (rejected .param)) ∧
    (∀ (d : SlotNo) (w : Nat), 1 ≤ w → w ≤ 12 → encode (.dec d w) = v → s.blen.toNat ≠ 32 * w →
      step s = .next (rejected .length)) ∧
    (∀ i : Instr, i.wellFormed = true → encode i = v →
      (∀ (d : SlotNo) (w : Nat), i = .dec d w → s.blen.toNat = 32 * w) →
      step s = .next
        { s' with
          done := false
          engine := .running v ⟨s.mem, s.arg, s.blen, s.faA, s.faB, s.faW⟩ .start })

/-- A write to `CMD` while `BUSY` = 1 stores the word and records `E_BUSY`; what is in flight stays as it is
(rule R203). -/
def Obligations.CmdWriteWhileBusy : Prop :=
  ∀ (s : State) (v : Word), WritesNext 0x00C v s → s.busy = true →
    step s = .next
      { s with
        arrivals := s.arrivals.tail
        cmd := v
        response := .written
        error := some (s.error.getD .busy) }

/-- On the block's turn, a step is the meaning of the command in flight, on the state in which the arrival
that gave the turn has been served (rules R205, R247); with nothing in flight the block holds its state
(rule R217). -/
def Obligations.StepRunsCommandInFlight : Prop :=
  (∀ (s : State) (v : Word) (ops : Operands) (smp : Sampling) (i : Instr),
    BlockNext s → s.engine = .running v ops smp → decode v = .ok i →
    step s = exec i { s with arrivals := s.arrivals.tail }) ∧
  (∀ s : State, BlockNext s → s.engine = .idle → step s = .next { s with arrivals := s.arrivals.tail })

/-- Where the model places a command word, the very next step runs that command, with the operands as they
stand (log entry 10). -/
def Obligations.PlacedWordRunsNext : Prop :=
  ∀ (s : State) (i : Instr), i.wellFormed = true →
    step (s.withFetchWord 32 (encode i).toNat) =
      exec i { s with cmd := encode i, done := false, engine := .running (encode i) (capture s) .start }

/-! ## Scalar commands -/

/-- `FADD` (rule R103). -/
def Obligations.FaddAddsModQ : Prop :=
  Encodes .fadd 0x01 ∧
  ∀ s : State, ∃ t : State, exec .fadd s = .next t ∧ Completed t ∧ SameControls s t ∧ SameMemory s t ∧
    t.blen = s.blen ∧
    let x := (operands s).faA.toNat
    let y := (operands s).faB.toNat
    (x < 3329 ∧ y < 3329 → t.result = BitVec.ofNat 32 ((x + y) % 3329) ∧ NoError s t ∧ t.draws = s.draws) ∧
    (¬(x < 3329 ∧ y < 3329) → t.result = Config.freeWord s.draws ∧ Raised .range s t ∧ s.draws < t.draws)

/-- `FSUB` (rule R104): the difference is taken in the integers and reduced to `[0, Q)`. -/
def Obligations.FsubSubtractsModQ : Prop :=
  Encodes .fsub 0x02 ∧
  ∀ s : State, ∃ t : State, exec .fsub s = .next t ∧ Completed t ∧ SameControls s t ∧ SameMemory s t ∧
    t.blen = s.blen ∧
    let x := (operands s).faA.toNat
    let y := (operands s).faB.toNat
    (x < 3329 ∧ y < 3329 →
      t.result = BitVec.ofNat 32 (intMod ((x : Int) - y)) ∧ NoError s t ∧ t.draws = s.draws) ∧
    (¬(x < 3329 ∧ y < 3329) → t.result = Config.freeWord s.draws ∧ Raised .range s t ∧ s.draws < t.draws)

/-- `FMUL` (rule R105). -/
def Obligations.FmulMultipliesModQ : Prop :=
  Encodes .fmul 0x03 ∧
  ∀ s : State, ∃ t : State, exec .fmul s = .next t ∧ Completed t ∧ SameControls s t ∧ SameMemory s t ∧
    t.blen = s.blen ∧
    let x := (operands s).faA.toNat
    let y := (operands s).faB.toNat
    (x < 3329 ∧ y < 3329 → t.result = BitVec.ofNat 32 ((x * y) % 3329) ∧ NoError s t ∧ t.draws = s.draws) ∧
    (¬(x < 3329 ∧ y < 3329) → t.result = Config.freeWord s.draws ∧ Raised .range s t ∧ s.draws < t.draws)

/-- `FRED` (rule R106): any value of `FA_A`, never an error. -/
def Obligations.FredReducesHalfword : Prop :=
  Encodes .fred 0x04 ∧
  ∀ s : State, ∃ t : State, exec .fred s = .next t ∧ Completed t ∧ SameControls s t ∧ SameMemory s t ∧
    t.blen = s.blen ∧ t.draws = s.draws ∧ NoError s t ∧
    t.result = BitVec.ofNat 32 ((operands s).faA.toNat % 3329)

/-- `FBRED` (rule R107): any value of `FA_W`, never an error. -/
def Obligations.FbredReducesWord : Prop :=
  Encodes .fbred 0x05 ∧
  ∀ s : State, ∃ t : State, exec .fbred s = .next t ∧ Completed t ∧ SameControls s t ∧ SameMemory s t ∧
    t.blen = s.blen ∧ t.draws = s.draws ∧ NoError s t ∧
    t.result = BitVec.ofNat 32 ((operands s).faW.toNat % 3329)

/-- `FMRED` (rule R108): `w * 2^-16 mod Q`, the number below `Q` that `2^16` times gives `w` again modulo
`Q`; and it is `w * 169 mod Q`. -/
def Obligations.FmredMontgomeryReduces : Prop :=
  Encodes .fmred 0x06 ∧
  ∀ s : State, ∃ t : State, exec .fmred s = .next t ∧ Completed t ∧ SameControls s t ∧ SameMemory s t ∧
    t.blen = s.blen ∧
    let x := (operands s).faW.toNat
    (x < 3329 * 2 ^ 16 →
      t.result = BitVec.ofNat 32 ((x * 169) % 3329) ∧ t.result.toNat < 3329 ∧
      (t.result.toNat * 2 ^ 16) % 3329 = x % 3329 ∧ NoError s t ∧ t.draws = s.draws) ∧
    (¬x < 3329 * 2 ^ 16 → t.result = Config.freeWord s.draws ∧ Raised .range s t ∧ s.draws < t.draws)

/-! ## Lane-by-lane commands -/

/-- `PADD` (rule R110). -/
def Obligations.PaddAddsLanes : Prop :=
  (∀ d a b : SlotNo, Encodes (.padd d a b) (0x10 + d.val * 2 ^ 8 + a.val * 2 ^ 12 + b.val * 2 ^ 16)) ∧
  ∀ (s : State) (d a b : SlotNo), ∃ t : State, exec (.padd d a b) s = .next t ∧ Completed t ∧
    SameControls s t ∧ SameOutside (slotBase d) 512 s t ∧ t.blen = s.blen ∧ t.result = 0#32 ∧
    let o := operands s
    (o.slotBelow a 3329 ∧ o.slotBelow b 3329 →
      (∀ i, i < 256 → t.lane d i = (o.lane a i + o.lane b i) % 3329) ∧ NoError s t ∧ t.draws = s.draws) ∧
    (¬(o.slotBelow a 3329 ∧ o.slotBelow b 3329) →
      (∀ i, i < 256 → t.mem.coeff d i = Config.freeCoeff s.draws i) ∧ Raised .range s t ∧
        s.draws < t.draws)

/-- `PSUB` (rule R111). -/
def Obligations.PsubSubtractsLanes : Prop :=
  (∀ d a b : SlotNo, Encodes (.psub d a b) (0x11 + d.val * 2 ^ 8 + a.val * 2 ^ 12 + b.val * 2 ^ 16)) ∧
  ∀ (s : State) (d a b : SlotNo), ∃ t : State, exec (.psub d a b) s = .next t ∧ Completed t ∧
    SameControls s t ∧ SameOutside (slotBase d) 512 s t ∧ t.blen = s.blen ∧ t.result = 0#32 ∧
    let o := operands s
    (o.slotBelow a 3329 ∧ o.slotBelow b 3329 →
      (∀ i, i < 256 → t.lane d i = intMod ((o.lane a i : Int) - o.lane b i)) ∧ NoError s t ∧
        t.draws = s.draws) ∧
    (¬(o.slotBelow a 3329 ∧ o.slotBelow b 3329) →
      (∀ i, i < 256 → t.mem.coeff d i = Config.freeCoeff s.draws i) ∧ Raised .range s t ∧
        s.draws < t.draws)

/-- `PRED` (rule R112): any 16-bit values, never an error. -/
def Obligations.PredReducesLanes : Prop :=
  (∀ d a : SlotNo, Encodes (.pred d a) (0x12 + d.val * 2 ^ 8 + a.val * 2 ^ 12)) ∧
  ∀ (s : State) (d a : SlotNo), ∃ t : State, exec (.pred d a) s = .next t ∧ Completed t ∧
    SameControls s t ∧ SameOutside (slotBase d) 512 s t ∧ t.blen = s.blen ∧ t.result = 0#32 ∧
    NoError s t ∧ t.draws = s.draws ∧
    ∀ i, i < 256 → t.lane d i = (operands s).lane a i % 3329

/-! ## NTT engine -/

/-- `NTT` computes the loops of rule R131, written out in `loopR131` with their in-place assignments, and its
output is canonical. -/
def Obligations.NttComputesTheLoops : Prop :=
  (∀ d : SlotNo, Encodes (.ntt d) (0x20 + d.val * 2 ^ 8)) ∧
  ∀ (s : State) (d : SlotNo), ∃ t : State, exec (.ntt d) s = .next t ∧ Completed t ∧
    SameControls s t ∧ SameOutside (slotBase d) 512 s t ∧ t.blen = s.blen ∧ t.result = 0#32 ∧
    let o := operands s
    (o.slotBelow d 3329 →
      (∀ i, i < 256 → t.lane d i = (loopR131 ((List.range 256).map (o.lane d))).at i) ∧
        t.slotBelow d 3329 ∧ NoError s t ∧ t.draws = s.draws) ∧
    (¬o.slotBelow d 3329 →
      (∀ i, i < 256 → t.mem.coeff d i = Config.freeCoeff s.draws i) ∧ Raised .range s t ∧
        s.draws < t.draws)

/-- `INTT` computes the loops of rule R132 and the scaling by `128^-1`, written out in `loopR132`. -/
def Obligations.InttComputesTheLoops : Prop :=
  (∀ d : SlotNo, Encodes (.intt d) (0x21 + d.val * 2 ^ 8)) ∧
  ∀ (s : State) (d : SlotNo), ∃ t : State, exec (.intt d) s = .next t ∧ Completed t ∧
    SameControls s t ∧ SameOutside (slotBase d) 512 s t ∧ t.blen = s.blen ∧ t.result = 0#32 ∧
    let o := operands s
    (o.slotBelow d 3329 →
      (∀ i, i < 256 → t.lane d i = (loopR132 ((List.range 256).map (o.lane d))).at i) ∧
        t.slotBelow d 3329 ∧ NoError s t ∧ t.draws = s.draws) ∧
    (¬o.slotBelow d 3329 →
      (∀ i, i < 256 → t.mem.coeff d i = Config.freeCoeff s.draws i) ∧ Raised .range s t ∧
        s.draws < t.draws)

/-- `BMUL` (rule R133): each pair is the product modulo `X^2 - GAMMA[i]`. -/
def Obligations.BmulMultipliesPairs : Prop :=
  (∀ d a b : SlotNo, Encodes (.bmul d a b) (0x22 + d.val * 2 ^ 8 + a.val * 2 ^ 12 + b.val * 2 ^ 16)) ∧
  ∀ (s : State) (d a b : SlotNo), ∃ t : State, exec (.bmul d a b) s = .next t ∧ Completed t ∧
    SameControls s t ∧ SameOutside (slotBase d) 512 s t ∧ t.blen = s.blen ∧ t.result = 0#32 ∧
    let o := operands s
    (o.slotBelow a 3329 ∧ o.slotBelow b 3329 →
      (∀ i, i < 128 →
        t.lane d (2 * i) =
          (o.lane a (2 * i) * o.lane b (2 * i) + o.lane a (2 * i + 1) * o.lane b (2 * i + 1) * gamma i)
            % 3329 ∧
        t.lane d (2 * i + 1) =
          (o.lane a (2 * i) * o.lane b (2 * i + 1) + o.lane a (2 * i + 1) * o.lane b (2 * i)) % 3329) ∧
      NoError s t ∧ t.draws = s.draws) ∧
    (¬(o.slotBelow a 3329 ∧ o.slotBelow b 3329) →
      (∀ i, i < 256 → t.mem.coeff d i = Config.freeCoeff s.draws i) ∧ Raised .range s t ∧
        s.draws < t.draws)

/-- `BMAC` (rule R134): the product of rule R133 added to the old content of the destination, all three read
before anything is written. -/
def Obligations.BmacAccumulatesPairs : Prop :=
  (∀ d a b : SlotNo, Encodes (.bmac d a b) (0x23 + d.val * 2 ^ 8 + a.val * 2 ^ 12 + b.val * 2 ^ 16)) ∧
  ∀ (s : State) (d a b : SlotNo), ∃ t : State, exec (.bmac d a b) s = .next t ∧ Completed t ∧
    SameControls s t ∧ SameOutside (slotBase d) 512 s t ∧ t.blen = s.blen ∧ t.result = 0#32 ∧
    let o := operands s
    (o.slotBelow a 3329 ∧ o.slotBelow b 3329 ∧ o.slotBelow d 3329 →
      (∀ i, i < 128 →
        t.lane d (2 * i) =
          (o.lane d (2 * i) +
            (o.lane a (2 * i) * o.lane b (2 * i) + o.lane a (2 * i + 1) * o.lane b (2 * i + 1) * gamma i))
            % 3329 ∧
        t.lane d (2 * i + 1) =
          (o.lane d (2 * i + 1) +
            (o.lane a (2 * i) * o.lane b (2 * i + 1) + o.lane a (2 * i + 1) * o.lane b (2 * i))) % 3329) ∧
      NoError s t ∧ t.draws = s.draws) ∧
    (¬(o.slotBelow a 3329 ∧ o.slotBelow b 3329 ∧ o.slotBelow d 3329) →
      (∀ i, i < 256 → t.mem.coeff d i = Config.freeCoeff s.draws i) ∧ Raised .range s t ∧
        s.draws < t.draws)

/-- The two tables of the twiddle ROM (rule R130). -/
def Obligations.RomHoldsPowersOfSeventeen : Prop :=
  (∀ i, i < 128 → zeta i = 17 ^ brv7 i % 3329 ∧ gamma i = 17 ^ (2 * brv7 i + 1) % 3329) ∧
  zeta 0 = 1 ∧ (∀ j, j < 64 → gamma (2 * j + 1) = 3329 - gamma (2 * j)) ∧
  17 ^ 128 % 3329 = 3328 ∧ 17 ^ 256 % 3329 = 1

/-- The transforms undo each other on canonical polynomials (rules R132, R135). The second command runs with
nothing in flight, so on the live operands (log entry 7). -/
def Obligations.TransformsUndoEachOther : Prop :=
  ∀ (s : State) (d : SlotNo), (operands s).slotBelow d 3329 →
    (∃ t u : State, exec (.ntt d) s = .next t ∧ exec (.intt d) t = .next u ∧
      (∀ i, i < 256 → u.lane d i = (operands s).lane d i) ∧ u.error = s.error) ∧
    (∃ t u : State, exec (.intt d) s = .next t ∧ exec (.ntt d) t = .next u ∧
      (∀ i, i < 256 → u.lane d i = (operands s).lane d i) ∧ u.error = s.error)

/-- `NTT(f)` lists the residues of `f` modulo `X^2 - GAMMA[i]`: the even coefficients and the odd ones, each
evaluated at `GAMMA[i]` (rule R135). -/
def Obligations.NttListsResidues : Prop :=
  ∀ (s : State) (d : SlotNo), (operands s).slotBelow d 3329 →
    ∃ t : State, exec (.ntt d) s = .next t ∧
      ∀ i, i < 128 →
        t.lane d (2 * i) =
          ((List.range 128).map fun j => (operands s).lane d (2 * j) * gamma i ^ j).sum % 3329 ∧
        t.lane d (2 * i + 1) =
          ((List.range 128).map fun j => (operands s).lane d (2 * j + 1) * gamma i ^ j).sum % 3329

/-- `INTT(BMUL(NTT(a), NTT(b)))` is the product of `a` and `b` in `Zq[X]/(X^256 + 1)` (rule R135), for two
slots and for one slot multiplied with itself. The commands run one after the other with nothing in
flight, so each on the live operands (log entry 7). -/
def Obligations.ProductThroughTheNttDomain : Prop :=
  (∀ (s : State) (a b d : SlotNo), s.engine = .idle → a ≠ b → s.slotBelow a 3329 → s.slotBelow b 3329 →
    ∃ t₁ t₂ t₃ t₄ : State,
      exec (.ntt a) s = .next t₁ ∧ exec (.ntt b) t₁ = .next t₂ ∧
      exec (.bmul d a b) t₂ = .next t₃ ∧ exec (.intt d) t₃ = .next t₄ ∧
      ∀ k, k < 256 →
        t₄.lane d k =
          intMod (((List.range 256).map fun i =>
            (s.lane a i : Int) *
              (if i ≤ k then (s.lane b (k - i) : Int) else -(s.lane b (256 + k - i) : Int))).sum)) ∧
  ∀ (s : State) (a d : SlotNo), s.engine = .idle → s.slotBelow a 3329 →
    ∃ t₁ t₂ t₃ : State,
      exec (.ntt a) s = .next t₁ ∧ exec (.bmul d a a) t₁ = .next t₂ ∧ exec (.intt d) t₂ = .next t₃ ∧
      ∀ k, k < 256 →
        t₃.lane d k =
          intMod (((List.range 256).map fun i =>
            (s.lane a i : Int) *
              (if i ≤ k then (s.lane a (k - i) : Int) else -(s.lane a (256 + k - i) : Int))).sum)

/-! ## Sampler -/

/-- `SUNI` (rules R152, R153, R206), from a point where the first `k` groups have been read, `k = 0` being
a command just accepted. Three ends, none left out: 256 values are accepted with group `n`, the slot
holding the first 256 candidates below `Q` and `RESULT` the `3n` bytes read; the budget is not 0 and
would be passed, with an error and free values; or neither within the groups one step takes, the
command then staying in flight (log entry 5). -/
def Obligations.SuniSamplesByRejection : Prop :=
  (∀ d : SlotNo, Encodes (.suni d) (0x30 + d.val * 2 ^ 8)) ∧
  ∀ (s : State) (d : SlotNo) (k : Nat),
    let o := operands s
    let x := Config.xof ((List.range 32).map (fun b => o.mem.read (0x40 + b)) ++ [o.argX, o.argY])
    let lim := Config.xofLimitBytes
    let last := k + Config.suniGroupsPerStep
    samplingOf s = ⟨3 * k, acceptable x k⟩ → (acceptable x k).length < 256 →
    ∃ t : State, exec (.suni d) s = .next t ∧ SameControls s t ∧ SameOutside (slotBase d) 512 s t ∧
      t.blen = s.blen ∧
      ((∃ n, k < n ∧ n ≤ last ∧ (lim = 0 ∨ 3 * n ≤ lim) ∧
          (acceptable x (n - 1)).length < 256 ∧ 256 ≤ (acceptable x n).length ∧
          Completed t ∧ NoError s t ∧
          (∀ i, i < 256 → t.lane d i = (acceptable x n).getD i 0) ∧
          (3 * n < 2 ^ 32 → t.result = BitVec.ofNat 32 (3 * n))) ∨
       (∃ n, k ≤ n ∧ n < last ∧ lim ≠ 0 ∧ lim < 3 * n + 3 ∧ (n = k ∨ 3 * n ≤ lim) ∧
          (acceptable x n).length < 256 ∧
          Completed t ∧ Raised .xofLimit s t ∧
          (∀ i, i < 256 → t.mem.coeff d i = Config.freeCoeff s.draws i) ∧
          t.result = Config.freeWord (s.draws + 1)) ∨
       ((lim = 0 ∨ 3 * last ≤ lim) ∧ (acceptable x last).length < 256 ∧
          t = { s with engine := .running (encode (.suni d)) o ⟨3 * last, acceptable x last⟩ }))

/-- The rejection loop, on any stream and under any budget (rules R152, R154, R246): when it ends by acceptance
it has accepted exactly 256 canonical values and read a multiple of 3 bytes, at least 384, and within the
budget if there is one; with a budget above 0 it always ends; without one it ends by acceptance exactly
under the named assumption `SuniTermination`. -/
def Obligations.RejectionLoopCountsAndEnds : Prop :=
  (∀ (x : Nat → Byte) (lim n : Nat) (smp : Sampling),
    rejectionLoop x lim n .start = .accepted smp →
    smp.accepted.length = 256 ∧ (∀ c ∈ smp.accepted, c < 3329) ∧ smp.pos % 3 = 0 ∧ 384 ≤ smp.pos ∧
      (lim = 0 ∨ smp.pos ≤ lim)) ∧
  (∀ (x : Nat → Byte) (lim n : Nat), 0 < lim → lim / 3 < n →
    rejectionLoop x lim n .start = .limit ∨ ∃ smp, rejectionLoop x lim n .start = .accepted smp) ∧
  ∀ o : Operands, SuniTermination o ↔
    ∃ n smp, rejectionLoop (Config.xof (suniInput o)) 0 n .start = .accepted smp

/-- `SCBD` (rules R156, R157): `64 * eta` bytes of the PRF, read as bits least significant first; coefficient
`i` is the difference of two sums of `eta` bits, and so lies in `[-eta, eta]`. Other values of the
field are no command. -/
def Obligations.ScbdSamplesBinomially : Prop :=
  (∀ (d : SlotNo) (p : Nat), p < 16 →
    (p = 2 ∨ p = 3 → Encodes (.scbd d p) (0x31 + d.val * 2 ^ 8 + p * 2 ^ 20)) ∧
    (¬(p = 2 ∨ p = 3) →
      RejectedWithParam (0x31 + d.val * 2 ^ 8 + p * 2 ^ 20))) ∧
  ∀ (s : State) (d : SlotNo) (eta : Nat), eta = 2 ∨ eta = 3 →
    ∃ t : State, exec (.scbd d eta) s = .next t ∧ Completed t ∧ SameControls s t ∧
      SameOutside (slotBase d) 512 s t ∧ t.blen = s.blen ∧ t.result = 0#32 ∧ NoError s t ∧
      t.draws = s.draws ∧
      let o := operands s
      let r := Config.prf ((List.range 32).map (fun b => o.mem.read (0x40 + b)) ++ [o.argX]) (64 * eta)
      let bit (k : Nat) : Nat := ((r (k / 8)).toNat >>> (k % 8)) % 2
      ∀ i, i < 256 →
        t.lane d i =
          intMod ((((List.range eta).map fun m => bit (2 * i * eta + m)).sum : Int)
            - ((List.range eta).map fun m => bit (2 * i * eta + eta + m)).sum) ∧
        (t.lane d i ≤ eta ∨ (3329 - eta ≤ t.lane d i ∧ t.lane d i ≤ 3328))

/-! ## Codec -/

/-- The closed forms are the rounded quotients (rules R13, R170, R171). `Compress_w(x)` is `round(2^w * x / Q) mod
2^w` and no tie arises. `Decompress_w(y)` is `round(Q * y / 2^w)`, halves up; a tie arises exactly at `2^(w-1)`,
which gives 1665; the result is canonical. -/
def Obligations.ClosedFormsRound : Prop :=
  (∀ w x : Nat, 1 ≤ w → w ≤ 11 → x < 3329 →
    (compress w x : Int) = ⌊(2 ^ w * x : ℚ) / 3329 + 1 / 2⌋ % 2 ^ w ∧
    (compress w x = ((x <<< (w + 1)) + 3329) / (2 * 3329) % 2 ^ w) ∧
    ∀ k : Int, (2 ^ w * x : ℚ) / 3329 ≠ k + 1 / 2) ∧
  (∀ w y : Nat, 1 ≤ w → w ≤ 11 → y < 2 ^ w →
    (decompress w y : Int) = ⌊(3329 * y : ℚ) / 2 ^ w + 1 / 2⌋ ∧
    (decompress w y = (3329 * y + 2 ^ (w - 1)) >>> w) ∧
    ((∃ k : Int, (3329 * y : ℚ) / 2 ^ w = k + 1 / 2) ↔ y = 2 ^ (w - 1)) ∧
    (y = 2 ^ (w - 1) → decompress w y = 1665) ∧
    decompress w y < 3329)

/-- Compressing and decompressing moves a value by at most `B_w`, as a distance modulo `Q` in the shorter
direction; `B_w` is `round(Q / 2^(w+1))`, and each bound is reached (rule R173). -/
def Obligations.QuantisationBound : Prop :=
  ∀ w : Nat, 1 ≤ w → w ≤ 11 →
    let bound : Nat := [832, 416, 208, 104, 52, 26, 13, 7, 3, 2, 1].getD (w - 1) 0
    let moved (x : Nat) : Nat :=
      let y := decompress w (compress w x)
      min ((x + 3329 - y) % 3329) ((y + 3329 - x) % 3329)
    (bound : Int) = ⌊(3329 : ℚ) / 2 ^ (w + 1) + 1 / 2⌋ ∧
    (∀ x, x < 3329 → moved x ≤ bound) ∧ ∃ x, x < 3329 ∧ moved x = bound

/-- `CMPR` (rules R170, R172). -/
def Obligations.CmprCompressesLanes : Prop :=
  (∀ (d a : SlotNo) (p : Nat), p < 16 →
    (1 ≤ p ∧ p ≤ 11 → Encodes (.cmpr d a p) (0x40 + d.val * 2 ^ 8 + a.val * 2 ^ 12 + p * 2 ^ 20)) ∧
    (¬(1 ≤ p ∧ p ≤ 11) →
      RejectedWithParam (0x40 + d.val * 2 ^ 8 + a.val * 2 ^ 12 + p * 2 ^ 20))) ∧
  ∀ (s : State) (d a : SlotNo) (w : Nat), 1 ≤ w → w ≤ 11 →
    ∃ t : State, exec (.cmpr d a w) s = .next t ∧ Completed t ∧ SameControls s t ∧
      SameOutside (slotBase d) 512 s t ∧ t.blen = s.blen ∧ t.result = 0#32 ∧
      let o := operands s
      (o.slotBelow a 3329 →
        (∀ i, i < 256 →
          t.lane d i = (o.lane a i * 2 ^ (w + 1) + 3329) / 6658 % 2 ^ w ∧ t.lane d i < 2 ^ w) ∧
        NoError s t ∧ t.draws = s.draws) ∧
      (¬o.slotBelow a 3329 →
        (∀ i, i < 256 → t.mem.coeff d i = Config.freeCoeff s.draws i) ∧ Raised .range s t ∧
          s.draws < t.draws)

/-- `DCMP` (rules R171, R174). -/
def Obligations.DcmpDecompressesLanes : Prop :=
  (∀ (d a : SlotNo) (p : Nat), p < 16 →
    (1 ≤ p ∧ p ≤ 11 → Encodes (.dcmp d a p) (0x41 + d.val * 2 ^ 8 + a.val * 2 ^ 12 + p * 2 ^ 20)) ∧
    (¬(1 ≤ p ∧ p ≤ 11) →
      RejectedWithParam (0x41 + d.val * 2 ^ 8 + a.val * 2 ^ 12 + p * 2 ^ 20))) ∧
  ∀ (s : State) (d a : SlotNo) (w : Nat), 1 ≤ w → w ≤ 11 →
    ∃ t : State, exec (.dcmp d a w) s = .next t ∧ Completed t ∧ SameControls s t ∧
      SameOutside (slotBase d) 512 s t ∧ t.blen = s.blen ∧ t.result = 0#32 ∧
      let o := operands s
      (o.slotBelow a (2 ^ w) →
        (∀ i, i < 256 →
          t.lane d i = (3329 * o.lane a i + 2 ^ (w - 1)) / 2 ^ w ∧ t.lane d i < 3329) ∧
        NoError s t ∧ t.draws = s.draws) ∧
      (¬o.slotBelow a (2 ^ w) →
        (∀ i, i < 256 → t.mem.coeff d i = Config.freeCoeff s.draws i) ∧ Raised .range s t ∧
          s.draws < t.draws)

/-- `ENC` (rules R176, R177): `BBUF[0 .. 32w - 1]` and `BLEN` are written, `BLEN` also on a range error; the
rest of `BBUF` and every slot keep their contents. -/
def Obligations.EncPacksTheBuffer : Prop :=
  (∀ (a : SlotNo) (p : Nat), p < 16 →
    (1 ≤ p ∧ p ≤ 12 → Encodes (.enc a p) (0x42 + a.val * 2 ^ 12 + p * 2 ^ 20)) ∧
    (¬(1 ≤ p ∧ p ≤ 12) →
      RejectedWithParam (0x42 + a.val * 2 ^ 12 + p * 2 ^ 20))) ∧
  ∀ (s : State) (a : SlotNo) (w : Nat), 1 ≤ w → w ≤ 12 →
    ∃ t : State, exec (.enc a w) s = .next t ∧ Completed t ∧ SameControls s t ∧
      SameOutside 0x400 (32 * w) s t ∧ t.blen = BitVec.ofNat 16 (32 * w) ∧ t.result = 0#32 ∧
      let o := operands s
      let lim := if w = 12 then 3329 else 2 ^ w
      (o.slotBelow a lim →
        (∀ k, k < 32 * w →
          (t.bufferByte k).toNat =
            ((List.range 8).map fun m => (o.lane a ((8 * k + m) / w) >>> ((8 * k + m) % w)) % 2 * 2 ^ m).sum) ∧
        NoError s t ∧ t.draws = s.draws) ∧
      (¬o.slotBelow a lim →
        (∀ k, k < 32 * w → t.bufferByte k = Config.freeByte s.draws k) ∧ Raised .range s t ∧
          s.draws < t.draws)

/-- `DEC` (rules R176, R178, R179): the values of the packed string; at 12 bits reduced modulo `Q`, with the
number of values that were not canonical in `RESULT`. No error arises at completion; the length is
checked at issue (rule R204). -/
def Obligations.DecUnpacksTheBuffer : Prop :=
  (∀ (d : SlotNo) (p : Nat), p < 16 →
    (1 ≤ p ∧ p ≤ 12 → Encodes (.dec d p) (0x43 + d.val * 2 ^ 8 + p * 2 ^ 20)) ∧
    (¬(1 ≤ p ∧ p ≤ 12) →
      RejectedWithParam (0x43 + d.val * 2 ^ 8 + p * 2 ^ 20))) ∧
  (∀ (s : State) (d : SlotNo) (w : Nat), 1 ≤ w → w ≤ 12 → WritesNext 0x00C (encode (.dec d w)) s →
    s.busy = false → s.blen.toNat ≠ 32 * w →
    ∃ t : State, step s = .next t ∧ Raised .length s t ∧ t.busy = false ∧ t.done = true ∧ SameMemory s t ∧
      t.result = s.result) ∧
  ∀ (s : State) (d : SlotNo) (w : Nat), 1 ≤ w → w ≤ 12 →
    ∃ t : State, exec (.dec d w) s = .next t ∧ Completed t ∧ SameControls s t ∧
      SameOutside (slotBase d) 512 s t ∧ t.blen = s.blen ∧ NoError s t ∧ t.draws = s.draws ∧
      let o := operands s
      let bit (k : Nat) : Nat := ((o.mem.read (0x400 + k / 8)).toNat >>> (k % 8)) % 2
      let value (i : Nat) : Nat := ((List.range w).map fun j => bit (i * w + j) * 2 ^ j).sum
      (w = 12 →
        t.result = BitVec.ofNat 32 ((List.range 256).countP fun i => decide (3329 ≤ value i)) ∧
        ∀ i, i < 256 → t.lane d i = value i % 3329) ∧
      (w < 12 → t.result = 0#32 ∧ ∀ i, i < 256 → t.lane d i = value i)

/-- `ENC` then `DEC` with the same width returns every slot `ENC` accepts, and the length `ENC` leaves in
`BLEN` is the one `DEC` needs (rules R177, R178). `DEC` runs with nothing in flight, so on the live operands
(log entry 7). -/
def Obligations.DecUndoesEnc : Prop :=
  ∀ (s : State) (a d : SlotNo) (w : Nat), 1 ≤ w → w ≤ 12 →
    (operands s).slotBelow a (if w = 12 then 3329 else 2 ^ w) →
    ∃ t u : State, exec (.enc a w) s = .next t ∧ t.blen.toNat = 32 * w ∧ exec (.dec d w) t = .next u ∧
      u.result = 0#32 ∧ ∀ i, i < 256 → u.lane d i = (operands s).lane a i

/-! ## Control commands -/

/-- `NOP` (rule R190): `RESULT` is 0 and nothing else changes but the end of the command, `DONE` being cleared at
acceptance; every other word with its opcode is rejected with `E_PARAM`. -/
def Obligations.NopLeavesEverything : Prop :=
  Encodes .nop 0x00 ∧
  (∀ v : Nat, v < 2 ^ 32 → v % 256 = 0 → v ≠ 0 → RejectedWithParam v) ∧
  (∀ s : State, WritesNext 0x00C 0#32 s → s.busy = false →
    ∃ t : State, step s = .next t ∧ t.busy = true ∧ t.done = false) ∧
  ∀ s : State, exec .nop s = .next { s with result := 0#32, done := true, engine := .idle }

/-- `PZERO` (rule R191). -/
def Obligations.PzeroClearsOneSlot : Prop :=
  (∀ d : SlotNo, Encodes (.pzero d) (0x50 + d.val * 2 ^ 8)) ∧
  ∀ (s : State) (d : SlotNo), ∃ t : State, exec (.pzero d) s = .next t ∧ Completed t ∧
    SameControls s t ∧ SameOutside (slotBase d) 512 s t ∧ t.blen = s.blen ∧ t.result = 0#32 ∧
    NoError s t ∧ t.draws = s.draws ∧ ∀ i, i < 256 → t.lane d i = 0

/-- `PCOPY` (rule R192): raw 16-bit values. -/
def Obligations.PcopyCopiesRawValues : Prop :=
  (∀ d a : SlotNo, Encodes (.pcopy d a) (0x51 + d.val * 2 ^ 8 + a.val * 2 ^ 12)) ∧
  ∀ (s : State) (d a : SlotNo), ∃ t : State, exec (.pcopy d a) s = .next t ∧ Completed t ∧
    SameControls s t ∧ SameOutside (slotBase d) 512 s t ∧ t.blen = s.blen ∧ t.result = 0#32 ∧
    NoError s t ∧ t.draws = s.draws ∧
    ∀ i, i < 256 → t.mem.coeff d i = (operands s).mem.coeff a i

/-- `WIPE` (rule R193): every memory byte, the operand registers and `RESULT` are 0; `CTRL`, `CMD` and the
error held are not changed; no captured operand remains. -/
def Obligations.WipeClearsEveryMemory : Prop :=
  Encodes .wipe 0x5F ∧
  ∀ s : State, ∃ t : State, exec .wipe s = .next t ∧ Completed t ∧
    (∀ (p : SlotNo) (i : Nat), i < 256 → t.lane p i = 0) ∧
    (∀ k, k < 32 → t.seedByte k = 0#8) ∧ (∀ k, k < 384 → t.bufferByte k = 0#8) ∧
    t.arg = 0#16 ∧ t.blen = 0#16 ∧ t.faA = 0#16 ∧ t.faB = 0#16 ∧ t.faW = 0#32 ∧ t.result = 0#32 ∧
    t.ieDone = s.ieDone ∧ t.ieErr = s.ieErr ∧ t.cmd = s.cmd ∧ NoError s t ∧ t.draws = s.draws ∧
    t.arrivals = s.arrivals ∧ t.response = s.response

/-! ## Host accesses -/

/-- Which accesses get the bus error, and that every other access is served (rules R62, R63). -/
def Obligations.BusErrors : Prop :=
  (∀ (s : State) (x n : Nat) (rest : List Arrival), s.arrivals = .access (.read x n) :: rest →
    ((∃ f, step s = .fault f) ↔ n ≠ 4 ∨ x % 4 ≠ 0 ∨ unlistedOffset x = true) ∧
    (¬(n ≠ 4 ∨ x % 4 ≠ 0 ∨ unlistedOffset x = true) → ∃ t, step s = .next t)) ∧
  (∀ (s : State) (x n : Nat) (v : Word) (rest : List Arrival),
    s.arrivals = .access (.write x n v) :: rest →
    ((∃ f, step s = .fault f) ↔
      n ≠ 4 ∨ x % 4 ≠ 0 ∨ unlistedOffset x = true ∨ readOnlyOffset x = true) ∧
    (¬(n ≠ 4 ∨ x % 4 ≠ 0 ∨ unlistedOffset x = true ∨ readOnlyOffset x = true) → ∃ t, step s = .next t))

/-- What reads the same at any time, busy or not (rules R25, R26, R28, R29, R32, R35, R66, R130): the read
answers with the value and changes nothing. -/
def Obligations.RegistersReadAtAnyTime : Prop :=
  ∀ s : State,
    let reads (x : Nat) (v : Word) : Prop :=
      ReadsNext x s → step s = .next { s with arrivals := s.arrivals.tail, response := .data v }
    reads 0x000 0x4D4C0701#32 ∧
    reads 0x004 (BitVec.ofNat 32 (s.ieDone.toNat + 2 * s.ieErr.toNat)) ∧
    reads 0x008 s.status ∧
    reads 0x00C s.cmd ∧
    reads 0x010 (BitVec.ofNat 32 s.arg.toNat) ∧
    reads 0x020 (BitVec.ofNat 32 s.faA.toNat) ∧
    reads 0x024 (BitVec.ofNat 32 s.faB.toNat) ∧
    reads 0x028 s.faW ∧
    (∀ i, i < 128 → reads (0x800 + 4 * i) (BitVec.ofNat 32 (17 ^ brv7 i % 3329))) ∧
    (∀ i, i < 128 → reads (0xA00 + 4 * i) (BitVec.ofNat 32 (17 ^ (2 * brv7 i + 1) % 3329)))

/-- `STATUS` bit by bit (rule R27): `BUSY`, `DONE`, `ERR`, the error code in bits 11:8, 0 elsewhere; the code is 0
when `ERR` is 0 and rule R200's number otherwise. The interrupt line (rules R43, R208). -/
def Obligations.StatusBitsAndInterruptLine : Prop :=
  ∀ s : State,
    s.status.getLsbD 0 = s.busy ∧ s.status.getLsbD 1 = s.done ∧ s.status.getLsbD 2 = s.error.isSome ∧
    s.status.extractLsb' 3 5 = 0#5 ∧ s.status.extractLsb' 12 20 = 0#20 ∧
    ((s.status.extractLsb' 8 4).toNat =
      match s.error with
      | none => 0
      | some .busy => 1
      | some .opcode => 2
      | some .param => 3
      | some .range => 4
      | some .length => 5
      | some .xofLimit => 6
      | some .access => 7) ∧
    (s.irq = true ↔
      (s.ieDone = true ∧ s.status.getLsbD 1 = true) ∨ (s.ieErr = true ∧ s.status.getLsbD 2 = true))

/-- Writes to `STATUS` and `CTRL`, busy or not (rules R26, R27, R66, R210). `STATUS`: a 1 in bit 1 clears `DONE`, a
1 in bit 2 clears `ERR` and `ERRCODE`, nothing else changes, and after a 1 in both the interrupt line is
low. `CTRL` with bit 31 = 0: the two enables are bits 0 and 1, nothing else changes. -/
def Obligations.StatusAndCtrlWrites : Prop :=
  ∀ (s : State) (v : Word),
    (WritesNext 0x008 v s →
      ∃ t : State, step s = .next t ∧
        t = { s with
          arrivals := s.arrivals.tail
          response := .written
          done := if v.getLsbD 1 then false else s.done
          error := if v.getLsbD 2 then none else s.error } ∧
        (v.getLsbD 1 = true → v.getLsbD 2 = true → t.irq = false)) ∧
    (WritesNext 0x004 v s → v.getLsbD 31 = false →
      step s = .next
        { s with
          arrivals := s.arrivals.tail
          response := .written
          ieDone := v.getLsbD 0
          ieErr := v.getLsbD 1 })

/-- The host's view of a slot while the block is idle (rules R23, R60): a write sets two coefficients and
nothing else, a read returns them. -/
def Obligations.SlotWordView : Prop :=
  ∀ (s : State) (p : SlotNo) (w : Nat), w < 128 → s.busy = false →
    (∀ v : Word, WritesNext (0x2000 + 0x200 * p.val + 4 * w) v s →
      ∃ t : State, step s = .next t ∧
        t.mem.coeff p (2 * w) = v.extractLsb' 0 16 ∧ t.mem.coeff p (2 * w + 1) = v.extractLsb' 16 16 ∧
        SameOutside (0x2000 + 0x200 * p.val + 4 * w) 4 s t ∧
        t = { s with arrivals := s.arrivals.tail, response := .written, mem := t.mem }) ∧
    (ReadsNext (0x2000 + 0x200 * p.val + 4 * w) s →
      step s = .next
        { s with
          arrivals := s.arrivals.tail
          response := .data (s.mem.coeff p (2 * w + 1) ++ s.mem.coeff p (2 * w)) })

/-- The host's view of `SEED` and `BBUF` while the block is idle (rules R33, R34, R60): byte `4m + b` is bits
`[8b+7 : 8b]` of word `m`. -/
def Obligations.ByteWordViews : Prop :=
  ∀ (s : State) (x : Nat), x % 4 = 0 → (0x40 ≤ x ∧ x < 0x60) ∨ (0x400 ≤ x ∧ x < 0x580) →
    s.busy = false →
    (∀ v : Word, WritesNext x v s →
      ∃ t : State, step s = .next t ∧ (∀ b, b < 4 → t.mem.read (x + b) = v.extractLsb' (8 * b) 8) ∧
        SameOutside x 4 s t ∧
        t = { s with arrivals := s.arrivals.tail, response := .written, mem := t.mem }) ∧
    (ReadsNext x s →
      ∃ v : Word, (∀ b, b < 4 → v.extractLsb' (8 * b) 8 = s.mem.read (x + b)) ∧
        step s = .next { s with arrivals := s.arrivals.tail, response := .data v })

/-- Writes to the operand registers while the block is idle, and reads of `BLEN` and `RESULT` (rules R29–R32):
bits 31:16 of `ARG`, `BLEN`, `FA_A` and `FA_B` are ignored on a write and read 0. -/
def Obligations.OperandRegisterAccess : Prop :=
  ∀ (s : State) (v : Word), s.busy = false →
    let s' : State := { s with arrivals := s.arrivals.tail, response := .written }
    (WritesNext 0x010 v s → step s = .next { s' with arg := v.extractLsb' 0 16 }) ∧
    (WritesNext 0x014 v s → step s = .next { s' with blen := v.extractLsb' 0 16 }) ∧
    (WritesNext 0x020 v s → step s = .next { s' with faA := v.extractLsb' 0 16 }) ∧
    (WritesNext 0x024 v s → step s = .next { s' with faB := v.extractLsb' 0 16 }) ∧
    (WritesNext 0x028 v s → step s = .next { s' with faW := v }) ∧
    (ReadsNext 0x014 s → step s = .next { s' with response := .data (BitVec.ofNat 32 s.blen.toNat) }) ∧
    (ReadsNext 0x018 s → step s = .next { s' with response := .data s.result })

/-- Host accesses to the operands while `BUSY` = 1 (rule R66): a read of `RESULT`, `BLEN`, a `BBUF` word or a slot
word is a free value, a fresh draw; a read of a `SEED` word is its current value, also during the reset wipe
(log entry 9); a write to an operand is dropped and records
`E_ACCESS`. -/
def Obligations.BusyAccesses : Prop :=
  ∀ (s : State) (x : Nat), s.busy = true → x % 4 = 0 →
    (x = 0x014 ∨ x = 0x018 ∨ (0x400 ≤ x ∧ x < 0x580) ∨ (0x2000 ≤ x ∧ x < 0x4000) → ReadsNext x s →
      step s = .next
        { s with
          arrivals := s.arrivals.tail
          response := .data (Config.freeWord s.draws)
          draws := s.draws + 1 }) ∧
    (0x40 ≤ x ∧ x < 0x60 → ReadsNext x s →
      step s = .next { s with arrivals := s.arrivals.tail, response := .data (s.mem.word x) }) ∧
    (∀ v : Word,
      x = 0x010 ∨ x = 0x014 ∨ x = 0x020 ∨ x = 0x024 ∨ x = 0x028 ∨ (0x40 ≤ x ∧ x < 0x60) ∨
        (0x400 ≤ x ∧ x < 0x580) ∨ (0x2000 ≤ x ∧ x < 0x4000) →
      WritesNext x v s →
      step s = .next
        { s with
          arrivals := s.arrivals.tail
          response := .written
          error := some (s.error.getD .access) })

/-- No read has a side effect (rule R65): it changes nothing but the answer (and the model's own count of free
values). -/
def Obligations.ReadsHaveNoSideEffect : Prop :=
  ∀ (s t : State) (x : Nat), ReadsNext x s → step s = .next t →
    t = { s with arrivals := s.arrivals.tail, response := t.response, draws := t.draws }

/-! ## Reset -/

/-- A pulse on the reset input, and power-up (rule R230): every register at its reset value, a command in flight
abandoned with none of its effects, `BUSY` = 1 with the wipe to run, the interrupt line low. No secret is readable
from then on (rule R194): every `SEED` byte is 0 at once, and in every state of the invariant a `SEED` read during
the wipe answers 0 (that this is so before the wipe ends is the model's reading, log entries 9 and 11); a read of
`BBUF` or a slot is a free value until the wipe ends (`BusyAccesses`). That the bytes of `BBUF` and the slots are as
before right after the pulse is the model's choice (log entry 11). -/
def Obligations.HardwareReset : Prop :=
  (∀ (s : State) (rest : List Arrival), s.arrivals = .resetPulse :: rest →
    ∃ t : State, step s = .next t ∧ t.engine = .wiping ∧ t.status = 0x00000001#32 ∧ t.ctrl = 0#32 ∧
      t.cmd = 0#32 ∧ t.arg = 0#16 ∧ t.blen = 0#16 ∧ t.result = 0#32 ∧ t.faA = 0#16 ∧ t.faB = 0#16 ∧
      t.faW = 0#32 ∧ t.irq = false ∧ (∀ k, k < 32 → t.seedByte k = 0#8) ∧ SameOutside 0x40 32 s t ∧
      t.arrivals = rest ∧ t.draws = s.draws ∧ t.response = s.response) ∧
  (∀ (s : State) (x : Nat), s.inv = true → s.engine = .wiping → x % 4 = 0 → 0x40 ≤ x → x < 0x60 →
    ReadsNext x s →
    step s = .next { s with arrivals := s.arrivals.tail, response := .data 0#32 }) ∧
  State.reset.engine = .wiping ∧ State.reset.status = 0x00000001#32 ∧ State.reset.ctrl = 0#32 ∧
    State.reset.cmd = 0#32 ∧ State.reset.arg = 0#16 ∧ State.reset.blen = 0#16 ∧
    State.reset.result = 0#32 ∧ State.reset.faA = 0#16 ∧ State.reset.faB = 0#16 ∧
    State.reset.faW = 0#32 ∧ State.reset.irq = false

/-- A write to `CTRL` with bit 31 = 1 has the effect of a pulse on the reset input, at any time; the rest of the
word is ignored (rule R231). -/
def Obligations.SoftReset : Prop :=
  ∀ (s : State) (v : Word) (rest : List Arrival), s.arrivals = .access (.write 0x004 4 v) :: rest →
    v.getLsbD 31 = true →
    ∃ t : State, step { s with arrivals := .resetPulse :: rest } = .next t ∧
      step s = .next { t with response := .written }

/-- The end of the reset wipe (rules R45, R232, R233): every memory byte is 0 and `BUSY` falls. That nothing else
changes, so that `CTRL`, `CMD` and an error written during the wipe stay, is the model's reading where rules R45
and R66 differ (log entry 12). From the state after reset, where nothing arrives (log entry 15), one step
leaves the block idle with every register 0. -/
def Obligations.WipeEnds : Prop :=
  (∀ s : State, BlockNext s → s.engine = .wiping →
    ∃ t : State, step s = .next t ∧ t.busy = false ∧
      (∀ (p : SlotNo) (i : Nat), i < 256 → t.lane p i = 0) ∧
      (∀ k, k < 32 → t.seedByte k = 0#8) ∧ (∀ k, k < 384 → t.bufferByte k = 0#8) ∧
      t = { s with arrivals := s.arrivals.tail, mem := t.mem, engine := .idle }) ∧
  ∃ t : State, step State.reset = .next t ∧ t.status = 0#32 ∧ t.ctrl = 0#32 ∧ t.cmd = 0#32 ∧
    t.arg = 0#16 ∧ t.blen = 0#16 ∧ t.result = 0#32 ∧ t.faA = 0#16 ∧ t.faB = 0#16 ∧ t.faW = 0#32 ∧
    t.irq = false ∧ t.engine = .idle

/-! ## Rules of the whole machine -/

/-- The invariant holds after reset (that `SEED` is 0 before the power-up wipe ends is the model's choice, log
entry 20). -/
def Obligations.InvariantAtReset : Prop := State.reset.inv = true

/-- Every step keeps the invariant: the memories canonical and inside the map (rule R20), the command in flight an
accepted one on operands equal to the live ones (rules R39, R66, R204), never `DONE` with `BUSY`
(rules R27, R243); and every `SEED` byte 0 during the reset wipe, so that a reset never leaves a secret readable
(rules R66, R194; how the model reads them is log entry 11). -/
def Obligations.StepKeepsInvariant : Prop :=
  ∀ s t : State, s.inv = true → step s = .next t → t.inv = true

/-- The first error is kept (rule R202): raising one records its code if none is held and changes nothing
otherwise, and whatever a step does, an error held stays unless the host writes a 1 to bit 2 of
`STATUS`, or a hardware or a soft reset comes. That an error recorded during the reset wipe stays when the wipe
ends is the model's reading (log entry 12). -/
def Obligations.FirstErrorIsKept : Prop :=
  (∀ (s : State) (code : ErrCode),
    (s.error = none → raiseError code s = { s with error := some code }) ∧
    (∀ c, s.error = some c → raiseError code s = s)) ∧
  ∀ (s t : State) (c : ErrCode), s.error = some c → step s = .next t →
    t.error = some c ∨
    (t.error = none ∧
      ((∃ v, WritesNext 0x008 v s ∧ v.getLsbD 2 = true) ∨ (∃ v, WritesNext 0x004 v s ∧ v.getLsbD 31 = true) ∨
        ∃ rest, s.arrivals = .resetPulse :: rest))

/-- A slot changes only when a host write or a command names it, or by `WIPE` and reset (rule R194). -/
def Obligations.SlotsChangeOnlyWhenNamed : Prop :=
  ∀ (s t : State) (p : SlotNo) (i : Nat), i < 256 → step s = .next t → t.lane p i ≠ s.lane p i →
    (∃ v, WritesNext (0x2000 + 0x200 * p.val + 4 * (i / 2)) v s) ∨
    (BlockNext s ∧ s.engine = .wiping) ∨
    (BlockNext s ∧ ∃ v ops smp c, s.engine = .running v ops smp ∧ decode v = .ok c ∧
      (destination c = some p ∨ c = .wipe))

/-- What changes the control state (rules R26, R27, R28, R204, R205, R232). `BUSY` rises only with a `CMD` write or
a reset and falls only with the block's own step; `DONE` rises only with a `CMD` write or the block's own
step; the block's own step writes neither `CTRL` nor `CMD` and answers no access (for the end of the reset wipe
that is the model's reading, log entry 12). -/
def Obligations.ControlStateChanges : Prop :=
  ∀ s t : State, step s = .next t →
    (s.busy = true → t.busy = false → BlockNext s) ∧
    (s.busy = false → t.busy = true →
      (∃ v, WritesNext 0x00C v s) ∨ (∃ v, WritesNext 0x004 v s ∧ v.getLsbD 31 = true) ∨
        ∃ rest, s.arrivals = .resetPulse :: rest) ∧
    (s.done = false → t.done = true → BlockNext s ∨ ∃ v, WritesNext 0x00C v s) ∧
    (BlockNext s → t.ieDone = s.ieDone ∧ t.ieErr = s.ieErr ∧ t.cmd = s.cmd ∧ t.response = s.response ∧
      t.arrivals = s.arrivals.tail)

/-- No host access disturbs a command in flight (rules R39, R66, R73): unless it is a soft reset, the command,
its operands, the memories, `RESULT` and the operand registers stay as they are. -/
def Obligations.HostCannotDisturbCommand : Prop :=
  ∀ (s t : State) (a : BusAccess) (rest : List Arrival), s.arrivals = .access a :: rest → s.busy = true →
    (∀ v : Word, a = .write 0x004 4 v → v.getLsbD 31 = false) → step s = .next t →
    t.engine = s.engine ∧ t.mem = s.mem ∧ t.result = s.result ∧ t.arg = s.arg ∧ t.blen = s.blen ∧
      t.faA = s.faA ∧ t.faB = s.faB ∧ t.faW = s.faW

/-- Both samplers are pure (rule R159): from two states with the same seed, and the same indices or the same
nonce, a newly accepted command leaves the same slot and the same `RESULT` (for `SUNI` where it completes with
256 values within one step, log entry 5, whatever the byte count, log entry 8). -/
def Obligations.SamplersArePure : Prop :=
  ∀ (s u : State) (d e : SlotNo), (∀ b, b < 32 →
      (operands s).mem.read (0x40 + b) = (operands u).mem.read (0x40 + b)) →
    (∀ eta, eta = 2 ∨ eta = 3 → (operands s).argX = (operands u).argX →
      ∃ t v : State, exec (.scbd d eta) s = .next t ∧ exec (.scbd e eta) u = .next v ∧
        t.result = v.result ∧ ∀ i, i < 256 → t.lane d i = v.lane e i) ∧
    (samplingOf s = .start → samplingOf u = .start → (operands s).arg = (operands u).arg →
      ∃ t v : State, exec (.suni d) s = .next t ∧ exec (.suni e) u = .next v ∧
        (t.engine = .idle ↔ v.engine = .idle) ∧
        (∀ smp, suniLoop s = .accepted smp →
          (∀ i, i < 256 → t.lane d i = v.lane e i) ∧ t.result = v.result))

/-- A command does not depend on a slot it does not read (rules R39, R109): from two idle states that differ in
one slot only, a command that does not name that slot as a source leaves the same registers and the
same memory outside that slot, and the same slot if it is the command's destination. Both runs draw the same free
values, as their counts of draws are equal (log entry 2); the capture holds every slot (log entry 17), and
no meaning reads one it does not name. -/
def Obligations.UnnamedSlotsDoNotLeak : Prop :=
  ∀ (i : Instr) (s : State) (m : Memory) (p : SlotNo), i.wellFormed = true → s.engine = .idle →
    SameOutside (slotBase p) 512 s { s with mem := m } → p ∉ sources i →
    ∃ t u : State, exec i s = .next t ∧ exec i { s with mem := m } = .next u ∧
      t.result = u.result ∧ t.blen = u.blen ∧ t.error = u.error ∧ t.done = u.done ∧
      t.draws = u.draws ∧ SameControls t u ∧
      (t.engine = .idle ↔ u.engine = .idle) ∧
      SameOutside (slotBase p) 512 t u ∧
      (destination i = some p → t.engine = .idle → ∀ k, k < 256 → t.lane p k = u.lane p k)

/-- The two reduction sequences the spec prints give the canonical residue over their whole input ranges, and
`FBRED` and `FMRED` leave in `RESULT` what they compute from `FA_W` (rule R102). -/
def Obligations.ReductionSequencesConform : Prop :=
  (∀ v, v < 2 ^ 32 → barrettReduce32 v = v % 3329) ∧
  (∀ v, v < 3329 * 2 ^ 16 → montgomeryReduce v = v * 169 % 3329) ∧
  ∀ s : State,
    (∃ t : State, exec .fbred s = .next t ∧
      t.result = BitVec.ofNat 32 (barrettReduce32 (operands s).faW.toNat)) ∧
    ((operands s).faW.toNat < 3329 * 2 ^ 16 →
      ∃ t : State, exec .fmred s = .next t ∧
        t.result = BitVec.ofNat 32 (montgomeryReduce (operands s).faW.toNat))
end

