-- ==== Sys2Proof/Laws/Memory.lean ====
section
/-! SUPPORT. The memories: reading after a write, the canonical form, and coefficients of a slot. -/

namespace Sys2Proof.Machine

/-! ## Reading one byte -/

@[simp] theorem Memory.read_nil (x : Nat) : Memory.read [] x = Memory.unlisted := rfl

theorem Memory.read_cons (c : Host.Cell) (m : Memory) (x : Nat) :
    Memory.read (c :: m) x = if c.1 = x then c.2 else Memory.read m x := rfl

/-- An address no cell names reads as the unlisted byte. -/
theorem Memory.read_of_not_listed {m : Memory} {x : Nat} (h : ∀ c ∈ m, c.1 ≠ x) :
    m.read x = Memory.unlisted := by
  induction m with
  | nil => rfl
  | cons c m ih =>
    rw [Memory.read_cons, if_neg (h c (by simp)), ih fun c' hc' => h c' (by simp [hc'])]

theorem Memory.read_append_right {m m' : Memory} {x : Nat} (h : ∀ c ∈ m, c.1 ≠ x) :
    Memory.read (m ++ m') x = m'.read x := by
  induction m with
  | nil => rfl
  | cons c m ih =>
    rw [List.cons_append, Memory.read_cons, if_neg (h c (by simp)),
      ih fun c' hc' => h c' (by simp [hc'])]

theorem Memory.read_append_left {m m' : Memory} {x : Nat} (h : ∀ c ∈ m', c.1 ≠ x) :
    Memory.read (m ++ m') x = m.read x := by
  induction m with
  | nil => exact Memory.read_of_not_listed h
  | cons c m ih => rw [List.cons_append, Memory.read_cons, Memory.read_cons, ih]

/-- Dropping cells of other addresses does not change what an address reads. -/
theorem Memory.read_filter {p : Nat → Bool} {m : Memory} {x : Nat} (h : p x = true) :
    Memory.read (m.filter fun c => p c.1) x = m.read x := by
  induction m with
  | nil => rfl
  | cons c m ih =>
    by_cases hc : p c.1 = true
    · rw [List.filter_cons_of_pos (by simpa using hc), Memory.read_cons, Memory.read_cons, ih]
    · rw [List.filter_cons_of_neg (by simpa using hc), ih, Memory.read_cons, if_neg]
      intro e
      exact hc (e ▸ h)

/-! ## A byte string laid out -/

theorem Memory.address_cellsFrom {x : Nat} {vs : List Byte} {c : Host.Cell}
    (h : c ∈ Memory.cellsFrom x vs) : x ≤ c.1 ∧ c.1 < x + vs.length ∧ c.2 ≠ Memory.unlisted := by
  induction vs generalizing x with
  | nil => simp [Memory.cellsFrom] at h
  | cons v vs ih =>
    unfold Memory.cellsFrom at h
    split at h
    · obtain ⟨h1, h2, h3⟩ := ih h
      rw [List.length_cons]
      exact ⟨by omega, by omega, h3⟩
    · rename_i hv
      rcases List.mem_cons.1 h with rfl | h
      · simp [hv]
      · obtain ⟨h1, h2, h3⟩ := ih h
        rw [List.length_cons]
        exact ⟨by omega, by omega, h3⟩

theorem Memory.read_cellsFrom (x : Nat) (vs : List Byte) (y : Nat) :
    (Memory.cellsFrom x vs).read y = if x ≤ y then vs.getD (y - x) Memory.unlisted else Memory.unlisted := by
  induction vs generalizing x with
  | nil => simp [Memory.cellsFrom]
  | cons v vs ih =>
    unfold Memory.cellsFrom
    by_cases hxy : x = y
    · subst hxy
      have hno : (Memory.cellsFrom (x + 1) vs).read x = Memory.unlisted := by
        refine Memory.read_of_not_listed fun c hc e => ?_
        have := (Memory.address_cellsFrom hc).1
        omega
      split
      · rename_i hv
        simp [hno, hv]
      · simp [Memory.read_cons]
    · have hstep : (Memory.cellsFrom (x + 1) vs).read y =
          if x ≤ y then (v :: vs).getD (y - x) Memory.unlisted else Memory.unlisted := by
        rw [ih]
        by_cases h : x ≤ y
        · rw [if_pos h, if_pos (by omega), show y - x = (y - (x + 1)) + 1 by omega,
            List.getD_cons_succ]
        · rw [if_neg h, if_neg (by omega)]
      split
      · exact hstep
      · rw [Memory.read_cons, if_neg hxy, hstep]

/-! ## Reading after a write -/

/-- What a write can do to a byte: inside the written range it is the written byte, outside nothing. -/
theorem Memory.read_write (m : Memory) (x : Nat) (vs : List Byte) (y : Nat) :
    (m.write x vs).read y =
      if x ≤ y ∧ y < x + vs.length then vs.getD (y - x) Memory.unlisted else m.read y := by
  unfold Memory.write
  rw [List.append_assoc]
  by_cases hlo : y < x
  · rw [Memory.read_append_left, if_neg (by omega)]
    · exact Memory.read_filter (p := fun z => decide (z < x)) (by simpa using hlo)
    · intro c hc e
      rcases List.mem_append.1 hc with hc | hc
      · have := (Memory.address_cellsFrom hc).1
        omega
      · have := (List.mem_filter.1 hc).2
        simp only [decide_eq_true_eq] at this
        omega
  · rw [Memory.read_append_right]
    · by_cases hhi : y < x + vs.length
      · rw [Memory.read_append_left, Memory.read_cellsFrom, if_pos (by omega), if_pos (by omega)]
        intro c hc e
        have := (List.mem_filter.1 hc).2
        simp only [decide_eq_true_eq] at this
        omega
      · rw [Memory.read_append_right, if_neg (by omega)]
        · exact Memory.read_filter (p := fun z => decide (x + vs.length ≤ z)) (by simpa using hhi)
        · intro c hc e
          have := (Memory.address_cellsFrom hc).2.1
          omega
    · intro c hc e
      have := (List.mem_filter.1 hc).2
      simp only [decide_eq_true_eq] at this
      omega

theorem Memory.read_write_of_outside {m : Memory} {x : Nat} {vs : List Byte} {y : Nat}
    (h : y < x ∨ x + vs.length ≤ y) : (m.write x vs).read y = m.read y := by
  rw [Memory.read_write, if_neg (by omega)]

theorem Memory.read_write_of_inside {m : Memory} {x : Nat} {vs : List Byte} {k : Nat}
    (h : k < vs.length) : (m.write x vs).read (x + k) = vs.getD k Memory.unlisted := by
  rw [Memory.read_write, if_pos (by omega), Nat.add_sub_cancel_left]

/-! ## The canonical form -/

/-- The canonical form, as a statement about pairs and cells. -/
theorem Memory.wf_iff (m : Memory) :
    m.wf = true ↔ m.Pairwise (fun c c' => c.1 < c'.1) ∧ ∀ c ∈ m, c.2 ≠ Memory.unlisted := by
  induction m with
  | nil => simp [Memory.wf]
  | cons c m ih =>
    cases m with
    | nil => simp [Memory.wf]
    | cons c' m =>
      simp only [Memory.wf, Bool.and_eq_true, bne_iff_ne, ne_eq, decide_eq_true_eq, ih,
        List.pairwise_cons, List.mem_cons, forall_eq_or_imp]
      constructor
      · rintro ⟨⟨h1, h2⟩, ⟨h3, h4⟩, h5, h6⟩
        exact ⟨⟨⟨h2, fun d hd => lt_trans h2 (h3 d hd)⟩, h3, h4⟩, h1, h5, h6⟩
      · rintro ⟨⟨⟨h2, -⟩, h3, h4⟩, h1, h5, h6⟩
        exact ⟨⟨h1, h2⟩, ⟨h3, h4⟩, h5, h6⟩

theorem Memory.pairwise_cellsFrom (x : Nat) (vs : List Byte) :
    (Memory.cellsFrom x vs).Pairwise (fun c c' => c.1 < c'.1) := by
  induction vs generalizing x with
  | nil => simp [Memory.cellsFrom]
  | cons v vs ih =>
    unfold Memory.cellsFrom
    split
    · exact ih _
    · refine List.pairwise_cons.2 ⟨fun c hc => ?_, ih _⟩
      have := (Memory.address_cellsFrom hc).1
      simp only
      omega

/-- Every write keeps the canonical form. -/
theorem Memory.write_keeps_wf {m : Memory} (h : m.wf = true) (x : Nat) (vs : List Byte) :
    (m.write x vs).wf = true := by
  rw [Memory.wf_iff] at h ⊢
  obtain ⟨hp, hv⟩ := h
  unfold Memory.write
  constructor
  · refine List.pairwise_append.2 ⟨List.pairwise_append.2 ⟨hp.filter _, Memory.pairwise_cellsFrom _ _, ?_⟩,
      hp.filter _, ?_⟩
    · intro c hc c' hc'
      have h1 := (List.mem_filter.1 hc).2
      have h2 := (Memory.address_cellsFrom hc').1
      simp only [decide_eq_true_eq] at h1
      omega
    · intro c hc c' hc'
      have h2 := (List.mem_filter.1 hc').2
      simp only [decide_eq_true_eq] at h2
      rcases List.mem_append.1 hc with hc | hc
      · have h1 := (List.mem_filter.1 hc).2
        simp only [decide_eq_true_eq] at h1
        omega
      · have h1 := (Memory.address_cellsFrom hc).2.1
        omega
  · intro c hc
    rcases List.mem_append.1 hc with hc | hc
    · rcases List.mem_append.1 hc with hc | hc
      · exact hv c (List.mem_filter.1 hc).1
      · exact (Memory.address_cellsFrom hc).2.2
    · exact hv c (List.mem_filter.1 hc).1

theorem Memory.setWord_keeps_wf {m : Memory} (h : m.wf = true) (x : Nat) (v : Word) :
    (m.setWord x v).wf = true := Memory.write_keeps_wf h _ _

theorem Memory.setPoly_keeps_wf {m : Memory} (h : m.wf = true) (p : SlotNo) (f : Poly) :
    (m.setPoly p f).wf = true := Memory.write_keeps_wf h _ _

/-! ## Clearing `SEED` -/

/-- What clearing `SEED` can do to a byte: a byte of `SEED` is 0, every other is as before. -/
theorem Memory.read_clearSeed (m : Memory) (y : Nat) :
    m.clearSeed.read y = if 0x40 ≤ y ∧ y < 0x60 then 0#8 else m.read y := by
  unfold Memory.clearSeed seedBase
  rw [Memory.read_write, List.length_replicate]
  split
  · rw [List.getD_replicate _ (by omega)]
  · rfl

theorem Memory.read_clearSeed_of_outside {m : Memory} {y : Nat} (h : y < 0x40 ∨ 0x60 ≤ y) :
    m.clearSeed.read y = m.read y := by
  rw [Memory.read_clearSeed, if_neg (by omega)]

@[simp] theorem Memory.read_seed_clearSeed (m : Memory) {k : Nat} (h : k < 32) :
    m.clearSeed.read (0x40 + k) = 0#8 := by
  rw [Memory.read_clearSeed, if_pos (by omega)]

theorem Memory.clearSeed_keeps_wf {m : Memory} (h : m.wf = true) : m.clearSeed.wf = true :=
  Memory.write_keeps_wf h _ _

/-! ## Polynomials and slots -/

@[simp] theorem lanes_length (g : Nat → Nat) : (lanes g).length = 256 := by
  simp [lanes, Config.N]

@[simp] theorem lanes_at (g : Nat → Nat) {i : Nat} (h : i < 256) : (lanes g).at i = g i := by
  simp [Poly.at, lanes, Config.N, List.getD_eq_getElem?_getD, List.getElem?_range h]

@[simp] theorem Memory.poly_length (m : Memory) (p : SlotNo) : (m.poly p).length = 256 := lanes_length _

@[simp] theorem Memory.poly_at (m : Memory) (p : SlotNo) {i : Nat} (h : i < 256) :
    (m.poly p).at i = (m.coeff p i).toNat := lanes_at _ h

/-- A list of 256 values is the polynomial of its values. -/
theorem lanes_of_at {f : Poly} (h : f.length = 256) : lanes f.at = f := by
  refine List.ext_getElem (by simp [h]) fun i h1 h2 => ?_
  simp [lanes, Poly.at, List.getD_eq_getElem?_getD, List.getElem?_eq_getElem h2]

theorem halfBytes_length (v : Half) : (halfBytes v).length = 2 := rfl

theorem pairs_length {β : Type} (g : Nat → List β) (h : ∀ i, (g i).length = 2) (n : Nat) :
    ((List.range n).flatMap g).length = 2 * n := by
  induction n with
  | zero => rfl
  | succ n ih => simp [List.range_succ, List.flatMap_append, ih, h]; omega

theorem pairs_getD {β : Type} (g : Nat → List β) (h : ∀ i, (g i).length = 2) (e : β) {n i : Nat}
    (hi : i < n) {k : Nat} (hk : k < 2) :
    ((List.range n).flatMap g).getD (2 * i + k) e = (g i).getD k e := by
  induction n with
  | zero => omega
  | succ n ih =>
    rw [List.range_succ, List.flatMap_append]
    have hl := pairs_length g h n
    by_cases hin : i < n
    · rw [List.getD_append _ _ _ _ (by omega), ih hin]
    · have : i = n := by omega
      subst this
      rw [List.getD_append_right _ _ _ _ (by omega), hl, Nat.add_sub_cancel_left]
      simp

/-- The bytes of slot `p` when it holds `f`. -/
theorem setPoly_bytes_length (f : Poly) :
    ((List.range Config.N).flatMap fun i => halfBytes (BitVec.ofNat 16 (f.at i))).length = 512 :=
  pairs_length _ (fun _ => rfl) _

/-- Outside slot `p` nothing changes. -/
theorem Memory.read_setPoly_of_outside {m : Memory} {p : SlotNo} {f : Poly} {y : Nat}
    (h : y < slotBase p ∨ slotBase p + 512 ≤ y) : (m.setPoly p f).read y = m.read y := by
  unfold Memory.setPoly
  rw [Memory.read_write_of_outside]
  rw [setPoly_bytes_length]
  exact h

theorem Memory.half_of_bytes (v : Half) : v.extractLsb' 8 8 ++ v.extractLsb' 0 8 = v := by
  ext i hi
  simp only [BitVec.getElem_append, BitVec.getElem_extractLsb']
  split
  · simp [BitVec.getLsbD_eq_getElem, hi]
  · rw [show 8 + (i - 8) = i by omega]
    simp [BitVec.getLsbD_eq_getElem, hi]

/-- What `P[p] <- f` can do to a coefficient: slot `p` holds `f`, every other slot what it held. -/
theorem Memory.coeff_setPoly (m : Memory) (p q : SlotNo) (f : Poly) {i : Nat} (hi : i < 256) :
    (m.setPoly p f).coeff q i = if q = p then BitVec.ofNat 16 (f.at i) else m.coeff q i := by
  unfold Memory.coeff Memory.half
  by_cases hq : q = p
  · subst hq
    rw [if_pos rfl]
    unfold Memory.setPoly
    have hlen := setPoly_bytes_length f
    rw [Nat.add_assoc, Memory.read_write_of_inside (by omega), Memory.read_write_of_inside (by omega),
      pairs_getD (n := Config.N) _ (fun _ => rfl) _ (by simpa [Config.N] using hi) (by omega),
      show 2 * i = 2 * i + 0 from rfl,
      pairs_getD (n := Config.N) _ (fun _ => rfl) _ (by simpa [Config.N] using hi) (by omega)]
    exact Memory.half_of_bytes _
  · rw [if_neg hq]
    have hne : q.val ≠ p.val := fun e => hq (Fin.ext e)
    rw [Memory.read_setPoly_of_outside, Memory.read_setPoly_of_outside] <;>
      (unfold slotBase; omega)

/-- Two memories that read alike hold the same coefficients. -/
theorem Memory.coeff_congr {m m' : Memory} {p : SlotNo} {i : Nat}
    (h : ∀ y, slotBase p ≤ y → y < slotBase p + 512 → m'.read y = m.read y) (hi : i < 256) :
    m'.coeff p i = m.coeff p i := by
  unfold Memory.coeff Memory.half
  rw [h _ (by omega) (by omega), h _ (by omega) (by omega)]

/-- Clearing `SEED` changes no coefficient. -/
@[simp] theorem Memory.coeff_clearSeed (m : Memory) (p : SlotNo) (i : Nat) :
    m.clearSeed.coeff p i = m.coeff p i := by
  unfold Memory.coeff Memory.half slotBase
  rw [Memory.read_clearSeed_of_outside (by omega), Memory.read_clearSeed_of_outside (by omega)]

/-! ## Words -/

theorem Memory.read_setWord (m : Memory) (x : Nat) (v : Word) {b : Nat} (hb : b < 4) :
    (m.setWord x v).read (x + b) = v.extractLsb' (8 * b) 8 := by
  unfold Memory.setWord
  rw [Memory.read_write_of_inside (by simpa [wordBytes] using hb)]
  obtain rfl | rfl | rfl | rfl : b = 0 ∨ b = 1 ∨ b = 2 ∨ b = 3 := by omega
  all_goals rfl

theorem Memory.read_setWord_of_outside {m : Memory} {x : Nat} {v : Word} {y : Nat} (h : y < x ∨ x + 4 ≤ y) :
    (m.setWord x v).read y = m.read y :=
  Memory.read_write_of_outside (by simpa [wordBytes] using h)

/-- Two neighbouring bytes of a word are its 16 bits from there. -/
theorem extract_bytes (v : Word) (k : Nat) :
    (v.extractLsb' (k + 8) 8 ++ v.extractLsb' k 8 : BitVec 16) = v.extractLsb' k 16 := by
  ext i hi
  simp only [BitVec.getElem_append, BitVec.getElem_extractLsb']
  split
  · rfl
  · congr 1
    omega

/-- After a word is stored, its low half reads as the low 16 bits (rules R23, R60). -/
theorem Memory.half_setWord_low (m : Memory) (x : Nat) (v : Word) :
    (m.setWord x v).half x = v.extractLsb' 0 16 := by
  have h0 := Memory.read_setWord m x v (b := 0) (by omega)
  have h1 := Memory.read_setWord m x v (b := 1) (by omega)
  rw [Nat.add_zero] at h0
  unfold Memory.half
  rw [h0, h1]
  exact extract_bytes v 0

/-- After a word is stored, its high half reads as the high 16 bits (rules R23, R60). -/
theorem Memory.half_setWord_high (m : Memory) (x : Nat) (v : Word) :
    (m.setWord x v).half (x + 2) = v.extractLsb' 16 16 := by
  unfold Memory.half
  rw [Memory.read_setWord m x v (b := 3) (by omega), Memory.read_setWord m x v (b := 2) (by omega)]
  exact extract_bytes v 16

/-- A word is its two halves, the high one at the higher address (rule R60). -/
theorem Memory.word_eq_halves (m : Memory) (x : Nat) : m.word x = m.half (x + 2) ++ m.half x := by
  unfold Memory.word Memory.half
  rw [Nat.add_assoc x 2 1]
  exact BitVec.append_assoc

/-- Byte `b` of the word at `x` (rules R33, R34, R60). -/
theorem Memory.byte_of_word (m : Memory) (x : Nat) {b : Nat} (hb : b < 4) :
    (m.word x).extractLsb' (8 * b) 8 = m.read (x + b) := by
  obtain rfl | rfl | rfl | rfl : b = 0 ∨ b = 1 ∨ b = 2 ∨ b = 3 := by omega
  all_goals
    unfold Memory.word
    ext i hi
    simp only [BitVec.getElem_extractLsb', BitVec.getLsbD_append]
  · rw [if_pos (by omega), Nat.mul_zero, Nat.zero_add, Nat.add_zero, BitVec.getLsbD_eq_getElem]
  · rw [if_neg (by omega), if_pos (by omega), show 8 * 1 + i - 8 = i by omega, BitVec.getLsbD_eq_getElem]
  · rw [if_neg (by omega), if_neg (by omega), if_pos (by omega), show 8 * 2 + i - 8 - 8 = i by omega,
      BitVec.getLsbD_eq_getElem]
  · rw [if_neg (by omega), if_neg (by omega), if_neg (by omega), show 8 * 3 + i - 8 - 8 - 8 = i by omega,
      BitVec.getLsbD_eq_getElem]

/-! ## The map -/

/-- Writing inside a range of the map keeps every listed address inside the map (rule R20). -/
theorem Memory.address_write {m : Memory} {x : Nat} {vs : List Byte} {c : Host.Cell}
    (h : c ∈ m.write x vs) : c ∈ m ∨ (x ≤ c.1 ∧ c.1 < x + vs.length) := by
  unfold Memory.write at h
  rcases List.mem_append.1 h with h | h
  · rcases List.mem_append.1 h with h | h
    · exact .inl (List.mem_filter.1 h).1
    · have := Memory.address_cellsFrom h
      exact .inr ⟨this.1, this.2.1⟩
  · exact .inl (List.mem_filter.1 h).1

end Sys2Proof.Machine
end

