-- ==== Sys2Proof/Laws/State.lean ====
section
/-! SUPPORT. One lemma per field per update of State, each true by computation. -/

namespace Sys2Proof.Machine

variable (s : State)

/-! ## `setSlot` -/

@[simp] theorem State.setSlot_mem (p : SlotNo) (f : Poly) : (s.setSlot p f).mem = s.mem.setPoly p f := rfl
@[simp] theorem State.setSlot_ieDone (p : SlotNo) (f : Poly) : (s.setSlot p f).ieDone = s.ieDone := rfl
@[simp] theorem State.setSlot_ieErr (p : SlotNo) (f : Poly) : (s.setSlot p f).ieErr = s.ieErr := rfl
@[simp] theorem State.setSlot_done (p : SlotNo) (f : Poly) : (s.setSlot p f).done = s.done := rfl
@[simp] theorem State.setSlot_error (p : SlotNo) (f : Poly) : (s.setSlot p f).error = s.error := rfl
@[simp] theorem State.setSlot_cmd (p : SlotNo) (f : Poly) : (s.setSlot p f).cmd = s.cmd := rfl
@[simp] theorem State.setSlot_arg (p : SlotNo) (f : Poly) : (s.setSlot p f).arg = s.arg := rfl
@[simp] theorem State.setSlot_blen (p : SlotNo) (f : Poly) : (s.setSlot p f).blen = s.blen := rfl
@[simp] theorem State.setSlot_result (p : SlotNo) (f : Poly) : (s.setSlot p f).result = s.result := rfl
@[simp] theorem State.setSlot_faA (p : SlotNo) (f : Poly) : (s.setSlot p f).faA = s.faA := rfl
@[simp] theorem State.setSlot_faB (p : SlotNo) (f : Poly) : (s.setSlot p f).faB = s.faB := rfl
@[simp] theorem State.setSlot_faW (p : SlotNo) (f : Poly) : (s.setSlot p f).faW = s.faW := rfl
@[simp] theorem State.setSlot_engine (p : SlotNo) (f : Poly) : (s.setSlot p f).engine = s.engine := rfl
@[simp] theorem State.setSlot_arrivals (p : SlotNo) (f : Poly) : (s.setSlot p f).arrivals = s.arrivals := rfl
@[simp] theorem State.setSlot_response (p : SlotNo) (f : Poly) : (s.setSlot p f).response = s.response := rfl
@[simp] theorem State.setSlot_draws (p : SlotNo) (f : Poly) : (s.setSlot p f).draws = s.draws := rfl

/-! ## `freeSlot` -/

@[simp] theorem State.freeSlot_mem (p : SlotNo) : (s.freeSlot p).mem = s.mem.setPoly p (lanes fun i => (Config.freeCoeff s.draws i).toNat) := rfl
@[simp] theorem State.freeSlot_ieDone (p : SlotNo) : (s.freeSlot p).ieDone = s.ieDone := rfl
@[simp] theorem State.freeSlot_ieErr (p : SlotNo) : (s.freeSlot p).ieErr = s.ieErr := rfl
@[simp] theorem State.freeSlot_done (p : SlotNo) : (s.freeSlot p).done = s.done := rfl
@[simp] theorem State.freeSlot_error (p : SlotNo) : (s.freeSlot p).error = s.error := rfl
@[simp] theorem State.freeSlot_cmd (p : SlotNo) : (s.freeSlot p).cmd = s.cmd := rfl
@[simp] theorem State.freeSlot_arg (p : SlotNo) : (s.freeSlot p).arg = s.arg := rfl
@[simp] theorem State.freeSlot_blen (p : SlotNo) : (s.freeSlot p).blen = s.blen := rfl
@[simp] theorem State.freeSlot_result (p : SlotNo) : (s.freeSlot p).result = s.result := rfl
@[simp] theorem State.freeSlot_faA (p : SlotNo) : (s.freeSlot p).faA = s.faA := rfl
@[simp] theorem State.freeSlot_faB (p : SlotNo) : (s.freeSlot p).faB = s.faB := rfl
@[simp] theorem State.freeSlot_faW (p : SlotNo) : (s.freeSlot p).faW = s.faW := rfl
@[simp] theorem State.freeSlot_engine (p : SlotNo) : (s.freeSlot p).engine = s.engine := rfl
@[simp] theorem State.freeSlot_arrivals (p : SlotNo) : (s.freeSlot p).arrivals = s.arrivals := rfl
@[simp] theorem State.freeSlot_response (p : SlotNo) : (s.freeSlot p).response = s.response := rfl
@[simp] theorem State.freeSlot_draws (p : SlotNo) : (s.freeSlot p).draws = s.draws + 1 := rfl

/-! ## `setBuffer` -/

@[simp] theorem State.setBuffer_mem (vs : List Byte) : (s.setBuffer vs).mem = s.mem.write bbufBase vs := rfl
@[simp] theorem State.setBuffer_ieDone (vs : List Byte) : (s.setBuffer vs).ieDone = s.ieDone := rfl
@[simp] theorem State.setBuffer_ieErr (vs : List Byte) : (s.setBuffer vs).ieErr = s.ieErr := rfl
@[simp] theorem State.setBuffer_done (vs : List Byte) : (s.setBuffer vs).done = s.done := rfl
@[simp] theorem State.setBuffer_error (vs : List Byte) : (s.setBuffer vs).error = s.error := rfl
@[simp] theorem State.setBuffer_cmd (vs : List Byte) : (s.setBuffer vs).cmd = s.cmd := rfl
@[simp] theorem State.setBuffer_arg (vs : List Byte) : (s.setBuffer vs).arg = s.arg := rfl
@[simp] theorem State.setBuffer_blen (vs : List Byte) : (s.setBuffer vs).blen = s.blen := rfl
@[simp] theorem State.setBuffer_result (vs : List Byte) : (s.setBuffer vs).result = s.result := rfl
@[simp] theorem State.setBuffer_faA (vs : List Byte) : (s.setBuffer vs).faA = s.faA := rfl
@[simp] theorem State.setBuffer_faB (vs : List Byte) : (s.setBuffer vs).faB = s.faB := rfl
@[simp] theorem State.setBuffer_faW (vs : List Byte) : (s.setBuffer vs).faW = s.faW := rfl
@[simp] theorem State.setBuffer_engine (vs : List Byte) : (s.setBuffer vs).engine = s.engine := rfl
@[simp] theorem State.setBuffer_arrivals (vs : List Byte) : (s.setBuffer vs).arrivals = s.arrivals := rfl
@[simp] theorem State.setBuffer_response (vs : List Byte) : (s.setBuffer vs).response = s.response := rfl
@[simp] theorem State.setBuffer_draws (vs : List Byte) : (s.setBuffer vs).draws = s.draws := rfl

/-! ## `freeBuffer` -/

@[simp] theorem State.freeBuffer_mem (n : Nat) : (s.freeBuffer n).mem = s.mem.write bbufBase ((List.range n).map (Config.freeByte s.draws)) := rfl
@[simp] theorem State.freeBuffer_ieDone (n : Nat) : (s.freeBuffer n).ieDone = s.ieDone := rfl
@[simp] theorem State.freeBuffer_ieErr (n : Nat) : (s.freeBuffer n).ieErr = s.ieErr := rfl
@[simp] theorem State.freeBuffer_done (n : Nat) : (s.freeBuffer n).done = s.done := rfl
@[simp] theorem State.freeBuffer_error (n : Nat) : (s.freeBuffer n).error = s.error := rfl
@[simp] theorem State.freeBuffer_cmd (n : Nat) : (s.freeBuffer n).cmd = s.cmd := rfl
@[simp] theorem State.freeBuffer_arg (n : Nat) : (s.freeBuffer n).arg = s.arg := rfl
@[simp] theorem State.freeBuffer_blen (n : Nat) : (s.freeBuffer n).blen = s.blen := rfl
@[simp] theorem State.freeBuffer_result (n : Nat) : (s.freeBuffer n).result = s.result := rfl
@[simp] theorem State.freeBuffer_faA (n : Nat) : (s.freeBuffer n).faA = s.faA := rfl
@[simp] theorem State.freeBuffer_faB (n : Nat) : (s.freeBuffer n).faB = s.faB := rfl
@[simp] theorem State.freeBuffer_faW (n : Nat) : (s.freeBuffer n).faW = s.faW := rfl
@[simp] theorem State.freeBuffer_engine (n : Nat) : (s.freeBuffer n).engine = s.engine := rfl
@[simp] theorem State.freeBuffer_arrivals (n : Nat) : (s.freeBuffer n).arrivals = s.arrivals := rfl
@[simp] theorem State.freeBuffer_response (n : Nat) : (s.freeBuffer n).response = s.response := rfl
@[simp] theorem State.freeBuffer_draws (n : Nat) : (s.freeBuffer n).draws = s.draws + 1 := rfl

/-! ## `setResult` -/

@[simp] theorem State.setResult_mem (v : Word) : (s.setResult v).mem = s.mem := rfl
@[simp] theorem State.setResult_ieDone (v : Word) : (s.setResult v).ieDone = s.ieDone := rfl
@[simp] theorem State.setResult_ieErr (v : Word) : (s.setResult v).ieErr = s.ieErr := rfl
@[simp] theorem State.setResult_done (v : Word) : (s.setResult v).done = s.done := rfl
@[simp] theorem State.setResult_error (v : Word) : (s.setResult v).error = s.error := rfl
@[simp] theorem State.setResult_cmd (v : Word) : (s.setResult v).cmd = s.cmd := rfl
@[simp] theorem State.setResult_arg (v : Word) : (s.setResult v).arg = s.arg := rfl
@[simp] theorem State.setResult_blen (v : Word) : (s.setResult v).blen = s.blen := rfl
@[simp] theorem State.setResult_result (v : Word) : (s.setResult v).result = v := rfl
@[simp] theorem State.setResult_faA (v : Word) : (s.setResult v).faA = s.faA := rfl
@[simp] theorem State.setResult_faB (v : Word) : (s.setResult v).faB = s.faB := rfl
@[simp] theorem State.setResult_faW (v : Word) : (s.setResult v).faW = s.faW := rfl
@[simp] theorem State.setResult_engine (v : Word) : (s.setResult v).engine = s.engine := rfl
@[simp] theorem State.setResult_arrivals (v : Word) : (s.setResult v).arrivals = s.arrivals := rfl
@[simp] theorem State.setResult_response (v : Word) : (s.setResult v).response = s.response := rfl
@[simp] theorem State.setResult_draws (v : Word) : (s.setResult v).draws = s.draws := rfl

/-! ## `freeResult` -/

@[simp] theorem State.freeResult_mem : (s.freeResult).mem = s.mem := rfl
@[simp] theorem State.freeResult_ieDone : (s.freeResult).ieDone = s.ieDone := rfl
@[simp] theorem State.freeResult_ieErr : (s.freeResult).ieErr = s.ieErr := rfl
@[simp] theorem State.freeResult_done : (s.freeResult).done = s.done := rfl
@[simp] theorem State.freeResult_error : (s.freeResult).error = s.error := rfl
@[simp] theorem State.freeResult_cmd : (s.freeResult).cmd = s.cmd := rfl
@[simp] theorem State.freeResult_arg : (s.freeResult).arg = s.arg := rfl
@[simp] theorem State.freeResult_blen : (s.freeResult).blen = s.blen := rfl
@[simp] theorem State.freeResult_result : (s.freeResult).result = Config.freeWord s.draws := rfl
@[simp] theorem State.freeResult_faA : (s.freeResult).faA = s.faA := rfl
@[simp] theorem State.freeResult_faB : (s.freeResult).faB = s.faB := rfl
@[simp] theorem State.freeResult_faW : (s.freeResult).faW = s.faW := rfl
@[simp] theorem State.freeResult_engine : (s.freeResult).engine = s.engine := rfl
@[simp] theorem State.freeResult_arrivals : (s.freeResult).arrivals = s.arrivals := rfl
@[simp] theorem State.freeResult_response : (s.freeResult).response = s.response := rfl
@[simp] theorem State.freeResult_draws : (s.freeResult).draws = s.draws + 1 := rfl

/-! ## `setBlen` -/

@[simp] theorem State.setBlen_mem (v : Half) : (s.setBlen v).mem = s.mem := rfl
@[simp] theorem State.setBlen_ieDone (v : Half) : (s.setBlen v).ieDone = s.ieDone := rfl
@[simp] theorem State.setBlen_ieErr (v : Half) : (s.setBlen v).ieErr = s.ieErr := rfl
@[simp] theorem State.setBlen_done (v : Half) : (s.setBlen v).done = s.done := rfl
@[simp] theorem State.setBlen_error (v : Half) : (s.setBlen v).error = s.error := rfl
@[simp] theorem State.setBlen_cmd (v : Half) : (s.setBlen v).cmd = s.cmd := rfl
@[simp] theorem State.setBlen_arg (v : Half) : (s.setBlen v).arg = s.arg := rfl
@[simp] theorem State.setBlen_blen (v : Half) : (s.setBlen v).blen = v := rfl
@[simp] theorem State.setBlen_result (v : Half) : (s.setBlen v).result = s.result := rfl
@[simp] theorem State.setBlen_faA (v : Half) : (s.setBlen v).faA = s.faA := rfl
@[simp] theorem State.setBlen_faB (v : Half) : (s.setBlen v).faB = s.faB := rfl
@[simp] theorem State.setBlen_faW (v : Half) : (s.setBlen v).faW = s.faW := rfl
@[simp] theorem State.setBlen_engine (v : Half) : (s.setBlen v).engine = s.engine := rfl
@[simp] theorem State.setBlen_arrivals (v : Half) : (s.setBlen v).arrivals = s.arrivals := rfl
@[simp] theorem State.setBlen_response (v : Half) : (s.setBlen v).response = s.response := rfl
@[simp] theorem State.setBlen_draws (v : Half) : (s.setBlen v).draws = s.draws := rfl

/-! ## `raiseError` -/

@[simp] theorem raiseError_mem (code : ErrCode) : (raiseError code s).mem = s.mem := rfl
@[simp] theorem raiseError_ieDone (code : ErrCode) : (raiseError code s).ieDone = s.ieDone := rfl
@[simp] theorem raiseError_ieErr (code : ErrCode) : (raiseError code s).ieErr = s.ieErr := rfl
@[simp] theorem raiseError_done (code : ErrCode) : (raiseError code s).done = s.done := rfl
@[simp] theorem raiseError_error (code : ErrCode) : (raiseError code s).error = firstError s.error code := rfl
@[simp] theorem raiseError_cmd (code : ErrCode) : (raiseError code s).cmd = s.cmd := rfl
@[simp] theorem raiseError_arg (code : ErrCode) : (raiseError code s).arg = s.arg := rfl
@[simp] theorem raiseError_blen (code : ErrCode) : (raiseError code s).blen = s.blen := rfl
@[simp] theorem raiseError_result (code : ErrCode) : (raiseError code s).result = s.result := rfl
@[simp] theorem raiseError_faA (code : ErrCode) : (raiseError code s).faA = s.faA := rfl
@[simp] theorem raiseError_faB (code : ErrCode) : (raiseError code s).faB = s.faB := rfl
@[simp] theorem raiseError_faW (code : ErrCode) : (raiseError code s).faW = s.faW := rfl
@[simp] theorem raiseError_engine (code : ErrCode) : (raiseError code s).engine = s.engine := rfl
@[simp] theorem raiseError_arrivals (code : ErrCode) : (raiseError code s).arrivals = s.arrivals := rfl
@[simp] theorem raiseError_response (code : ErrCode) : (raiseError code s).response = s.response := rfl
@[simp] theorem raiseError_draws (code : ErrCode) : (raiseError code s).draws = s.draws := rfl

/-! ## `acknowledge` -/

@[simp] theorem acknowledge_mem (v : Word) : (acknowledge v s).mem = s.mem := rfl
@[simp] theorem acknowledge_ieDone (v : Word) : (acknowledge v s).ieDone = s.ieDone := rfl
@[simp] theorem acknowledge_ieErr (v : Word) : (acknowledge v s).ieErr = s.ieErr := rfl
@[simp] theorem acknowledge_done (v : Word) : (acknowledge v s).done = (s.done && !v.getLsbD 1) := rfl
@[simp] theorem acknowledge_error (v : Word) : (acknowledge v s).error = if v.getLsbD 2 then none else s.error := rfl
@[simp] theorem acknowledge_cmd (v : Word) : (acknowledge v s).cmd = s.cmd := rfl
@[simp] theorem acknowledge_arg (v : Word) : (acknowledge v s).arg = s.arg := rfl
@[simp] theorem acknowledge_blen (v : Word) : (acknowledge v s).blen = s.blen := rfl
@[simp] theorem acknowledge_result (v : Word) : (acknowledge v s).result = s.result := rfl
@[simp] theorem acknowledge_faA (v : Word) : (acknowledge v s).faA = s.faA := rfl
@[simp] theorem acknowledge_faB (v : Word) : (acknowledge v s).faB = s.faB := rfl
@[simp] theorem acknowledge_faW (v : Word) : (acknowledge v s).faW = s.faW := rfl
@[simp] theorem acknowledge_engine (v : Word) : (acknowledge v s).engine = s.engine := rfl
@[simp] theorem acknowledge_arrivals (v : Word) : (acknowledge v s).arrivals = s.arrivals := rfl
@[simp] theorem acknowledge_response (v : Word) : (acknowledge v s).response = s.response := rfl
@[simp] theorem acknowledge_draws (v : Word) : (acknowledge v s).draws = s.draws := rfl

/-! ## `enterReset` -/

@[simp] theorem enterReset_mem : (enterReset s).mem = s.mem.clearSeed := rfl
@[simp] theorem enterReset_ieDone : (enterReset s).ieDone = false := rfl
@[simp] theorem enterReset_ieErr : (enterReset s).ieErr = false := rfl
@[simp] theorem enterReset_done : (enterReset s).done = false := rfl
@[simp] theorem enterReset_error : (enterReset s).error = none := rfl
@[simp] theorem enterReset_cmd : (enterReset s).cmd = 0#32 := rfl
@[simp] theorem enterReset_arg : (enterReset s).arg = 0#16 := rfl
@[simp] theorem enterReset_blen : (enterReset s).blen = 0#16 := rfl
@[simp] theorem enterReset_result : (enterReset s).result = 0#32 := rfl
@[simp] theorem enterReset_faA : (enterReset s).faA = 0#16 := rfl
@[simp] theorem enterReset_faB : (enterReset s).faB = 0#16 := rfl
@[simp] theorem enterReset_faW : (enterReset s).faW = 0#32 := rfl
@[simp] theorem enterReset_engine : (enterReset s).engine = .wiping := rfl
@[simp] theorem enterReset_arrivals : (enterReset s).arrivals = s.arrivals := rfl
@[simp] theorem enterReset_response : (enterReset s).response = s.response := rfl
@[simp] theorem enterReset_draws : (enterReset s).draws = s.draws := rfl

/-! ## `endWipe` -/

@[simp] theorem endWipe_mem : (endWipe s).mem = [] := rfl
@[simp] theorem endWipe_ieDone : (endWipe s).ieDone = s.ieDone := rfl
@[simp] theorem endWipe_ieErr : (endWipe s).ieErr = s.ieErr := rfl
@[simp] theorem endWipe_done : (endWipe s).done = s.done := rfl
@[simp] theorem endWipe_error : (endWipe s).error = s.error := rfl
@[simp] theorem endWipe_cmd : (endWipe s).cmd = s.cmd := rfl
@[simp] theorem endWipe_arg : (endWipe s).arg = s.arg := rfl
@[simp] theorem endWipe_blen : (endWipe s).blen = s.blen := rfl
@[simp] theorem endWipe_result : (endWipe s).result = s.result := rfl
@[simp] theorem endWipe_faA : (endWipe s).faA = s.faA := rfl
@[simp] theorem endWipe_faB : (endWipe s).faB = s.faB := rfl
@[simp] theorem endWipe_faW : (endWipe s).faW = s.faW := rfl
@[simp] theorem endWipe_engine : (endWipe s).engine = .idle := rfl
@[simp] theorem endWipe_arrivals : (endWipe s).arrivals = s.arrivals := rfl
@[simp] theorem endWipe_response : (endWipe s).response = s.response := rfl
@[simp] theorem endWipe_draws : (endWipe s).draws = s.draws := rfl

/-! ## `accept` -/

@[simp] theorem accept_mem (v : Word) : (accept v s).mem = s.mem := rfl
@[simp] theorem accept_ieDone (v : Word) : (accept v s).ieDone = s.ieDone := rfl
@[simp] theorem accept_ieErr (v : Word) : (accept v s).ieErr = s.ieErr := rfl
@[simp] theorem accept_done (v : Word) : (accept v s).done = false := rfl
@[simp] theorem accept_error (v : Word) : (accept v s).error = s.error := rfl
@[simp] theorem accept_cmd (v : Word) : (accept v s).cmd = s.cmd := rfl
@[simp] theorem accept_arg (v : Word) : (accept v s).arg = s.arg := rfl
@[simp] theorem accept_blen (v : Word) : (accept v s).blen = s.blen := rfl
@[simp] theorem accept_result (v : Word) : (accept v s).result = s.result := rfl
@[simp] theorem accept_faA (v : Word) : (accept v s).faA = s.faA := rfl
@[simp] theorem accept_faB (v : Word) : (accept v s).faB = s.faB := rfl
@[simp] theorem accept_faW (v : Word) : (accept v s).faW = s.faW := rfl
@[simp] theorem accept_engine (v : Word) : (accept v s).engine = .running v (capture s) .start := rfl
@[simp] theorem accept_arrivals (v : Word) : (accept v s).arrivals = s.arrivals := rfl
@[simp] theorem accept_response (v : Word) : (accept v s).response = s.response := rfl
@[simp] theorem accept_draws (v : Word) : (accept v s).draws = s.draws := rfl

/-! ## `reject` -/

@[simp] theorem reject_mem (code : ErrCode) : (reject code s).mem = s.mem := rfl
@[simp] theorem reject_ieDone (code : ErrCode) : (reject code s).ieDone = s.ieDone := rfl
@[simp] theorem reject_ieErr (code : ErrCode) : (reject code s).ieErr = s.ieErr := rfl
@[simp] theorem reject_done (code : ErrCode) : (reject code s).done = true := rfl
@[simp] theorem reject_error (code : ErrCode) : (reject code s).error = firstError s.error code := rfl
@[simp] theorem reject_cmd (code : ErrCode) : (reject code s).cmd = s.cmd := rfl
@[simp] theorem reject_arg (code : ErrCode) : (reject code s).arg = s.arg := rfl
@[simp] theorem reject_blen (code : ErrCode) : (reject code s).blen = s.blen := rfl
@[simp] theorem reject_result (code : ErrCode) : (reject code s).result = s.result := rfl
@[simp] theorem reject_faA (code : ErrCode) : (reject code s).faA = s.faA := rfl
@[simp] theorem reject_faB (code : ErrCode) : (reject code s).faB = s.faB := rfl
@[simp] theorem reject_faW (code : ErrCode) : (reject code s).faW = s.faW := rfl
@[simp] theorem reject_engine (code : ErrCode) : (reject code s).engine = s.engine := rfl
@[simp] theorem reject_arrivals (code : ErrCode) : (reject code s).arrivals = s.arrivals := rfl
@[simp] theorem reject_response (code : ErrCode) : (reject code s).response = s.response := rfl
@[simp] theorem reject_draws (code : ErrCode) : (reject code s).draws = s.draws := rfl

/-! ## `complete` -/

@[simp] theorem complete_mem : (complete s).mem = s.mem := rfl
@[simp] theorem complete_ieDone : (complete s).ieDone = s.ieDone := rfl
@[simp] theorem complete_ieErr : (complete s).ieErr = s.ieErr := rfl
@[simp] theorem complete_done : (complete s).done = true := rfl
@[simp] theorem complete_error : (complete s).error = s.error := rfl
@[simp] theorem complete_cmd : (complete s).cmd = s.cmd := rfl
@[simp] theorem complete_arg : (complete s).arg = s.arg := rfl
@[simp] theorem complete_blen : (complete s).blen = s.blen := rfl
@[simp] theorem complete_result : (complete s).result = s.result := rfl
@[simp] theorem complete_faA : (complete s).faA = s.faA := rfl
@[simp] theorem complete_faB : (complete s).faB = s.faB := rfl
@[simp] theorem complete_faW : (complete s).faW = s.faW := rfl
@[simp] theorem complete_engine : (complete s).engine = .idle := rfl
@[simp] theorem complete_arrivals : (complete s).arrivals = s.arrivals := rfl
@[simp] theorem complete_response : (complete s).response = s.response := rfl
@[simp] theorem complete_draws : (complete s).draws = s.draws := rfl

/-! ## `finish` -/

@[simp] theorem finish_mem (v : Word) : (finish v s).mem = s.mem := rfl
@[simp] theorem finish_ieDone (v : Word) : (finish v s).ieDone = s.ieDone := rfl
@[simp] theorem finish_ieErr (v : Word) : (finish v s).ieErr = s.ieErr := rfl
@[simp] theorem finish_done (v : Word) : (finish v s).done = true := rfl
@[simp] theorem finish_error (v : Word) : (finish v s).error = s.error := rfl
@[simp] theorem finish_cmd (v : Word) : (finish v s).cmd = s.cmd := rfl
@[simp] theorem finish_arg (v : Word) : (finish v s).arg = s.arg := rfl
@[simp] theorem finish_blen (v : Word) : (finish v s).blen = s.blen := rfl
@[simp] theorem finish_result (v : Word) : (finish v s).result = v := rfl
@[simp] theorem finish_faA (v : Word) : (finish v s).faA = s.faA := rfl
@[simp] theorem finish_faB (v : Word) : (finish v s).faB = s.faB := rfl
@[simp] theorem finish_faW (v : Word) : (finish v s).faW = s.faW := rfl
@[simp] theorem finish_engine (v : Word) : (finish v s).engine = .idle := rfl
@[simp] theorem finish_arrivals (v : Word) : (finish v s).arrivals = s.arrivals := rfl
@[simp] theorem finish_response (v : Word) : (finish v s).response = s.response := rfl
@[simp] theorem finish_draws (v : Word) : (finish v s).draws = s.draws := rfl

/-! ## `served` -/

@[simp] theorem served_mem : (served s).mem = s.mem := rfl
@[simp] theorem served_ieDone : (served s).ieDone = s.ieDone := rfl
@[simp] theorem served_ieErr : (served s).ieErr = s.ieErr := rfl
@[simp] theorem served_done : (served s).done = s.done := rfl
@[simp] theorem served_error : (served s).error = s.error := rfl
@[simp] theorem served_cmd : (served s).cmd = s.cmd := rfl
@[simp] theorem served_arg : (served s).arg = s.arg := rfl
@[simp] theorem served_blen : (served s).blen = s.blen := rfl
@[simp] theorem served_result : (served s).result = s.result := rfl
@[simp] theorem served_faA : (served s).faA = s.faA := rfl
@[simp] theorem served_faB : (served s).faB = s.faB := rfl
@[simp] theorem served_faW : (served s).faW = s.faW := rfl
@[simp] theorem served_engine : (served s).engine = s.engine := rfl
@[simp] theorem served_arrivals : (served s).arrivals = s.arrivals.tail := rfl
@[simp] theorem served_response : (served s).response = s.response := rfl
@[simp] theorem served_draws : (served s).draws = s.draws := rfl

/-! ## `suniUnfinished` -/

@[simp] theorem suniUnfinished_mem (d : SlotNo) (smp : Sampling) : (suniUnfinished d smp s).mem = s.mem := rfl
@[simp] theorem suniUnfinished_ieDone (d : SlotNo) (smp : Sampling) : (suniUnfinished d smp s).ieDone = s.ieDone := rfl
@[simp] theorem suniUnfinished_ieErr (d : SlotNo) (smp : Sampling) : (suniUnfinished d smp s).ieErr = s.ieErr := rfl
@[simp] theorem suniUnfinished_done (d : SlotNo) (smp : Sampling) : (suniUnfinished d smp s).done = s.done := rfl
@[simp] theorem suniUnfinished_error (d : SlotNo) (smp : Sampling) : (suniUnfinished d smp s).error = s.error := rfl
@[simp] theorem suniUnfinished_cmd (d : SlotNo) (smp : Sampling) : (suniUnfinished d smp s).cmd = s.cmd := rfl
@[simp] theorem suniUnfinished_arg (d : SlotNo) (smp : Sampling) : (suniUnfinished d smp s).arg = s.arg := rfl
@[simp] theorem suniUnfinished_blen (d : SlotNo) (smp : Sampling) : (suniUnfinished d smp s).blen = s.blen := rfl
@[simp] theorem suniUnfinished_result (d : SlotNo) (smp : Sampling) : (suniUnfinished d smp s).result = s.result := rfl
@[simp] theorem suniUnfinished_faA (d : SlotNo) (smp : Sampling) : (suniUnfinished d smp s).faA = s.faA := rfl
@[simp] theorem suniUnfinished_faB (d : SlotNo) (smp : Sampling) : (suniUnfinished d smp s).faB = s.faB := rfl
@[simp] theorem suniUnfinished_faW (d : SlotNo) (smp : Sampling) : (suniUnfinished d smp s).faW = s.faW := rfl
@[simp] theorem suniUnfinished_engine (d : SlotNo) (smp : Sampling) : (suniUnfinished d smp s).engine = .running (encode (.suni d)) (operands s) smp := rfl
@[simp] theorem suniUnfinished_arrivals (d : SlotNo) (smp : Sampling) : (suniUnfinished d smp s).arrivals = s.arrivals := rfl
@[simp] theorem suniUnfinished_response (d : SlotNo) (smp : Sampling) : (suniUnfinished d smp s).response = s.response := rfl
@[simp] theorem suniUnfinished_draws (d : SlotNo) (smp : Sampling) : (suniUnfinished d smp s).draws = s.draws := rfl

/-! ## `loadCommand` -/

@[simp] theorem loadCommand_mem (v : Word) : (loadCommand v s).mem = s.mem := rfl
@[simp] theorem loadCommand_ieDone (v : Word) : (loadCommand v s).ieDone = s.ieDone := rfl
@[simp] theorem loadCommand_ieErr (v : Word) : (loadCommand v s).ieErr = s.ieErr := rfl
@[simp] theorem loadCommand_done (v : Word) : (loadCommand v s).done = false := rfl
@[simp] theorem loadCommand_error (v : Word) : (loadCommand v s).error = s.error := rfl
@[simp] theorem loadCommand_cmd (v : Word) : (loadCommand v s).cmd = v := rfl
@[simp] theorem loadCommand_arg (v : Word) : (loadCommand v s).arg = s.arg := rfl
@[simp] theorem loadCommand_blen (v : Word) : (loadCommand v s).blen = s.blen := rfl
@[simp] theorem loadCommand_result (v : Word) : (loadCommand v s).result = s.result := rfl
@[simp] theorem loadCommand_faA (v : Word) : (loadCommand v s).faA = s.faA := rfl
@[simp] theorem loadCommand_faB (v : Word) : (loadCommand v s).faB = s.faB := rfl
@[simp] theorem loadCommand_faW (v : Word) : (loadCommand v s).faW = s.faW := rfl
@[simp] theorem loadCommand_engine (v : Word) : (loadCommand v s).engine = .running v (capture s) .start := rfl
@[simp] theorem loadCommand_arrivals (v : Word) : (loadCommand v s).arrivals = .blockStep :: s.arrivals := rfl
@[simp] theorem loadCommand_response (v : Word) : (loadCommand v s).response = s.response := rfl
@[simp] theorem loadCommand_draws (v : Word) : (loadCommand v s).draws = s.draws := rfl

end Sys2Proof.Machine
end

