-- ==== Sys2Proof/Laws/Ops.lean ====
section
/-! SUPPORT. What each shared operation of the meanings can do, said once. -/

namespace Sys2Proof.Machine

/-! ## Range checks -/

theorem below_iff {lim : Nat} {f : Poly} : below lim f = true ↔ ∀ v ∈ f, v < lim := by
  simp [below]

theorem below_lanes {lim : Nat} {g : Nat → Nat} : below lim (lanes g) = true ↔ ∀ i, i < 256 → g i < lim := by
  simp [below, lanes, Config.N]

/-- A slot among the operands passes a range check exactly when each of its lanes does. -/
theorem below_poly {lim : Nat} {o : Operands} {p : SlotNo} :
    below lim (o.poly p) = true ↔ o.slotBelow p lim := by
  unfold Operands.poly Memory.poly Operands.slotBelow Operands.lane
  exact below_lanes

theorem canonical_poly {o : Operands} {p : SlotNo} : canonical (o.poly p) = true ↔ o.slotBelow p 3329 :=
  below_poly

@[simp] theorem Operands.poly_length (o : Operands) (p : SlotNo) : (o.poly p).length = 256 := lanes_length _

@[simp] theorem Operands.poly_at (o : Operands) (p : SlotNo) {i : Nat} (h : i < 256) :
    (o.poly p).at i = o.lane p i := by
  unfold Operands.poly Memory.poly
  exact lanes_at _ h

theorem Operands.poly_eq (o : Operands) (p : SlotNo) : o.poly p = (List.range 256).map (o.lane p) := rfl

@[simp] theorem zipLanes_at (g : Nat → Nat → Nat) (x y : Poly) {i : Nat} (h : i < 256) :
    (zipLanes g x y).at i = g (x.at i) (y.at i) := lanes_at _ h

@[simp] theorem mapLanes_at (g : Nat → Nat) (x : Poly) {i : Nat} (h : i < 256) :
    (mapLanes g x).at i = g (x.at i) := lanes_at _ h

/-! ## Where operands come from -/

@[simp] theorem operands_of_idle {s : State} (h : s.engine = .idle) : operands s = capture s := by
  simp [operands, h]

@[simp] theorem operands_of_running {s : State} {v : Word} {ops : Operands} {smp : Sampling}
    (h : s.engine = .running v ops smp) : operands s = ops := by
  simp [operands, h]

theorem capture_mem (s : State) : (capture s).mem = s.mem := rfl

theorem capture_lane (s : State) (p : SlotNo) (i : Nat) : (capture s).lane p i = s.lane p i := rfl

/-- `BUSY` is 0 exactly when the engine is idle (rule R27). -/
theorem busy_eq_false_iff (s : State) : s.busy = false ↔ s.engine = .idle := by
  unfold State.busy
  cases s.engine <;> simp

/-! ## Errors -/

theorem raised_of_firstError {code : ErrCode} {s t : State} (h : t.error = firstError s.error code) :
    Raised code s t := by
  unfold Raised
  rw [h]
  cases s.error <;> rfl

theorem firstError_of_some {c : ErrCode} (code : ErrCode) : firstError (some c) code = some c := rfl

theorem firstError_of_none (code : ErrCode) : firstError none code = some code := rfl

/-! ## Frames -/

theorem SameControls.refl (s : State) : SameControls s s := ⟨rfl, rfl, rfl, rfl, rfl, rfl, rfl, rfl, rfl⟩

theorem sameOutside_write (m : Memory) (x : Nat) (vs : List Byte) (n : Nat) (h : vs.length ≤ n) (y : Nat)
    (hy : y < x ∨ x + n ≤ y) : (m.write x vs).read y = m.read y :=
  Memory.read_write_of_outside (by omega)

/-! ## Completion of a scalar command -/

/-- All a scalar command's completion can do (rules R103–R108, R201, R205). -/
theorem finishScalar_spec (ok : Bool) (v : Nat) (s : State) :
    Completed (finishScalar ok v s) ∧ SameControls s (finishScalar ok v s) ∧
      SameMemory s (finishScalar ok v s) ∧ (finishScalar ok v s).blen = s.blen ∧
      (ok = true → (finishScalar ok v s).result = BitVec.ofNat 32 v ∧ NoError s (finishScalar ok v s) ∧
        (finishScalar ok v s).draws = s.draws) ∧
      (ok = false → (finishScalar ok v s).result = Config.freeWord s.draws ∧
        Raised .range s (finishScalar ok v s) ∧ s.draws < (finishScalar ok v s).draws) := by
  cases ok
  · refine ⟨⟨rfl, rfl⟩, ⟨rfl, rfl, rfl, rfl, rfl, rfl, rfl, rfl, rfl⟩, fun _ => rfl, rfl, by simp, fun _ => ?_⟩
    exact ⟨rfl, raised_of_firstError rfl, Nat.lt_succ_self _⟩
  · refine ⟨⟨rfl, rfl⟩, ⟨rfl, rfl, rfl, rfl, rfl, rfl, rfl, rfl, rfl⟩, fun _ => rfl, rfl, fun _ => ?_, by simp⟩
    exact ⟨rfl, rfl, rfl⟩

/-! ## Completion of a polynomial command -/

/-- All a polynomial command's completion can do (rules R109, R201, R205). -/
theorem finishPoly_spec (ok : Bool) (d : SlotNo) (f : Poly) (s : State) :
    Completed (finishPoly ok d f s) ∧ SameControls s (finishPoly ok d f s) ∧
      SameOutside (slotBase d) 512 s (finishPoly ok d f s) ∧ (finishPoly ok d f s).blen = s.blen ∧
      (finishPoly ok d f s).result = 0#32 ∧
      (ok = true → (∀ i, i < 256 → (finishPoly ok d f s).mem.coeff d i = BitVec.ofNat 16 (f.at i)) ∧
        NoError s (finishPoly ok d f s) ∧ (finishPoly ok d f s).draws = s.draws) ∧
      (ok = false → (∀ i, i < 256 → (finishPoly ok d f s).mem.coeff d i = Config.freeCoeff s.draws i) ∧
        Raised .range s (finishPoly ok d f s) ∧ s.draws < (finishPoly ok d f s).draws) := by
  cases ok
  · refine ⟨⟨rfl, rfl⟩, ⟨rfl, rfl, rfl, rfl, rfl, rfl, rfl, rfl, rfl⟩,
      fun y hy => Memory.read_setPoly_of_outside hy, rfl, rfl, by simp, fun _ => ⟨fun i hi => ?_, ?_, ?_⟩⟩
    · have h : (finishPoly false d f s).mem =
          s.mem.setPoly d (lanes fun i => (Config.freeCoeff s.draws i).toNat) := rfl
      rw [h, Memory.coeff_setPoly _ _ _ _ hi, if_pos rfl, lanes_at _ hi]
      simp
    · exact raised_of_firstError rfl
    · exact Nat.lt_succ_self _
  · refine ⟨⟨rfl, rfl⟩, ⟨rfl, rfl, rfl, rfl, rfl, rfl, rfl, rfl, rfl⟩,
      fun y hy => Memory.read_setPoly_of_outside hy, rfl, rfl, fun _ => ⟨fun i hi => ?_, rfl, rfl⟩, by simp⟩
    have h : (finishPoly true d f s).mem = s.mem.setPoly d f := rfl
    rw [h, Memory.coeff_setPoly _ _ _ _ hi, if_pos rfl]

/-- A lane that holds a value below `2^16` reads as that value. -/
theorem lane_of_coeff {t : State} {d : SlotNo} {i v : Nat} (h : t.mem.coeff d i = BitVec.ofNat 16 v)
    (hv : v < 65536) : t.lane d i = v := by
  unfold State.lane
  rw [h, BitVec.toNat_ofNat, Nat.mod_eq_of_lt (by omega)]

/-! ## Arithmetic -/

theorem addMod_lt (x y : Nat) : addMod x y < 3329 := Nat.mod_lt _ (by decide)
theorem subMod_lt (x y : Nat) : subMod x y < 3329 := Nat.mod_lt _ (by decide)
theorem mulMod_lt (x y : Nat) : mulMod x y < 3329 := Nat.mod_lt _ (by decide)

/-- `subMod` is the integer difference reduced to `[0, Q)` (rule R13). -/
theorem subMod_eq_intMod (x y : Nat) : subMod x y = intMod ((x : Int) - y) := by
  unfold subMod intMod Config.Q
  omega

end Sys2Proof.Machine
end

