-- ==== Sys2Proof/Laws/Bus.lean ====
section
/-! SUPPORT. The register map: which offsets it lists, what an access to a listed one does, and what any
access can do. -/

namespace Sys2Proof.Machine

/-! ## The map -/

/-- The map, case by case (rule R20). -/
theorem locate_cases (x : Nat) :
    (x = 0x000 ∧ locate x = some .id) ∨
    (x = 0x004 ∧ locate x = some .ctrl) ∨
    (x = 0x008 ∧ locate x = some .status) ∨
    (x = 0x00C ∧ locate x = some .cmd) ∨
    (x = 0x010 ∧ locate x = some .arg) ∨
    (x = 0x014 ∧ locate x = some .blen) ∨
    (x = 0x018 ∧ locate x = some .result) ∨
    (x = 0x020 ∧ locate x = some .faA) ∨
    (x = 0x024 ∧ locate x = some .faB) ∨
    (x = 0x028 ∧ locate x = some .faW) ∨
    ((0x040 ≤ x ∧ x < 0x060) ∧ locate x = some (.seed x)) ∨
    ((0x400 ≤ x ∧ x < 0x580) ∧ locate x = some (.buffer x)) ∨
    ((0x800 ≤ x ∧ x < 0xA00) ∧ locate x = some (.zeta ((x - 0x800) / 4))) ∨
    ((0xA00 ≤ x ∧ x < 0xC00) ∧ locate x = some (.gamma ((x - 0xA00) / 4))) ∨
    ((0x2000 ≤ x ∧ x < 0x4000) ∧ locate x = some (.buffer x)) ∨
    (x ≠ 0x000 ∧ x ≠ 0x004 ∧ x ≠ 0x008 ∧ x ≠ 0x00C ∧ x ≠ 0x010 ∧ x ≠ 0x014 ∧ x ≠ 0x018 ∧ x ≠ 0x020 ∧
      x ≠ 0x024 ∧
      x ≠ 0x028 ∧ ¬(0x040 ≤ x ∧ x < 0x060) ∧ ¬(0x400 ≤ x ∧ x < 0x580) ∧ ¬(0x800 ≤ x ∧ x < 0xC00) ∧
      ¬(0x2000 ≤ x ∧ x < 0x4000)) ∧ locate x = none := by
  by_cases h0 : x = 0x000
  · refine .inl ⟨h0, ?_⟩
    unfold locate
    rw [if_pos h0]
  by_cases h1 : x = 0x004
  · refine .inr (.inl ⟨h1, ?_⟩)
    unfold locate
    rw [if_neg h0, if_pos h1]
  by_cases h2 : x = 0x008
  · refine .inr (.inr (.inl ⟨h2, ?_⟩))
    unfold locate
    rw [if_neg h0, if_neg h1, if_pos h2]
  by_cases h3 : x = 0x00C
  · refine .inr (.inr (.inr (.inl ⟨h3, ?_⟩)))
    unfold locate
    rw [if_neg h0, if_neg h1, if_neg h2, if_pos h3]
  by_cases h4 : x = 0x010
  · refine .inr (.inr (.inr (.inr (.inl ⟨h4, ?_⟩))))
    unfold locate
    rw [if_neg h0, if_neg h1, if_neg h2, if_neg h3, if_pos h4]
  by_cases h5 : x = 0x014
  · refine .inr (.inr (.inr (.inr (.inr (.inl ⟨h5, ?_⟩)))))
    unfold locate
    rw [if_neg h0, if_neg h1, if_neg h2, if_neg h3, if_neg h4, if_pos h5]
  by_cases h6 : x = 0x018
  · refine .inr (.inr (.inr (.inr (.inr (.inr (.inl ⟨h6, ?_⟩))))))
    unfold locate
    rw [if_neg h0, if_neg h1, if_neg h2, if_neg h3, if_neg h4, if_neg h5, if_pos h6]
  by_cases h7 : x = 0x020
  · refine .inr (.inr (.inr (.inr (.inr (.inr (.inr (.inl ⟨h7, ?_⟩)))))))
    unfold locate
    rw [if_neg h0, if_neg h1, if_neg h2, if_neg h3, if_neg h4, if_neg h5, if_neg h6, if_pos h7]
  by_cases h8 : x = 0x024
  · refine .inr (.inr (.inr (.inr (.inr (.inr (.inr (.inr (.inl ⟨h8, ?_⟩))))))))
    unfold locate
    rw [if_neg h0, if_neg h1, if_neg h2, if_neg h3, if_neg h4, if_neg h5, if_neg h6, if_neg h7,
      if_pos h8]
  by_cases h9 : x = 0x028
  · refine .inr (.inr (.inr (.inr (.inr (.inr (.inr (.inr (.inr (.inl ⟨h9, ?_⟩)))))))))
    unfold locate
    rw [if_neg h0, if_neg h1, if_neg h2, if_neg h3, if_neg h4, if_neg h5, if_neg h6, if_neg h7,
      if_neg h8, if_pos h9]
  by_cases h10 : 0x040 ≤ x ∧ x < 0x060
  · refine .inr (.inr (.inr (.inr (.inr (.inr (.inr (.inr (.inr (.inr (.inl ⟨h10, ?_⟩))))))))))
    unfold locate
    rw [if_neg h0, if_neg h1, if_neg h2, if_neg h3, if_neg h4, if_neg h5, if_neg h6, if_neg h7,
      if_neg h8, if_neg h9, if_pos h10]
  by_cases h11 : 0x400 ≤ x ∧ x < 0x580
  · refine .inr (.inr (.inr (.inr (.inr (.inr (.inr (.inr (.inr (.inr (.inr (.inl ⟨h11, ?_⟩)))))))))))
    unfold locate
    rw [if_neg h0, if_neg h1, if_neg h2, if_neg h3, if_neg h4, if_neg h5, if_neg h6, if_neg h7,
      if_neg h8, if_neg h9, if_neg h10, if_pos h11]
  by_cases h12 : 0x800 ≤ x ∧ x < 0xA00
  · refine .inr (.inr (.inr (.inr (.inr (.inr (.inr (.inr (.inr (.inr (.inr (.inr (.inl ⟨h12,
    ?_⟩))))))))))))
    unfold locate
    rw [if_neg h0, if_neg h1, if_neg h2, if_neg h3, if_neg h4, if_neg h5, if_neg h6, if_neg h7,
      if_neg h8, if_neg h9, if_neg h10, if_neg h11, if_pos h12]
  by_cases h13 : 0xA00 ≤ x ∧ x < 0xC00
  · refine .inr (.inr (.inr (.inr (.inr (.inr (.inr (.inr (.inr (.inr (.inr (.inr (.inr (.inl ⟨h13,
    ?_⟩)))))))))))))
    unfold locate
    rw [if_neg h0, if_neg h1, if_neg h2, if_neg h3, if_neg h4, if_neg h5, if_neg h6, if_neg h7,
      if_neg h8, if_neg h9, if_neg h10, if_neg h11, if_neg h12, if_pos h13]
  by_cases h14 : 0x2000 ≤ x ∧ x < 0x4000
  · refine .inr (.inr (.inr (.inr (.inr (.inr (.inr (.inr (.inr (.inr (.inr (.inr (.inr (.inr (.inl
    ⟨h14, ?_⟩))))))))))))))
    unfold locate
    rw [if_neg h0, if_neg h1, if_neg h2, if_neg h3, if_neg h4, if_neg h5, if_neg h6, if_neg h7,
      if_neg h8, if_neg h9, if_neg h10, if_neg h11, if_neg h12, if_neg h13, if_pos h14]
  refine .inr (.inr (.inr (.inr (.inr (.inr (.inr (.inr (.inr (.inr (.inr (.inr (.inr (.inr (.inr
    ⟨by omega, ?_⟩))))))))))))))
  unfold locate
  rw [if_neg h0, if_neg h1, if_neg h2, if_neg h3, if_neg h4, if_neg h5, if_neg h6, if_neg h7, if_neg
    h8, if_neg h9, if_neg h10, if_neg h11, if_neg h12, if_neg h13, if_neg h14]

/-- The map lists nothing exactly at the offsets rule R63 enumerates. -/
theorem locate_eq_none_iff {x : Nat} (h : x % 4 = 0) : locate x = none ↔ unlistedOffset x = true := by
  have hu : unlistedOffset x = true ↔ x = 0x01C ∨ (0x02C ≤ x ∧ x ≤ 0x03C) ∨ (0x060 ≤ x ∧ x ≤ 0x3FC) ∨
      (0x580 ≤ x ∧ x ≤ 0x7FC) ∨ (0xC00 ≤ x ∧ x ≤ 0x1FFC) ∨ 0x4000 ≤ x := by
    simp only [unlistedOffset, Bool.or_eq_true, Bool.and_eq_true, beq_iff_eq, decide_eq_true_eq, or_assoc]
    rfl
  rw [hu]
  rcases locate_cases x with ⟨c, e⟩ | ⟨c, e⟩ | ⟨c, e⟩ | ⟨c, e⟩ | ⟨c, e⟩ | ⟨c, e⟩ | ⟨c, e⟩ | ⟨c, e⟩ |
    ⟨c, e⟩ | ⟨c, e⟩ | ⟨c, e⟩ | ⟨c, e⟩ | ⟨c, e⟩ | ⟨c, e⟩ | ⟨c, e⟩ | ⟨c, e⟩
  all_goals
    rw [e]
    first
      | (refine iff_of_false (by simp) ?_; omega)
      | (refine iff_of_true rfl ?_; omega)

theorem locate_seed {x : Nat} (h : 0x40 ≤ x ∧ x < 0x60) : locate x = some (.seed x) := by
  rcases locate_cases x with ⟨c, e⟩ | ⟨c, e⟩ | ⟨c, e⟩ | ⟨c, e⟩ | ⟨c, e⟩ | ⟨c, e⟩ | ⟨c, e⟩ | ⟨c, e⟩ |
    ⟨c, e⟩ | ⟨c, e⟩ | ⟨c, e⟩ | ⟨c, e⟩ | ⟨c, e⟩ | ⟨c, e⟩ | ⟨c, e⟩ | ⟨c, e⟩ <;> first | exact e | omega

theorem locate_bbuf {x : Nat} (h : 0x400 ≤ x ∧ x < 0x580) : locate x = some (.buffer x) := by
  rcases locate_cases x with ⟨c, e⟩ | ⟨c, e⟩ | ⟨c, e⟩ | ⟨c, e⟩ | ⟨c, e⟩ | ⟨c, e⟩ | ⟨c, e⟩ | ⟨c, e⟩ |
    ⟨c, e⟩ | ⟨c, e⟩ | ⟨c, e⟩ | ⟨c, e⟩ | ⟨c, e⟩ | ⟨c, e⟩ | ⟨c, e⟩ | ⟨c, e⟩ <;> first | exact e | omega

theorem locate_slots {x : Nat} (h : 0x2000 ≤ x ∧ x < 0x4000) : locate x = some (.buffer x) := by
  rcases locate_cases x with ⟨c, e⟩ | ⟨c, e⟩ | ⟨c, e⟩ | ⟨c, e⟩ | ⟨c, e⟩ | ⟨c, e⟩ | ⟨c, e⟩ | ⟨c, e⟩ |
    ⟨c, e⟩ | ⟨c, e⟩ | ⟨c, e⟩ | ⟨c, e⟩ | ⟨c, e⟩ | ⟨c, e⟩ | ⟨c, e⟩ | ⟨c, e⟩ <;> first | exact e | omega

theorem locate_zeta {x : Nat} (h : 0x800 ≤ x ∧ x < 0xA00) : locate x = some (.zeta ((x - 0x800) /
  4)) := by
  rcases locate_cases x with ⟨c, e⟩ | ⟨c, e⟩ | ⟨c, e⟩ | ⟨c, e⟩ | ⟨c, e⟩ | ⟨c, e⟩ | ⟨c, e⟩ | ⟨c, e⟩ |
    ⟨c, e⟩ | ⟨c, e⟩ | ⟨c, e⟩ | ⟨c, e⟩ | ⟨c, e⟩ | ⟨c, e⟩ | ⟨c, e⟩ | ⟨c, e⟩ <;> first | exact e | omega

theorem locate_gamma {x : Nat} (h : 0xA00 ≤ x ∧ x < 0xC00) : locate x = some (.gamma ((x - 0xA00) /
  4)) := by
  rcases locate_cases x with ⟨c, e⟩ | ⟨c, e⟩ | ⟨c, e⟩ | ⟨c, e⟩ | ⟨c, e⟩ | ⟨c, e⟩ | ⟨c, e⟩ | ⟨c, e⟩ |
    ⟨c, e⟩ | ⟨c, e⟩ | ⟨c, e⟩ | ⟨c, e⟩ | ⟨c, e⟩ | ⟨c, e⟩ | ⟨c, e⟩ | ⟨c, e⟩ <;> first | exact e | omega

/-- Where each location of the map stands. -/
theorem locate_eq_some {x : Nat} {l : Location} (h : locate x = some l) :
    match l with
    | .id => x = 0x000
    | .ctrl => x = 0x004
    | .status => x = 0x008
    | .cmd => x = 0x00C
    | .arg => x = 0x010
    | .blen => x = 0x014
    | .result => x = 0x018
    | .faA => x = 0x020
    | .faB => x = 0x024
    | .faW => x = 0x028
    | .seed y => x = y ∧ 0x40 ≤ x ∧ x < 0x60
    | .buffer y => x = y ∧ ((0x400 ≤ x ∧ x < 0x580) ∨ (0x2000 ≤ x ∧ x < 0x4000))
    | .zeta i => i = (x - 0x800) / 4 ∧ 0x800 ≤ x ∧ x < 0xA00
    | .gamma i => i = (x - 0xA00) / 4 ∧ 0xA00 ≤ x ∧ x < 0xC00 := by
  rcases locate_cases x with ⟨c, e⟩ | ⟨c, e⟩ | ⟨c, e⟩ | ⟨c, e⟩ | ⟨c, e⟩ | ⟨c, e⟩ | ⟨c, e⟩ | ⟨c, e⟩ |
    ⟨c, e⟩ | ⟨c, e⟩ | ⟨c, e⟩ | ⟨c, e⟩ | ⟨c, e⟩ | ⟨c, e⟩ | ⟨c, e⟩ | ⟨c, e⟩ <;>
    rw [e] at h <;> cases h <;> first | exact c | exact ⟨rfl, c⟩ | exact ⟨rfl, .inl c⟩ | exact ⟨rfl,
      .inr c⟩

/-! ## Accesses to listed offsets -/

theorem busAccess_read {x : Nat} {l : Location} (hx : x % 4 = 0) (h : locate x = some l) (s : State) :
    busAccess (.read x 4) s = .next (readLocation l s) := by
  unfold busAccess
  simp only [ne_eq, not_true_eq_false, if_false, hx, h]

theorem busAccess_write {x : Nat} {l : Location} (hx : x % 4 = 0) (h : locate x = some l) (v : Word) {s t : State}
    (hw : writeLocation l v s = some t) :
    busAccess (.write x 4 v) s = .next { t with response := .written } := by
  unfold busAccess
  simp only [ne_eq, not_true_eq_false, if_false, hx, h, hw]

/-- A read the location shows: the answer is its value, nothing else changes (rule R65). -/
theorem readLocation_of_readable {l : Location} {s : State} (h : readable l s = true) :
    readLocation l s = { s with response := .data (valueAt l s) } := if_pos h

/-- A read the location does not show: a free value, freshly drawn (rule R66). -/
theorem readLocation_of_hidden {l : Location} {s : State} (h : readable l s = false) :
    readLocation l s = { s with response := .data (Config.freeWord s.draws), draws := s.draws + 1 } :=
  if_neg (by simp [h])

theorem writeOperand_of_idle {store s : State} (h : s.busy = false) : writeOperand store s = store :=
  if_neg (by simp [h])

theorem writeOperand_of_busy {store s : State} (h : s.busy = true) :
    writeOperand store s = raiseError .access s := if_pos h

/-- A location refuses every write exactly where rule R63 says it is read-only. -/
theorem writeLocation_eq_none_iff {x : Nat} {l : Location} (h : locate x = some l) (v : Word) (s : State) :
    writeLocation l v s = none ↔ readOnlyOffset x = true := by
  have hx := locate_eq_some h
  simp only [readOnlyOffset, Bool.or_eq_true, Bool.and_eq_true, beq_iff_eq, decide_eq_true_eq]
  cases l <;> simp only [writeLocation, reduceCtorEq, true_iff, false_iff] at hx ⊢ <;> omega

/-! ## What any access can do -/

/-- A served read changes nothing but the answer and the count of free values (rule R65). -/
theorem readLocation_frame (l : Location) (s : State) :
    readLocation l s = { s with response := (readLocation l s).response, draws := (readLocation l s).draws } := by
  unfold readLocation
  split <;> rfl

/-- What a served host access can be: a read or a write of a listed location. -/
theorem busAccess_next {a : BusAccess} {s t : State} (h : busAccess a s = .next t) :
    (∃ x l, a = .read x 4 ∧ x % 4 = 0 ∧ locate x = some l ∧ t = readLocation l s) ∨
    (∃ x l v s', a = .write x 4 v ∧ x % 4 = 0 ∧ locate x = some l ∧ writeLocation l v s = some s' ∧
      t = { s' with response := .written }) := by
  unfold busAccess at h
  split at h
  · rename_i x n
    split at h
    · cases h
    rename_i hn
    split at h
    · cases h
    rename_i hx
    split at h
    · cases h
    · rename_i l hl
      cases h
      obtain rfl : n = 4 := by omega
      exact .inl ⟨x, l, rfl, by omega, hl, rfl⟩
  · rename_i x n v
    split at h
    · cases h
    rename_i hn
    split at h
    · cases h
    rename_i hx
    split at h
    · cases h
    · rename_i l hl
      split at h
      · cases h
      · rename_i s' hs
        cases h
        obtain rfl : n = 4 := by omega
        exact .inr ⟨x, l, v, s', rfl, by omega, hl, hs, rfl⟩

/-! ## Issue -/

theorem firstError_eq (held : Option ErrCode) (code : ErrCode) : firstError held code = some (held.getD code) := rfl

theorem lengthLegal_of_not_dec {i : Instr} (h : ∀ d w, i ≠ .dec d w) (blen : Half) : lengthLegal i blen = true := by
  cases i <;> first | rfl | exact absurd rfl (h _ _)

theorem lengthLegal_dec (d : SlotNo) (w : Nat) (blen : Half) :
    lengthLegal (.dec d w) blen = true ↔ blen.toNat = 32 * w := by
  simp [lengthLegal, neededLength, packedLength]

/-- What an issue can be: a rejection, or an acceptance after all checks (rule R204). -/
theorem issue_cases (v : Word) (s : State) :
    (∃ code, issue v s = reject code s) ∨
    (∃ i, decode v = .ok i ∧ lengthLegal i s.blen = true ∧ issue v s = accept v s) := by
  unfold issue
  split
  · exact .inl ⟨_, rfl⟩
  · rename_i i hi
    split
    · rename_i hl
      exact .inr ⟨i, hi, hl, rfl⟩
    · exact .inl ⟨_, rfl⟩

/-- What a write to `CMD` can be (rules R28, R203, R204). -/
theorem writeCmd_cases (v : Word) (s : State) :
    (s.busy = true ∧ writeCmd v s = raiseError .busy { s with cmd := v }) ∨
    (s.busy = false ∧ ∃ code, writeCmd v s = reject code { s with cmd := v }) ∨
    (s.busy = false ∧ ∃ i, decode v = .ok i ∧ lengthLegal i s.blen = true ∧
      writeCmd v s = accept v { s with cmd := v }) := by
  unfold writeCmd
  by_cases hb : s.busy = true
  · exact .inl ⟨hb, if_pos hb⟩
  · have hb' : s.busy = false := by simpa using hb
    simp only [hb', Bool.false_eq_true, if_false, true_and, false_and, false_or]
    exact issue_cases v { s with cmd := v }

/-- What a write that a location admits can be (rules R26–R34, R66). -/
theorem writeLocation_cases {l : Location} {v : Word} {s t : State} (h : writeLocation l v s = some t) :
    (l = .ctrl ∧ t = writeCtrl v s) ∨ (l = .status ∧ t = acknowledge v s) ∨ (l = .cmd ∧ t = writeCmd v s) ∨
    (s.busy = true ∧ t = raiseError .access s) ∨
    (s.busy = false ∧ ∃ arg blen faA faB faW,
      t = { s with arg := arg, blen := blen, faA := faA, faB := faB, faW := faW }) ∨
    (s.busy = false ∧ ∃ x, (l = .seed x ∨ l = .buffer x) ∧ t = { s with mem := s.mem.setWord x v }) := by
  by_cases hb : s.busy = true
  · cases l <;> simp only [writeLocation, Option.some.injEq, reduceCtorEq] at h <;> subst h
    · exact .inl ⟨rfl, rfl⟩
    · exact .inr (.inl ⟨rfl, rfl⟩)
    · exact .inr (.inr (.inl ⟨rfl, rfl⟩))
    all_goals exact .inr (.inr (.inr (.inl ⟨hb, writeOperand_of_busy hb⟩)))
  · have hb' : s.busy = false := by simpa using hb
    cases l <;> simp only [writeLocation, Option.some.injEq, reduceCtorEq] at h <;> subst h
    · exact .inl ⟨rfl, rfl⟩
    · exact .inr (.inl ⟨rfl, rfl⟩)
    · exact .inr (.inr (.inl ⟨rfl, rfl⟩))
    · exact .inr (.inr (.inr (.inr (.inl ⟨hb', _, _, _, _, _, writeOperand_of_idle hb'⟩))))
    · exact .inr (.inr (.inr (.inr (.inl ⟨hb', _, _, _, _, _, writeOperand_of_idle hb'⟩))))
    · exact .inr (.inr (.inr (.inr (.inl ⟨hb', _, _, _, _, _, writeOperand_of_idle hb'⟩))))
    · exact .inr (.inr (.inr (.inr (.inl ⟨hb', _, _, _, _, _, writeOperand_of_idle hb'⟩))))
    · exact .inr (.inr (.inr (.inr (.inl ⟨hb', _, _, _, _, _, writeOperand_of_idle hb'⟩))))
    · exact .inr (.inr (.inr (.inr (.inr ⟨hb', _, .inl rfl, writeOperand_of_idle hb'⟩))))
    · exact .inr (.inr (.inr (.inr (.inr ⟨hb', _, .inr rfl, writeOperand_of_idle hb'⟩))))

end Sys2Proof.Machine
end

