-- ==== Sys2Proof/Laws/Codec.lean ====
section
/-! SUPPORT. The codec: bits of packed strings, and packing and unpacking undoing each other. -/

namespace Sys2Proof.Machine

/-! ## Sums of bits -/

/-- A number written in `n` bits is below `2^n`. -/
theorem bitSum_lt (g : Nat → Nat) (n : Nat) (h : ∀ m, m < n → g m < 2) :
    ((List.range n).map fun m => g m * 2 ^ m).sum < 2 ^ n := by
  induction n with
  | zero => simp
  | succ n ih =>
    rw [List.range_succ, List.map_append, List.sum_append]
    have h1 := ih (fun m hm => h m (by omega))
    have h2 := h n (by omega)
    simp only [List.map_cons, List.map_nil, List.sum_cons, List.sum_nil, Nat.add_zero, pow_succ]
    have : g n * 2 ^ n ≤ 1 * 2 ^ n := Nat.mul_le_mul_right _ (by omega)
    omega

/-- Bit `m` of a number written in `n` bits. -/
theorem bitSum_bit (g : Nat → Nat) (n : Nat) (h : ∀ m, m < n → g m < 2) {m : Nat} (hm : m < n) :
    (((List.range n).map fun m => g m * 2 ^ m).sum >>> m) % 2 = g m := by
  induction n with
  | zero => omega
  | succ n ih =>
    rw [List.range_succ, List.map_append, List.sum_append]
    simp only [List.map_cons, List.map_nil, List.sum_cons, List.sum_nil, Nat.add_zero,
      Nat.shiftRight_eq_div_pow]
    by_cases hmn : m < n
    · have := ih (fun k hk => h k (by omega)) hmn
      rw [Nat.shiftRight_eq_div_pow] at this
      obtain ⟨k, rfl⟩ : ∃ k, n = m + 1 + k := ⟨n - m - 1, by omega⟩
      rw [show g (m + 1 + k) * 2 ^ (m + 1 + k) = 2 ^ m * (2 * (g (m + 1 + k) * 2 ^ k)) by ring,
        Nat.add_mul_div_left _ _ (by positivity), Nat.add_mul_mod_self_left]
      exact this
    · obtain rfl : m = n := by omega
      have := bitSum_lt g m (fun k hk => h k (by omega))
      rw [Nat.mul_comm, Nat.add_mul_div_left _ _ (by positivity), Nat.div_eq_of_lt this, Nat.zero_add]
      exact Nat.mod_eq_of_lt (h m (by omega))

/-- The bits of a number below `2^n` sum to it. -/
theorem bitSum_of_bits {v n : Nat} (h : v < 2 ^ n) :
    ((List.range n).map fun m => (v >>> m) % 2 * 2 ^ m).sum = v := by
  induction n generalizing v with
  | zero => simp at h ⊢; omega
  | succ n ih =>
    rw [List.range_succ, List.map_append, List.sum_append]
    have hmod : v % 2 ^ n < 2 ^ n := Nat.mod_lt _ (by positivity)
    have e : ((List.range n).map fun m => (v >>> m) % 2 * 2 ^ m).sum = v % 2 ^ n := by
      rw [← ih hmod]
      congr 1
      refine List.map_congr_left fun m hm => ?_
      have hm := List.mem_range.1 hm
      congr 1
      obtain ⟨k, rfl⟩ : ∃ k, n = m + 1 + k := ⟨n - m - 1, by omega⟩
      rw [Nat.shiftRight_eq_div_pow, Nat.shiftRight_eq_div_pow, Nat.add_assoc m 1 k, Nat.pow_add,
        Nat.mod_mul_right_div_self, Nat.pow_add, pow_one, Nat.mod_mul_right_mod]
    rw [e]
    simp only [List.map_cons, List.map_nil, List.sum_cons, List.sum_nil, Nat.add_zero,
      Nat.shiftRight_eq_div_pow]
    have hq : v / 2 ^ n < 2 := by
      rw [Nat.div_lt_iff_lt_mul (by positivity), Nat.mul_comm, ← pow_succ]
      exact h
    rw [Nat.mod_eq_of_lt hq, Nat.mul_comm]
    exact Nat.mod_add_div v (2 ^ n)

/-! ## Packing -/

theorem packPoly_length (f : Poly) (w : Nat) : (packPoly f w).length = 32 * w := by
  simp [packPoly, packedLength]

/-- Byte `k` of a packed string, as a sum of its bits (rules R176, R177). -/
theorem packPoly_byte (f : Poly) {w k : Nat} (hk : k < 32 * w) :
    ((packPoly f w).getD k Memory.unlisted).toNat =
      ((List.range 8).map fun m => packedBit f w (8 * k + m) * 2 ^ m).sum := by
  have h : (packPoly f w).getD k Memory.unlisted = packedByte f w k := by
    simp [packPoly, packedLength, List.getD_eq_getElem?_getD, List.getElem?_range hk]
  have e : ((List.range 8).map fun m => packedBit f w (8 * k + m) <<< m).sum =
      ((List.range 8).map fun m => packedBit f w (8 * k + m) * 2 ^ m).sum := by
    congr 1
    exact List.map_congr_left fun m _ => Nat.shiftLeft_eq _ _
  have hlt := bitSum_lt (fun m => packedBit f w (8 * k + m)) 8 (fun m _ => Nat.mod_lt _ (by decide))
  rw [h]
  unfold packedByte
  rw [e, BitVec.toNat_ofNat, Nat.mod_eq_of_lt hlt]

/-- Bit `k` of a packed string, read back from its bytes (rule R176). -/
theorem streamBit_packPoly (f : Poly) {w k : Nat} (hk : k < 256 * w) (x : Nat → Byte)
    (hx : ∀ b, b < 32 * w → x b = (packPoly f w).getD b Memory.unlisted) : streamBit x k = packedBit f w k := by
  unfold streamBit
  rw [hx _ (by omega), packPoly_byte f (by omega),
    bitSum_bit (fun m => packedBit f w (8 * (k / 8) + m)) 8 (fun m _ => Nat.mod_lt _ (by decide)) (by omega)]
  congr 1
  omega

/-! ## Unpacking -/

theorem unpackedValue_eq (x : Nat → Byte) (w i : Nat) :
    unpackedValue x w i = ((List.range w).map fun j => streamBit x (i * w + j) * 2 ^ j).sum := by
  unfold unpackedValue
  congr 1
  exact List.map_congr_left fun j _ => Nat.shiftLeft_eq _ _

theorem unpackedValue_lt (x : Nat → Byte) (w i : Nat) : unpackedValue x w i < 2 ^ w := by
  rw [unpackedValue_eq]
  exact bitSum_lt _ _ fun _ _ => Nat.mod_lt _ (by decide)

/-- Unpacking a packed string gives the values back (rule R178). -/
theorem unpackedValue_packPoly (f : Poly) {w i : Nat} (hi : i < 256) (hv : f.at i < 2 ^ w) (x : Nat → Byte)
    (hx : ∀ b, b < 32 * w → x b = (packPoly f w).getD b Memory.unlisted) : unpackedValue x w i = f.at i := by
  rw [unpackedValue_eq]
  refine Eq.trans ?_ (bitSum_of_bits hv)
  congr 1
  refine List.map_congr_left fun j hj => ?_
  have hj := List.mem_range.1 hj
  have hlt : i * w + j < 256 * w := by
    have : (i + 1) * w ≤ 256 * w := Nat.mul_le_mul_right _ (by omega)
    rw [Nat.succ_mul] at this
    omega
  rw [streamBit_packPoly f hlt x hx]
  unfold packedBit
  rw [Nat.mul_comm i w, Nat.mul_add_div (by omega), Nat.div_eq_of_lt hj, Nat.mul_add_mod, Nat.mod_eq_of_lt hj,
    Nat.add_zero]

end Sys2Proof.Machine
end

