-- ==== Sys2Proof/Laws/Decode.lean ====
section
/-! SUPPORT. The fields of a command word, and what decoding says about the row of the opcode map. -/

namespace Sys2Proof

/-- The opcode map has one row per opcode (rule R86). -/
theorem opcodeMap_opcodes_distinct : opcodeMap.Pairwise (fun r r' => r.opc ≠ r'.opc) := by decide

/-! ## Fields of a packed word -/

section
variable {opc d a b p : Nat} (ho : opc < 256) (hd : d < 16) (ha : a < 16) (hb : b < 16) (hp : p < 16)
include ho hd ha hb hp

theorem toNat_pack :
    (pack opc d a b p).toNat = opc + d * 2 ^ 8 + a * 2 ^ 12 + b * 2 ^ 16 + p * 2 ^ 20 := by
  unfold pack
  rw [BitVec.toNat_ofNat, Nat.mod_eq_of_lt (by omega)]

theorem opcOf_pack : opcOf (pack opc d a b p) = opc := by
  unfold opcOf field
  rw [toNat_pack ho hd ha hb hp, Nat.shiftRight_eq_div_pow]
  omega

theorem dOf_pack : dOf (pack opc d a b p) = d := by
  unfold dOf field
  rw [toNat_pack ho hd ha hb hp, Nat.shiftRight_eq_div_pow]
  omega

theorem aOf_pack : aOf (pack opc d a b p) = a := by
  unfold aOf field
  rw [toNat_pack ho hd ha hb hp, Nat.shiftRight_eq_div_pow]
  omega

theorem bOf_pack : bOf (pack opc d a b p) = b := by
  unfold bOf field
  rw [toNat_pack ho hd ha hb hp, Nat.shiftRight_eq_div_pow]
  omega

theorem pOf_pack : pOf (pack opc d a b p) = p := by
  unfold pOf field
  rw [toNat_pack ho hd ha hb hp, Nat.shiftRight_eq_div_pow]
  omega

theorem rsvOf_pack : rsvOf (pack opc d a b p) = 0 := by
  unfold rsvOf field
  rw [toNat_pack ho hd ha hb hp, Nat.shiftRight_eq_div_pow]
  omega

end

/-- A word is the sum of its fields (rule R80). -/
theorem toNat_eq_fields (v : Word) :
    v.toNat = opcOf v + dOf v * 2 ^ 8 + aOf v * 2 ^ 12 + bOf v * 2 ^ 16 + pOf v * 2 ^ 20
      + rsvOf v * 2 ^ 24 := by
  have := v.isLt
  simp only [opcOf, dOf, aOf, bOf, pOf, rsvOf, field, Nat.shiftRight_eq_div_pow]
  omega

theorem opcOf_eq (v : Word) : opcOf v = v.toNat % 256 := by
  simp [opcOf, field]

theorem opcOf_lt (v : Word) : opcOf v < 256 := Nat.mod_lt _ (by decide)
theorem dOf_lt (v : Word) : dOf v < 16 := Nat.mod_lt _ (by decide)
theorem aOf_lt (v : Word) : aOf v < 16 := Nat.mod_lt _ (by decide)
theorem bOf_lt (v : Word) : bOf v < 16 := Nat.mod_lt _ (by decide)
theorem pOf_lt (v : Word) : pOf v < 16 := Nat.mod_lt _ (by decide)

/-- A word with `RSV` 0 is packed from its fields. -/
theorem pack_of_fields {v : Word} (h : rsvOf v = 0) : pack (opcOf v) (dOf v) (aOf v) (bOf v) (pOf v) = v := by
  apply BitVec.eq_of_toNat_eq
  rw [toNat_pack (opcOf_lt v) (dOf_lt v) (aOf_lt v) (bOf_lt v) (pOf_lt v)]
  have := toNat_eq_fields v
  omega

theorem slotOf_val (p : SlotNo) : slotOf p.val = p := by
  apply Fin.ext
  simp [slotOf, Fin.ofNat]

theorem val_slotOf {n : Nat} (h : n < 16) : (slotOf n).val = n := by
  simp [slotOf, Fin.ofNat, Nat.mod_eq_of_lt h]

/-! ## Legal parameters -/

/-- A legal noise bound is one the map lists, and fits the field. -/
theorem legalEta_listed {eta : Nat} (h : legalEta eta = true) :
    [2, 3].contains eta = true ∧ eta < 16 := by
  simp only [legalEta, Bool.or_eq_true, beq_iff_eq] at h
  rcases h with rfl | rfl <;> decide

/-- A legal compression width is one the map lists, and fits the field. -/
theorem legalCompressWidth_listed {w : Nat} (h : legalCompressWidth w = true) :
    compressWidths.contains w = true ∧ w < 16 := by
  simp only [legalCompressWidth, Bool.and_eq_true, decide_eq_true_eq] at h
  obtain ⟨h1, h2⟩ := h
  interval_cases w <;> decide

/-- A legal packing width is one the map lists, and fits the field. -/
theorem legalPackWidth_listed {w : Nat} (h : legalPackWidth w = true) :
    packWidths.contains w = true ∧ w < 16 := by
  simp only [legalPackWidth, Bool.and_eq_true, decide_eq_true_eq] at h
  obtain ⟨h1, h2⟩ := h
  interval_cases w <;> decide

/-! ## Decoding, row by row -/

/-- In a list with one entry per key, finding a key finds its entry. -/
theorem find_of_pairwise {l : List Row} (h : l.Pairwise (fun r r' => r.opc ≠ r'.opc)) {r : Row}
    (hr : r ∈ l) {n : Nat} (hn : r.opc = n) : l.find? (fun r => r.opc == n) = some r := by
  induction l with
  | nil => simp at hr
  | cons r' l ih =>
    rw [List.pairwise_cons] at h
    rcases List.mem_cons.1 hr with rfl | hr
    · simp [hn]
    · have : r'.opc ≠ n := fun e => h.1 r hr (e.trans hn.symm)
      rw [List.find?_cons_of_neg (by simpa using this)]
      exact ih h.2 hr

/-- What decoding to a command says: a row of the map has the word's opcode, its field checks pass, and
the command is the row's. -/
theorem decode_eq_ok_iff (v : Word) (i : Instr) :
    decode v = .ok i ↔ ∃ r ∈ opcodeMap, r.opc = opcOf v ∧ r.fieldsLegal v = true ∧
      r.build (slotOf (dOf v)) (slotOf (aOf v)) (slotOf (bOf v)) (pOf v) = i := by
  unfold decode
  constructor
  · intro h
    split at h
    · simp at h
    · rename_i r hr
      split at h
      · rename_i hl
        simp only [Except.ok.injEq] at h
        exact ⟨r, List.mem_of_find?_eq_some hr, by simpa using List.find?_some hr, hl, h⟩
      · simp at h
  · rintro ⟨r, hr, ho, hl, rfl⟩
    rw [find_of_pairwise opcodeMap_opcodes_distinct hr ho]
    simp [hl]

/-- A word whose opcode has a row decodes by that row's field checks. -/
theorem decode_of_row {v : Word} {r : Row} (hr : r ∈ opcodeMap) (ho : r.opc = opcOf v) :
    decode v = if r.fieldsLegal v then .ok (r.build (slotOf (dOf v)) (slotOf (aOf v)) (slotOf (bOf v)) (pOf v))
      else .error .illegalField := by
  unfold decode
  rw [find_of_pairwise opcodeMap_opcodes_distinct hr ho]

/-- A word whose parameter its row does not list is rejected for its fields (rule R82). -/
theorem decode_of_illegal_parameter {v : Word} {r : Row} (hr : r ∈ opcodeMap) (ho : r.opc = opcOf v)
    (hp : r.legalP.contains (pOf v) = false) : decode v = .error .illegalField := by
  rw [decode_of_row hr ho, if_neg]
  simp [Row.fieldsLegal, -List.contains_eq_mem, hp]

/-- What rejection for the opcode says: no row has it. -/
theorem decode_eq_reservedOpcode_iff (v : Word) :
    decode v = .error .reservedOpcode ↔ ∀ r ∈ opcodeMap, r.opc ≠ opcOf v := by
  unfold decode
  constructor
  · intro h
    split at h
    · rename_i hr
      simpa using hr
    · split at h <;> simp at h
  · intro h
    have : opcodeMap.find? (fun r => r.opc == opcOf v) = none := by simpa using h
    rw [this]

/-- Every word decodes to a command or is rejected for one of two reasons. -/
theorem decode_cases (v : Word) :
    (∃ i, decode v = .ok i) ∨ decode v = .error .reservedOpcode ∨ decode v = .error .illegalField := by
  unfold decode
  split
  · simp
  · split <;> simp

end Sys2Proof
end

