-- ==== Sys2Proof/Laws/Exec.lean ====
section
/-! SUPPORT. What the meaning of any command can do to the state, said once for all of them. -/

namespace Sys2Proof.Machine

/-! ## Memory written inside the map -/

theorem Memory.mapped_iff {m : Memory} : m.mapped = true ↔ ∀ c ∈ m, inMemoryMap c.1 = true := by
  simp [Memory.mapped]

/-- Writing inside a range of the map keeps the memory inside the map (rule R20). -/
theorem Memory.write_keeps_mapped {m : Memory} (h : m.mapped = true) {x : Nat} {vs : List Byte}
    (hx : ∀ y, x ≤ y → y < x + vs.length → inMemoryMap y = true) : (m.write x vs).mapped = true := by
  rw [Memory.mapped_iff] at h ⊢
  intro c hc
  rcases Memory.address_write hc with hc | ⟨h1, h2⟩
  · exact h c hc
  · exact hx _ h1 h2

theorem inMemoryMap_slot (p : SlotNo) {y : Nat} (h1 : slotBase p ≤ y) (h2 : y < slotBase p + 512) :
    inMemoryMap y = true := by
  unfold slotBase at h1 h2
  unfold inMemoryMap
  simp only [Bool.or_eq_true, Bool.and_eq_true, decide_eq_true_eq]
  omega

theorem inMemoryMap_bbuf {y : Nat} (h1 : 0x400 ≤ y) (h2 : y < 0x580) : inMemoryMap y = true := by
  unfold inMemoryMap
  simp only [Bool.or_eq_true, Bool.and_eq_true, decide_eq_true_eq]
  omega

theorem Memory.setPoly_keeps_mapped {m : Memory} (h : m.mapped = true) (p : SlotNo) (f : Poly) :
    (m.setPoly p f).mapped = true := by
  refine Memory.write_keeps_mapped h fun y h1 h2 => inMemoryMap_slot p h1 ?_
  rw [setPoly_bytes_length] at h2
  exact h2

theorem inMemoryMap_seed {y : Nat} (h1 : 0x40 ≤ y) (h2 : y < 0x60) : inMemoryMap y = true := by
  unfold inMemoryMap
  simp only [Bool.or_eq_true, Bool.and_eq_true, decide_eq_true_eq]
  omega

theorem Memory.clearSeed_keeps_mapped {m : Memory} (h : m.mapped = true) : m.clearSeed.mapped = true := by
  refine Memory.write_keeps_mapped h fun y h1 h2 => inMemoryMap_seed h1 ?_
  rw [List.length_replicate] at h2
  exact h2

/-! ## The effect of a command -/

/-- A byte that a command may change: of its destination slot, of the packed bytes of `ENC`, any of `WIPE`. -/
def Touches (i : Instr) (y : Nat) : Prop :=
  match i with
  | .wipe => True
  | .enc _ w => 0x400 ≤ y ∧ y < 0x400 + 32 * w
  | .nop | .fadd | .fsub | .fmul | .fred | .fbred | .fmred => False
  | .padd d _ _ | .psub d _ _ | .pred d _ | .ntt d | .intt d | .bmul d _ _ | .bmac d _ _ | .suni d
  | .scbd d _ | .cmpr d _ _ | .dcmp d _ _ | .dec d _ | .pzero d | .pcopy d _ =>
    slotBase d ≤ y ∧ y < slotBase d + 512

/-- What every command has in common (rules R26, R28, R44, R202, R205). -/
structure Effect (i : Instr) (s t : State) : Prop where
  ieDone : t.ieDone = s.ieDone
  ieErr : t.ieErr = s.ieErr
  cmd : t.cmd = s.cmd
  arrivals : t.arrivals = s.arrivals
  response : t.response = s.response
  error : t.error = s.error ∨ ∃ code, t.error = firstError s.error code
  ending : Completed t ∨
    ∃ d smp, i = .suni d ∧ suniLoop s = .unfinished smp ∧ t = suniUnfinished d smp s
  memory : ∀ y, ¬Touches i y → t.mem.read y = s.mem.read y
  wf : s.mem.wf = true → t.mem.wf = true
  mapped : s.mem.mapped = true → t.mem.mapped = true

theorem finishScalar_effect {i : Instr} (ok : Bool) (v : Nat) (s : State) :
    Effect i s (finishScalar ok v s) := by
  cases ok
  · exact ⟨rfl, rfl, rfl, rfl, rfl, .inr ⟨.range, rfl⟩, .inl ⟨rfl, rfl⟩, fun _ _ => rfl, id, id⟩
  · exact ⟨rfl, rfl, rfl, rfl, rfl, .inl rfl, .inl ⟨rfl, rfl⟩, fun _ _ => rfl, id, id⟩

theorem finishPoly_effect {i : Instr} {d : SlotNo}
    (hd : ∀ y, slotBase d ≤ y → y < slotBase d + 512 → Touches i y) (ok : Bool) (f : Poly) (s : State) :
    Effect i s (finishPoly ok d f s) := by
  have hm : ∀ g : Poly, ∀ y, ¬Touches i y → (s.mem.setPoly d g).read y = s.mem.read y := fun g y hy =>
    Memory.read_setPoly_of_outside (by
      by_contra hc
      exact hy (hd y (by omega) (by omega)))
  cases ok
  · exact ⟨rfl, rfl, rfl, rfl, rfl, .inr ⟨.range, rfl⟩, .inl ⟨rfl, rfl⟩, hm _,
      fun h => Memory.setPoly_keeps_wf h _ _, fun h => Memory.setPoly_keeps_mapped h _ _⟩
  · exact ⟨rfl, rfl, rfl, rfl, rfl, .inl rfl, .inl ⟨rfl, rfl⟩, hm _,
      fun h => Memory.setPoly_keeps_wf h _ _, fun h => Memory.setPoly_keeps_mapped h _ _⟩

/-- What the end of a `SUNI` can do (rules R152, R205, R246). -/
theorem suniEnd_effect (d : SlotNo) (s : State) : Effect (.suni d) s (suniEnd d (suniLoop s) s) := by
  have hm : ∀ g : Poly, ∀ y, ¬Touches (.suni d) y → (s.mem.setPoly d g).read y = s.mem.read y := fun g y hy =>
    Memory.read_setPoly_of_outside (by
      unfold Touches at hy
      omega)
  rcases he : suniLoop s with smp | _ | smp
  · exact ⟨rfl, rfl, rfl, rfl, rfl, .inl rfl, .inl ⟨rfl, rfl⟩, hm _,
      fun h => Memory.setPoly_keeps_wf h _ _, fun h => Memory.setPoly_keeps_mapped h _ _⟩
  · exact ⟨rfl, rfl, rfl, rfl, rfl, .inr ⟨.xofLimit, rfl⟩, .inl ⟨rfl, rfl⟩, hm _,
      fun h => Memory.setPoly_keeps_wf h _ _, fun h => Memory.setPoly_keeps_mapped h _ _⟩
  · exact ⟨rfl, rfl, rfl, rfl, rfl, .inl rfl, .inr ⟨d, smp, rfl, he, rfl⟩, fun _ _ => rfl, id, id⟩

theorem enc_effect {a : SlotNo} {w : Nat} (hw : w ≤ 12) {s t : State} (h : execEnc a w s = .next t) :
    Effect (.enc a w) s t := by
  have hm : ∀ vs : List Byte, vs.length = 32 * w → ∀ y, ¬Touches (.enc a w) y →
      (s.mem.write bbufBase vs).read y = s.mem.read y := fun vs hl y hy =>
    Memory.read_write_of_outside (by
      unfold Touches at hy
      unfold bbufBase
      omega)
  have hp : ∀ vs : List Byte, vs.length = 32 * w → s.mem.mapped = true →
      (s.mem.write bbufBase vs).mapped = true := fun vs hl h =>
    Memory.write_keeps_mapped h fun y h1 h2 => inMemoryMap_bbuf h1 (by unfold bbufBase at h2; omega)
  unfold execEnc at h
  cases h
  split
  · exact ⟨rfl, rfl, rfl, rfl, rfl, .inl rfl, .inl ⟨rfl, rfl⟩, hm _ (packPoly_length _ _),
      fun h => Memory.write_keeps_wf h _ _, hp _ (packPoly_length _ _)⟩
  · exact ⟨rfl, rfl, rfl, rfl, rfl, .inr ⟨.range, rfl⟩, .inl ⟨rfl, rfl⟩, hm _ (by simp [packedLength]),
      fun h => Memory.write_keeps_wf h _ _, hp _ (by simp [packedLength])⟩

theorem dec_effect (d : SlotNo) (w : Nat) {s t : State} (h : execDec d w s = .next t) : Effect (.dec d w) s t := by
  have hm : ∀ g : Poly, ∀ y, ¬Touches (.dec d w) y → (s.mem.setPoly d g).read y = s.mem.read y := fun g y hy =>
    Memory.read_setPoly_of_outside (by
      unfold Touches at hy
      omega)
  unfold execDec at h
  cases h
  split
  · exact ⟨rfl, rfl, rfl, rfl, rfl, .inl rfl, .inl ⟨rfl, rfl⟩, hm _,
      fun h => Memory.setPoly_keeps_wf h _ _, fun h => Memory.setPoly_keeps_mapped h _ _⟩
  · exact ⟨rfl, rfl, rfl, rfl, rfl, .inl rfl, .inl ⟨rfl, rfl⟩, hm _,
      fun h => Memory.setPoly_keeps_wf h _ _, fun h => Memory.setPoly_keeps_mapped h _ _⟩

/-- The effect of any well-formed command. -/
theorem exec_effect {i : Instr} (hw : i.wellFormed = true) {s t : State} (h : exec i s = .next t) :
    Effect i s t := by
  cases i with
  | nop =>
    cases h
    exact ⟨rfl, rfl, rfl, rfl, rfl, .inl rfl, .inl ⟨rfl, rfl⟩, fun _ _ => rfl, id, id⟩
  | fadd => cases h; exact finishScalar_effect _ _ _
  | fsub => cases h; exact finishScalar_effect _ _ _
  | fmul => cases h; exact finishScalar_effect _ _ _
  | fred => cases h; exact finishScalar_effect _ _ _
  | fbred => cases h; exact finishScalar_effect _ _ _
  | fmred => cases h; exact finishScalar_effect _ _ _
  | padd d a b => cases h; exact finishPoly_effect (i := .padd d a b) (fun _ h1 h2 => ⟨h1, h2⟩) _ _ _
  | psub d a b => cases h; exact finishPoly_effect (i := .psub d a b) (fun _ h1 h2 => ⟨h1, h2⟩) _ _ _
  | pred d a => cases h; exact finishPoly_effect (i := .pred d a) (fun _ h1 h2 => ⟨h1, h2⟩) _ _ _
  | ntt d => cases h; exact finishPoly_effect (i := .ntt d) (fun _ h1 h2 => ⟨h1, h2⟩) _ _ _
  | intt d => cases h; exact finishPoly_effect (i := .intt d) (fun _ h1 h2 => ⟨h1, h2⟩) _ _ _
  | bmul d a b => cases h; exact finishPoly_effect (i := .bmul d a b) (fun _ h1 h2 => ⟨h1, h2⟩) _ _ _
  | bmac d a b => cases h; exact finishPoly_effect (i := .bmac d a b) (fun _ h1 h2 => ⟨h1, h2⟩) _ _ _
  | suni d => cases h; exact suniEnd_effect d s
  | scbd d eta => cases h; exact finishPoly_effect (i := .scbd d eta) (fun _ h1 h2 => ⟨h1, h2⟩) _ _ _
  | cmpr d a w => cases h; exact finishPoly_effect (i := .cmpr d a w) (fun _ h1 h2 => ⟨h1, h2⟩) _ _ _
  | dcmp d a w => cases h; exact finishPoly_effect (i := .dcmp d a w) (fun _ h1 h2 => ⟨h1, h2⟩) _ _ _
  | enc a w =>
    refine enc_effect ?_ h
    simp only [Instr.wellFormed, legalPackWidth, Bool.and_eq_true, decide_eq_true_eq] at hw
    exact hw.2
  | dec d w => exact dec_effect d w h
  | pzero d => cases h; exact finishPoly_effect (i := .pzero d) (fun _ h1 h2 => ⟨h1, h2⟩) true _ _
  | pcopy d a => cases h; exact finishPoly_effect (i := .pcopy d a) (fun _ h1 h2 => ⟨h1, h2⟩) true _ _
  | wipe =>
    cases h
    exact ⟨rfl, rfl, rfl, rfl, rfl, .inl rfl, .inl ⟨rfl, rfl⟩, fun _ hy => absurd trivial hy, fun _ => rfl,
      fun _ => rfl⟩

/-- Every command answers a next state. -/
theorem exec_next (i : Instr) (s : State) : ∃ t, exec i s = .next t := by
  cases i <;> exact ⟨_, rfl⟩

/-! ## The rejection loop -/

/-- What a round can add: at most two values below `Q`, none beyond 256 (rule R152). -/
theorem acceptCandidate_spec {c : Nat} {out : List Nat} (hq : ∀ v ∈ out, v < Config.Q) (hl : out.length ≤ 256) :
    (∀ v ∈ acceptCandidate c out, v < Config.Q) ∧ (acceptCandidate c out).length ≤ 256 ∧
      out.length ≤ (acceptCandidate c out).length ∧ (acceptCandidate c out).length ≤ out.length + 1 := by
  unfold acceptCandidate
  split
  · rename_i h
    refine ⟨fun v hv => ?_, ?_, ?_, ?_⟩
    · rcases List.mem_append.1 hv with hv | hv
      · exact hq v hv
      · rw [List.mem_singleton.1 hv]
        exact h.1
    · rw [List.length_append, List.length_singleton]
      exact h.2
    · rw [List.length_append]
      omega
    · rw [List.length_append, List.length_singleton]
  · exact ⟨hq, hl, le_rfl, by omega⟩

/-- Where a sampling can stand: canonical values, at most 256, at most two from each 3-byte group. -/
def Sampling.Sound (smp : Sampling) : Prop :=
  (∀ v ∈ smp.accepted, v < Config.Q) ∧ smp.accepted.length ≤ 256 ∧ smp.pos % 3 = 0 ∧
    3 * smp.accepted.length ≤ 2 * smp.pos

theorem Sampling.start_sound : Sampling.start.Sound := by
  refine ⟨?_, ?_, rfl, ?_⟩ <;> simp [Sampling.start]

theorem takeGroup_sound (x : Nat → Byte) {smp : Sampling} (h : smp.Sound) : (takeGroup x smp).Sound := by
  obtain ⟨h1, h2, h3, h4⟩ := h
  obtain ⟨a1, a2, a3, a4⟩ := acceptCandidate_spec
    (c := candidate1 (x smp.pos).toNat (x (smp.pos + 1)).toNat) h1 h2
  obtain ⟨b1, b2, b3, b4⟩ := acceptCandidate_spec
    (c := candidate2 (x (smp.pos + 1)).toNat (x (smp.pos + 2)).toNat) a1 a2
  exact ⟨b1, b2, by simp only [takeGroup]; omega, by simp only [takeGroup]; omega⟩

/-- How the loop can end: by acceptance with 256 values, by the limit, or unfinished with fewer; never past
the limit (rules R152, R154). -/
theorem rejectionLoop_sound (x : Nat → Byte) (lim n : Nat) {smp : Sampling} (h : smp.Sound)
    (hlim : lim = 0 ∨ smp.pos ≤ lim ∨ smp.accepted.length < 256) :
    match rejectionLoop x lim n smp with
    | .accepted r => r.Sound ∧ r.accepted.length = 256 ∧ (lim = 0 ∨ r.pos ≤ lim)
    | .limit => lim ≠ 0
    | .unfinished r => r.Sound ∧ r.accepted.length < 256 ∧ r.pos = smp.pos + 3 * n := by
  induction n generalizing smp with
  | zero =>
    unfold rejectionLoop
    split
    · rename_i e
      split at e
      · rename_i hN
        cases e
        have := h.2.1
        simp only [Config.N] at hN
        exact ⟨h, by omega, by omega⟩
      · cases e
    · rename_i e
      split at e <;> cases e
    · rename_i e
      split at e
      · cases e
      · rename_i hN
        cases e
        simp only [Config.N] at hN
        exact ⟨h, by omega, by omega⟩
  | succ n ih =>
    unfold rejectionLoop
    by_cases hN : Config.N ≤ smp.accepted.length
    · rw [if_pos hN]
      have := h.2.1
      simp only [Config.N] at hN
      exact ⟨h, by omega, by omega⟩
    · rw [if_neg hN]
      by_cases hL : lim ≠ 0 ∧ lim < smp.pos + 3
      · rw [if_pos hL]
        exact hL.1
      · rw [if_neg hL]
        have := ih (takeGroup_sound x h) (by simp only [takeGroup]; omega)
        split at this
        · exact this
        · exact this
        · exact ⟨this.1, this.2.1, by rw [this.2.2]; simp only [takeGroup]; omega⟩

end Sys2Proof.Machine
end

