-- ==== Sys2Proof/Laws/Ntt.lean ====
section
/-! SUPPORT. The transforms: lengths, canonical results, and the layers as the loops of rules R131 and
R132 take them. -/

namespace Sys2Proof.Machine

/-! ## Lists by their entries -/

theorem Poly.at_set (f : Poly) (j v i : Nat) :
    Poly.at (f.set j v) i = if i = j ∧ j < f.length then v else f.at i := by
  unfold Poly.at
  simp only [List.getD_eq_getElem?_getD, List.getElem?_set]
  by_cases h : i = j
  · subst h
    by_cases hl : i < f.length <;> simp [hl]
  · simp [h, Ne.symm h]

theorem Poly.ext_at {f g : Poly} (hl : f.length = g.length) (h : ∀ i, i < f.length → f.at i = g.at i) :
    f = g := by
  refine List.ext_getElem hl fun i h1 h2 => ?_
  have := h i h1
  simpa [Poly.at, List.getD_eq_getElem?_getD, List.getElem?_eq_getElem h1, List.getElem?_eq_getElem h2]
    using this

theorem Poly.at_append_left {f g : Poly} {i : Nat} (h : i < f.length) : Poly.at (f ++ g) i = f.at i := by
  simp [Poly.at, List.getElem?_append_left h]

theorem Poly.at_append_right {f g : Poly} {i : Nat} (h : f.length ≤ i) :
    Poly.at (f ++ g) i = g.at (i - f.length) := by
  simp [Poly.at, List.getElem?_append_right h]

theorem Poly.at_map {f : Poly} {g : Nat → Nat} {i : Nat} (h : i < f.length) : Poly.at (f.map g) i = g (f.at i) := by
  simp [Poly.at, List.getD_eq_getElem?_getD, List.getElem?_eq_getElem h]

theorem Poly.at_zipWith {f g : Poly} {b : Nat → Nat → Nat} {i : Nat} (hf : i < f.length) (hg : i < g.length) :
    Poly.at (List.zipWith b f g) i = b (f.at i) (g.at i) := by
  simp [Poly.at, List.getD_eq_getElem?_getD, List.getElem?_zipWith, List.getElem?_eq_getElem hf,
    List.getElem?_eq_getElem hg]

theorem Poly.at_take {f : Poly} {n i : Nat} (h : i < n) : Poly.at (f.take n) i = f.at i := by
  simp [Poly.at, List.getD_eq_getElem?_getD, h]

theorem Poly.at_drop {f : Poly} {n i : Nat} : Poly.at (f.drop n) i = f.at (n + i) := by
  simp [Poly.at, List.getD_eq_getElem?_getD, List.getElem?_drop]

theorem Poly.at_append_add (f g : Poly) (k : Nat) : Poly.at (f ++ g) (f.length + k) = g.at k := by
  rw [Poly.at_append_right (Nat.le_add_right _ _), Nat.add_sub_cancel_left]

/-! ## Blocks -/

theorem nttBlock_length {z : Nat} {lo hi : Poly} (h : lo.length = hi.length) :
    (nttBlock z lo hi).length = lo.length + hi.length := by
  simp [nttBlock, h]

theorem inttBlock_length {z : Nat} {lo hi : Poly} (h : lo.length = hi.length) :
    (inttBlock z lo hi).length = lo.length + hi.length := by
  simp [inttBlock, h]

theorem nttBlock_at_low {z : Nat} {lo hi : Poly} {i : Nat} (h : i < lo.length) (h' : i < hi.length) :
    (nttBlock z lo hi).at i = addMod (lo.at i) (mulMod z (hi.at i)) := by
  unfold nttBlock
  rw [Poly.at_append_left (by simp; omega), Poly.at_zipWith h (by simpa using h'), Poly.at_map h']

theorem nttBlock_at_high {z : Nat} {lo hi : Poly} {i : Nat} (hl : lo.length = hi.length) (h : i < lo.length) :
    (nttBlock z lo hi).at (lo.length + i) = subMod (lo.at i) (mulMod z (hi.at i)) := by
  unfold nttBlock
  rw [Poly.at_append_right (by simp [hl])]
  simp only [List.length_zipWith, List.length_map, hl, min_self, Nat.add_sub_cancel_left]
  rw [Poly.at_zipWith h (by simp; omega), Poly.at_map (by omega)]

theorem inttBlock_at_low {z : Nat} {lo hi : Poly} {i : Nat} (h : i < lo.length) (h' : i < hi.length) :
    (inttBlock z lo hi).at i = addMod (lo.at i) (hi.at i) := by
  unfold inttBlock
  rw [Poly.at_append_left (by simp; omega), Poly.at_zipWith h h']

theorem inttBlock_at_high {z : Nat} {lo hi : Poly} {i : Nat} (hl : lo.length = hi.length) (h : i < lo.length) :
    (inttBlock z lo hi).at (lo.length + i) = mulMod z (subMod (hi.at i) (lo.at i)) := by
  unfold inttBlock
  rw [Poly.at_append_right (by simp [hl])]
  simp only [List.length_zipWith, hl, min_self, Nat.add_sub_cancel_left]
  rw [Poly.at_map (by simp; omega), Poly.at_zipWith (by omega) h]

theorem nttBlocks_length {len n k : Nat} {f : Poly} (h : 2 * len * n ≤ f.length) :
    (nttBlocks len n k f).length = f.length := by
  induction n generalizing k f with
  | zero => rfl
  | succ n ih =>
    rw [Nat.mul_add, Nat.mul_one] at h
    unfold nttBlocks
    rw [List.length_append, nttBlock_length (by simp; omega), ih (by simp; omega)]
    simp
    omega

theorem inttBlocks_length {len n k : Nat} {f : Poly} (h : 2 * len * n ≤ f.length) :
    (inttBlocks len n k f).length = f.length := by
  induction n generalizing k f with
  | zero => rfl
  | succ n ih =>
    rw [Nat.mul_add, Nat.mul_one] at h
    unfold inttBlocks
    rw [List.length_append, inttBlock_length (by simp; omega), ih (by simp; omega)]
    simp
    omega

/-! ## The inner loop -/

/-- One butterfly of `NTT`, with its two in-place assignments (rule R131). -/
def nttButterfly (z start len : Nat) (g : Poly) (m : Nat) : Poly :=
  let j := start + m
  let t := (z * g.at (j + len)) % Config.Q
  let g' : Poly := g.set (j + len) (intMod ((g.at j : Int) - t))
  g'.set j ((g'.at j + t) % Config.Q)

/-- One butterfly of `INTT`, with its two in-place assignments (rule R132). -/
def inttButterfly (z start len : Nat) (g : Poly) (m : Nat) : Poly :=
  let j := start + m
  let t := g.at j
  let g' : Poly := g.set j ((t + g.at (j + len)) % Config.Q)
  g'.set (j + len) (intMod ((z : Int) * ((g'.at (j + len) : Int) - t)))

theorem nttButterfly_length (z start len : Nat) (g : Poly) (m : Nat) :
    (nttButterfly z start len g m).length = g.length := by
  simp [nttButterfly]

theorem inttButterfly_length (z start len : Nat) (g : Poly) (m : Nat) :
    (inttButterfly z start len g m).length = g.length := by
  simp [inttButterfly]

/-- What a butterfly of `NTT` can do: it changes the two lanes it names. -/
theorem nttButterfly_at {z start len : Nat} {g : Poly} {m : Nat} (h : start + m + len < g.length)
    (hl : 0 < len) (i : Nat) :
    (nttButterfly z start len g m).at i =
      if i = start + m then addMod (g.at (start + m)) (mulMod z (g.at (start + m + len)))
      else if i = start + m + len then subMod (g.at (start + m)) (mulMod z (g.at (start + m + len)))
      else g.at i := by
  unfold nttButterfly
  simp only [Poly.at_set, List.length_set]
  by_cases h1 : i = start + m
  · rw [if_pos (by omega), if_pos h1, if_neg (by omega)]
    rfl
  · rw [if_neg (by omega), if_neg h1]
    by_cases h2 : i = start + m + len
    · rw [if_pos (by omega), if_pos h2, ← subMod_eq_intMod]
      rfl
    · rw [if_neg (by omega), if_neg h2]

/-- An integer product reduced is the product of the reduced factor (rule R13). -/
theorem intMod_mul_sub (z x y : Nat) : intMod ((z : Int) * ((x : Int) - y)) = mulMod z (subMod x y) := by
  rw [subMod_eq_intMod]
  unfold mulMod intMod
  apply Int.ofNat_inj.1
  rw [Int.toNat_of_nonneg (Int.emod_nonneg _ (by decide))]
  push_cast
  rw [Int.toNat_of_nonneg (Int.emod_nonneg _ (by decide)), Int.mul_emod,
    Int.mul_emod (z : Int) (_ % _), Int.emod_emod]

/-- What a butterfly of `INTT` can do: it changes the two lanes it names. -/
theorem inttButterfly_at {z start len : Nat} {g : Poly} {m : Nat} (h : start + m + len < g.length)
    (hl : 0 < len) (i : Nat) :
    (inttButterfly z start len g m).at i =
      if i = start + m then addMod (g.at (start + m)) (g.at (start + m + len))
      else if i = start + m + len then mulMod z (subMod (g.at (start + m + len)) (g.at (start + m)))
      else g.at i := by
  unfold inttButterfly
  simp only [Poly.at_set, List.length_set]
  by_cases h1 : i = start + m
  · rw [if_neg (by omega), if_pos (by omega), if_pos h1]
    rfl
  · rw [if_neg h1]
    by_cases h2 : i = start + m + len
    · rw [if_pos (by omega), if_pos h2, if_neg (by omega), intMod_mul_sub]
    · rw [if_neg (by omega), if_neg (by omega), if_neg h2]

/-- The inner loop of `NTT` after `m` rounds has done the first `m` butterflies of its block (rule R131). -/
theorem nttInner_at (z start len : Nat) (f : Poly) (h : start + 2 * len ≤ f.length) (m : Nat)
    (hm : m ≤ len) :
    ((List.range m).foldl (nttButterfly z start len) f).length = f.length ∧
    ∀ i, Poly.at ((List.range m).foldl (nttButterfly z start len) f) i =
      if start ≤ i ∧ i < start + m then addMod (f.at i) (mulMod z (f.at (i + len)))
      else if start + len ≤ i ∧ i < start + len + m then subMod (f.at (i - len)) (mulMod z (f.at i))
      else f.at i := by
  induction m with
  | zero => exact ⟨rfl, fun i => by rw [if_neg (by omega), if_neg (by omega)]; rfl⟩
  | succ m ih =>
    obtain ⟨hl, ha⟩ := ih (by omega)
    rw [List.range_succ, List.foldl_append]
    simp only [List.foldl_cons, List.foldl_nil]
    generalize (List.range m).foldl _ f = g at hl ha ⊢
    refine ⟨by rw [nttButterfly_length, hl], fun i => ?_⟩
    have e1 : g.at (start + m) = f.at (start + m) := by
      rw [ha, if_neg (by omega), if_neg (by omega)]
    have e2 : g.at (start + m + len) = f.at (start + m + len) := by
      rw [ha, if_neg (by omega), if_neg (by omega)]
    rw [nttButterfly_at (by omega) (by omega), e1, e2, ha]
    by_cases h1 : i = start + m
    · rw [if_pos h1, if_pos (by omega), h1]
    · rw [if_neg h1]
      by_cases h2 : i = start + m + len
      · rw [if_pos h2, if_neg (by omega), if_pos (by omega), h2, Nat.add_sub_cancel]
      · rw [if_neg h2]
        congr 1
        · exact propext ⟨fun _ => by omega, fun _ => by omega⟩
        · congr 1
          exact propext ⟨fun _ => by omega, fun _ => by omega⟩

/-- The inner loop of `INTT` after `m` rounds has done the first `m` butterflies of its block (rule R132). -/
theorem inttInner_at (z start len : Nat) (f : Poly) (h : start + 2 * len ≤ f.length) (m : Nat)
    (hm : m ≤ len) :
    ((List.range m).foldl (inttButterfly z start len) f).length = f.length ∧
    ∀ i, Poly.at ((List.range m).foldl (inttButterfly z start len) f) i =
      if start ≤ i ∧ i < start + m then addMod (f.at i) (f.at (i + len))
      else if start + len ≤ i ∧ i < start + len + m then mulMod z (subMod (f.at i) (f.at (i - len)))
      else f.at i := by
  induction m with
  | zero => exact ⟨rfl, fun i => by rw [if_neg (by omega), if_neg (by omega)]; rfl⟩
  | succ m ih =>
    obtain ⟨hl, ha⟩ := ih (by omega)
    rw [List.range_succ, List.foldl_append]
    simp only [List.foldl_cons, List.foldl_nil]
    generalize (List.range m).foldl _ f = g at hl ha ⊢
    refine ⟨by rw [inttButterfly_length, hl], fun i => ?_⟩
    have e1 : g.at (start + m) = f.at (start + m) := by
      rw [ha, if_neg (by omega), if_neg (by omega)]
    have e2 : g.at (start + m + len) = f.at (start + m + len) := by
      rw [ha, if_neg (by omega), if_neg (by omega)]
    rw [inttButterfly_at (by omega) (by omega), e1, e2, ha]
    by_cases h1 : i = start + m
    · rw [if_pos h1, if_pos (by omega), h1]
    · rw [if_neg h1]
      by_cases h2 : i = start + m + len
      · rw [if_pos h2, if_neg (by omega), if_pos (by omega), h2, Nat.add_sub_cancel]
      · rw [if_neg h2]
        congr 1
        · exact propext ⟨fun _ => by omega, fun _ => by omega⟩
        · congr 1
          exact propext ⟨fun _ => by omega, fun _ => by omega⟩

/-! ## Blocks and layers as the loops take them -/

/-- The inner loop on a block that follows `pre` leaves `pre`, the block's butterflies and the rest
(rule R131). -/
theorem nttInner_block (z len : Nat) (pre f : Poly) (h : 2 * len ≤ f.length) :
    (List.range len).foldl (nttButterfly z pre.length len) (pre ++ f) =
      pre ++ (nttBlock z (f.take len) ((f.drop len).take len) ++ f.drop (2 * len)) := by
  have hlo : (f.take len).length = len := by simp; omega
  have hhi : ((f.drop len).take len).length = len := by simp; omega
  have hb := nttBlock_length (z := z) (hlo.trans hhi.symm)
  have hL : ∀ i, i < len → (nttBlock z (f.take len) ((f.drop len).take len)).at i = _ := fun i hi =>
    nttBlock_at_low (z := z) (lo := f.take len) (hi := (f.drop len).take len) (by omega) (by omega)
  have hH : ∀ i, i < len → (nttBlock z (f.take len) ((f.drop len).take len)).at ((f.take len).length + i) = _ :=
    fun i hi => nttBlock_at_high (z := z) (hlo.trans hhi.symm) (by omega)
  generalize nttBlock z (f.take len) ((f.drop len).take len) = B at hb hL hH ⊢
  rw [hlo, hhi] at hb
  obtain ⟨hl, ha⟩ := nttInner_at z pre.length len (pre ++ f) (by rw [List.length_append]; omega) len le_rfl
  refine Poly.ext_at ?_ fun i hi => ?_
  · rw [hl]
    simp only [List.length_append, hb, List.length_drop]
    omega
  rw [hl, List.length_append] at hi
  rw [ha]
  by_cases h0 : i < pre.length
  · rw [if_neg (by omega), if_neg (by omega), Poly.at_append_left h0, Poly.at_append_left h0]
  obtain ⟨k, rfl⟩ : ∃ k, i = pre.length + k := ⟨i - pre.length, by omega⟩
  rw [Poly.at_append_add pre (B ++ _)]
  by_cases h1 : k < len
  · rw [if_pos (by omega), Poly.at_append_left (f := B) (by omega), hL k h1, Nat.add_assoc, Poly.at_append_add,
      Poly.at_append_add, Poly.at_take h1, Poly.at_take h1, Poly.at_drop, Nat.add_comm k len]
  · rw [if_neg (by omega)]
    by_cases h2 : k < 2 * len
    · obtain ⟨m, rfl⟩ : ∃ m, k = len + m := ⟨k - len, by omega⟩
      have := hH m (by omega)
      rw [hlo] at this
      rw [if_pos (by omega), Poly.at_append_left (f := B) (by omega), this, Poly.at_append_add,
        show pre.length + (len + m) - len = pre.length + m by omega, Poly.at_append_add,
        Poly.at_take (by omega), Poly.at_take (by omega), Poly.at_drop]
    · rw [if_neg (by omega), Poly.at_append_add, Poly.at_append_right (f := B) (by omega), Poly.at_drop]
      congr 1
      omega

/-- The inner loop on a block that follows `pre` leaves `pre`, the block's butterflies and the rest
(rule R132). -/
theorem inttInner_block (z len : Nat) (pre f : Poly) (h : 2 * len ≤ f.length) :
    (List.range len).foldl (inttButterfly z pre.length len) (pre ++ f) =
      pre ++ (inttBlock z (f.take len) ((f.drop len).take len) ++ f.drop (2 * len)) := by
  have hlo : (f.take len).length = len := by simp; omega
  have hhi : ((f.drop len).take len).length = len := by simp; omega
  have hb := inttBlock_length (z := z) (hlo.trans hhi.symm)
  have hL : ∀ i, i < len → (inttBlock z (f.take len) ((f.drop len).take len)).at i = _ := fun i hi =>
    inttBlock_at_low (z := z) (lo := f.take len) (hi := (f.drop len).take len) (by omega) (by omega)
  have hH : ∀ i, i < len → (inttBlock z (f.take len) ((f.drop len).take len)).at ((f.take len).length + i) = _ :=
    fun i hi => inttBlock_at_high (z := z) (hlo.trans hhi.symm) (by omega)
  generalize inttBlock z (f.take len) ((f.drop len).take len) = B at hb hL hH ⊢
  rw [hlo, hhi] at hb
  obtain ⟨hl, ha⟩ := inttInner_at z pre.length len (pre ++ f) (by rw [List.length_append]; omega) len le_rfl
  refine Poly.ext_at ?_ fun i hi => ?_
  · rw [hl]
    simp only [List.length_append, hb, List.length_drop]
    omega
  rw [hl, List.length_append] at hi
  rw [ha]
  by_cases h0 : i < pre.length
  · rw [if_neg (by omega), if_neg (by omega), Poly.at_append_left h0, Poly.at_append_left h0]
  obtain ⟨k, rfl⟩ : ∃ k, i = pre.length + k := ⟨i - pre.length, by omega⟩
  rw [Poly.at_append_add pre (B ++ _)]
  by_cases h1 : k < len
  · rw [if_pos (by omega), Poly.at_append_left (f := B) (by omega), hL k h1, Nat.add_assoc, Poly.at_append_add,
      Poly.at_append_add, Poly.at_take h1, Poly.at_take h1, Poly.at_drop, Nat.add_comm k len]
  · rw [if_neg (by omega)]
    by_cases h2 : k < 2 * len
    · obtain ⟨m, rfl⟩ : ∃ m, k = len + m := ⟨k - len, by omega⟩
      have := hH m (by omega)
      rw [hlo] at this
      rw [if_pos (by omega), Poly.at_append_left (f := B) (by omega), this, Poly.at_append_add,
        show pre.length + (len + m) - len = pre.length + m by omega, Poly.at_append_add,
        Poly.at_take (by omega), Poly.at_take (by omega), Poly.at_drop]
    · rw [if_neg (by omega), Poly.at_append_add, Poly.at_append_right (f := B) (by omega), Poly.at_drop]
      congr 1
      omega

theorem nttBlocks_succ (len n k : Nat) (f : Poly) : nttBlocks len (n + 1) k f =
    nttBlock (zeta k) (f.take len) ((f.drop len).take len) ++ nttBlocks len n (k + 1) (f.drop (2 * len)) := rfl

theorem inttBlocks_succ (len n k : Nat) (f : Poly) : inttBlocks len (n + 1) k f =
    inttBlock (zeta k) (f.take len) ((f.drop len).take len) ++ inttBlocks len n (k - 1) (f.drop (2 * len)) := rfl

/-- The loop over `start` on the `n` blocks that follow `pre` (rule R131). -/
theorem nttLoop_blocks (len n k : Nat) (pre f : Poly) (h : 2 * len * n ≤ f.length) :
    ((List.range n).map fun m => pre.length + m * (2 * len)).foldl
      (fun (gk : Poly × Nat) start => ((List.range len).foldl (nttButterfly (zeta gk.2) start len) gk.1, gk.2 + 1))
      (pre ++ f, k) = (pre ++ nttBlocks len n k f, k + n) := by
  induction n generalizing k pre f with
  | zero => rfl
  | succ n ih =>
    rw [Nat.mul_add, Nat.mul_one] at h
    have hb : (nttBlock (zeta k) (f.take len) ((f.drop len).take len)).length = 2 * len := by
      rw [nttBlock_length (by simp; omega)]
      simp
      omega
    have := ih (k + 1) (pre ++ nttBlock (zeta k) (f.take len) ((f.drop len).take len)) (f.drop (2 * len))
      (by simp; omega)
    rw [List.length_append, hb] at this
    rw [List.range_succ_eq_map, List.map_cons, List.map_map, List.foldl_cons, Nat.zero_mul, Nat.add_zero,
      nttInner_block _ _ _ _ (by omega)]
    have hm : ((fun m => pre.length + m * (2 * len)) ∘ Nat.succ) =
        fun m => pre.length + 2 * len + m * (2 * len) := by
      funext m
      simp only [Function.comp_apply, Nat.succ_mul]
      omega
    rw [hm, ← List.append_assoc, this, List.append_assoc]
    rw [nttBlocks_succ, Nat.add_right_comm k 1 n, Nat.add_assoc k n 1]

/-- The loop over `start` on the `n` blocks that follow `pre` (rule R132). -/
theorem inttLoop_blocks (len n k : Nat) (pre f : Poly) (h : 2 * len * n ≤ f.length) :
    ((List.range n).map fun m => pre.length + m * (2 * len)).foldl
      (fun (gk : Poly × Nat) start => ((List.range len).foldl (inttButterfly (zeta gk.2) start len) gk.1, gk.2 - 1))
      (pre ++ f, k) = (pre ++ inttBlocks len n k f, k - n) := by
  induction n generalizing k pre f with
  | zero => rfl
  | succ n ih =>
    rw [Nat.mul_add, Nat.mul_one] at h
    have hb : (inttBlock (zeta k) (f.take len) ((f.drop len).take len)).length = 2 * len := by
      rw [inttBlock_length (by simp; omega)]
      simp
      omega
    have := ih (k - 1) (pre ++ inttBlock (zeta k) (f.take len) ((f.drop len).take len)) (f.drop (2 * len))
      (by simp; omega)
    rw [List.length_append, hb] at this
    rw [List.range_succ_eq_map, List.map_cons, List.map_map, List.foldl_cons, Nat.zero_mul, Nat.add_zero,
      inttInner_block _ _ _ _ (by omega)]
    have hm : ((fun m => pre.length + m * (2 * len)) ∘ Nat.succ) =
        fun m => pre.length + 2 * len + m * (2 * len) := by
      funext m
      simp only [Function.comp_apply, Nat.succ_mul]
      omega
    rw [hm, ← List.append_assoc, this, List.append_assoc]
    rw [inttBlocks_succ, Nat.sub_sub, Nat.add_comm 1 n]

/-- A layer of `NTT` on 256 lanes is the loop over `start` of rule R131. -/
theorem nttLoop_layer {len k n : Nat} {f : Poly} (hf : f.length = 256) (hn : 128 / len = n)
    (hk : k = n) (h : 2 * len * n = 256) :
    (starts len).foldl
      (fun (gk : Poly × Nat) start => ((List.range len).foldl (nttButterfly (zeta gk.2) start len) gk.1, gk.2 + 1))
      (f, k) = (nttLayer len f, 2 * n) ∧ (nttLayer len f).length = 256 := by
  have := nttLoop_blocks len n k [] f (by omega)
  simp only [List.nil_append, List.length_nil, Nat.zero_add] at this
  unfold starts nttLayer
  rw [hn, this, hk]
  exact ⟨by rw [Nat.two_mul], (nttBlocks_length (by omega)).trans hf⟩

/-- A layer of `INTT` on 256 lanes is the loop over `start` of rule R132. -/
theorem inttLoop_layer {len k n : Nat} {f : Poly} (hf : f.length = 256) (hn : 128 / len = n)
    (hk : 256 / len - 1 = k) (h : 2 * len * n = 256) :
    (starts len).foldl
      (fun (gk : Poly × Nat) start => ((List.range len).foldl (inttButterfly (zeta gk.2) start len) gk.1, gk.2 - 1))
      (f, k) = (inttLayer len f, k - n) ∧ (inttLayer len f).length = 256 := by
  have := inttLoop_blocks len n k [] f (by omega)
  simp only [List.nil_append, List.length_nil, Nat.zero_add] at this
  unfold starts inttLayer
  rw [hn, this, hk]
  exact ⟨rfl, (inttBlocks_length (by omega)).trans hf⟩

theorem loopR131_eq_butterflies (f : Poly) : loopR131 f =
    ([128, 64, 32, 16, 8, 4, 2].foldl (fun (fk : Poly × Nat) len => (starts len).foldl
      (fun (gk : Poly × Nat) start => ((List.range len).foldl (nttButterfly (zeta gk.2) start len) gk.1, gk.2 + 1))
      fk) (f, 1)).1 := rfl

theorem loopR132_eq_butterflies (f : Poly) : loopR132 f =
    ([2, 4, 8, 16, 32, 64, 128].foldl (fun (fk : Poly × Nat) len => (starts len).foldl
      (fun (gk : Poly × Nat) start => ((List.range len).foldl (inttButterfly (zeta gk.2) start len) gk.1, gk.2 - 1))
      fk) (f, 127)).1.map fun v => (v * 3303) % Config.Q := rfl

/-- The transform of the meaning is the loops of rule R131. -/
theorem nttPoly_eq_loop {f : Poly} (hf : f.length = 256) : nttPoly f = loopR131 f := by
  rw [loopR131_eq_butterflies]
  unfold nttPoly
  simp only [List.foldl_cons, List.foldl_nil]
  obtain ⟨e1, l1⟩ := nttLoop_layer (len := 128) (k := 1) hf rfl rfl rfl
  obtain ⟨e2, l2⟩ := nttLoop_layer (len := 64) (k := 2) l1 rfl rfl rfl
  obtain ⟨e3, l3⟩ := nttLoop_layer (len := 32) (k := 4) l2 rfl rfl rfl
  obtain ⟨e4, l4⟩ := nttLoop_layer (len := 16) (k := 8) l3 rfl rfl rfl
  obtain ⟨e5, l5⟩ := nttLoop_layer (len := 8) (k := 16) l4 rfl rfl rfl
  obtain ⟨e6, l6⟩ := nttLoop_layer (len := 4) (k := 32) l5 rfl rfl rfl
  obtain ⟨e7, -⟩ := nttLoop_layer (len := 2) (k := 64) l6 rfl rfl rfl
  rw [e1, e2, e3, e4, e5, e6, e7]

/-- The inverse transform of the meaning is the loops and the scaling of rule R132. -/
theorem inttPoly_eq_loop {f : Poly} (hf : f.length = 256) : inttPoly f = loopR132 f := by
  rw [loopR132_eq_butterflies]
  unfold inttPoly
  simp only [List.foldl_cons, List.foldl_nil]
  obtain ⟨e1, l1⟩ := inttLoop_layer (len := 2) hf rfl rfl rfl
  obtain ⟨e2, l2⟩ := inttLoop_layer (len := 4) l1 rfl rfl rfl
  obtain ⟨e3, l3⟩ := inttLoop_layer (len := 8) l2 rfl rfl rfl
  obtain ⟨e4, l4⟩ := inttLoop_layer (len := 16) l3 rfl rfl rfl
  obtain ⟨e5, l5⟩ := inttLoop_layer (len := 32) l4 rfl rfl rfl
  obtain ⟨e6, l6⟩ := inttLoop_layer (len := 64) l5 rfl rfl rfl
  obtain ⟨e7, -⟩ := inttLoop_layer (len := 128) l6 rfl rfl rfl
  rw [e1, e2, e3, e4, e5, e6, e7]
  rfl

/-! ## Canonical results -/

theorem nttBlock_canonical (z : Nat) (lo hi : Poly) : canonical (nttBlock z lo hi) = true := by
  refine below_iff.2 fun v hv => ?_
  unfold nttBlock at hv
  rcases List.mem_append.1 hv with hv | hv <;>
    (obtain ⟨i, hi, rfl⟩ := List.mem_iff_getElem.1 hv
     rw [List.getElem_zipWith]
     exact Nat.mod_lt _ (by decide))

theorem inttBlock_canonical (z : Nat) (lo hi : Poly) : canonical (inttBlock z lo hi) = true := by
  refine below_iff.2 fun v hv => ?_
  unfold inttBlock at hv
  rcases List.mem_append.1 hv with hv | hv
  · obtain ⟨i, hi, rfl⟩ := List.mem_iff_getElem.1 hv
    rw [List.getElem_zipWith]
    exact Nat.mod_lt _ (by decide)
  · obtain ⟨w, -, rfl⟩ := List.mem_map.1 hv
    exact Nat.mod_lt _ (by decide)

theorem nttBlocks_canonical (len n k : Nat) (f : Poly) (h : canonical f = true) :
    canonical (nttBlocks len n k f) = true := by
  induction n generalizing k f with
  | zero => exact h
  | succ n ih =>
    unfold nttBlocks
    refine below_iff.2 fun v hv => ?_
    rcases List.mem_append.1 hv with hv | hv
    · exact below_iff.1 (nttBlock_canonical _ _ _) v hv
    · exact below_iff.1 (ih _ _ (below_iff.2 fun w hw => below_iff.1 h w (List.mem_of_mem_drop hw))) v hv

theorem nttPoly_canonical (f : Poly) (h : canonical f = true) : canonical (nttPoly f) = true := by
  unfold nttPoly
  simp only [List.foldl_cons, List.foldl_nil, nttLayer]
  repeat apply nttBlocks_canonical
  exact h

theorem inttPoly_canonical (f : Poly) : canonical (inttPoly f) = true := by
  refine below_iff.2 fun v hv => ?_
  unfold inttPoly at hv
  obtain ⟨w, -, rfl⟩ := List.mem_map.1 hv
  exact Nat.mod_lt _ (by decide)

/-! ## Lengths and lanes -/

theorem nttLayer_length {len : Nat} {f : Poly} (hf : f.length = 256) (h : 2 * len * (128 / len) = 256) :
    (nttLayer len f).length = 256 := (nttBlocks_length (by omega)).trans hf

theorem inttLayer_length {len : Nat} {f : Poly} (hf : f.length = 256) (h : 2 * len * (128 / len) = 256) :
    (inttLayer len f).length = 256 := (inttBlocks_length (by omega)).trans hf

theorem nttPoly_length {f : Poly} (hf : f.length = 256) : (nttPoly f).length = 256 := by
  unfold nttPoly
  simp only [List.foldl_cons, List.foldl_nil]
  iterate 7 refine nttLayer_length ?_ (by decide)
  exact hf

theorem inttPoly_length {f : Poly} (hf : f.length = 256) : (inttPoly f).length = 256 := by
  unfold inttPoly
  simp only [List.foldl_cons, List.foldl_nil, List.length_map]
  iterate 7 refine inttLayer_length ?_ (by decide)
  exact hf

/-- A lane of a canonical polynomial is below `Q`. -/
theorem at_lt_of_canonical {f : Poly} (h : canonical f = true) {i : Nat} (hi : i < f.length) : f.at i < 3329 := by
  refine below_iff.1 h _ ?_
  unfold Poly.at
  rw [List.getD_eq_getElem?_getD, List.getElem?_eq_getElem hi]
  exact List.getElem_mem _

end Sys2Proof.Machine
end

