-- ==== Sys2Proof/Laws/NttAlgebra.lean ====
section
/-! SUPPORT. What the transforms mean (rule R135): `nttPoly` and `inttPoly` undo each other, the pairs of
`nttPoly` are residues, and `baseMul` multiplies residues. -/

namespace Sys2Proof.Machine

/-! ## Arithmetic modulo `Q` in the ring of residues -/

/-- The residues modulo `Q`. -/
abbrev Zq := ZMod 3329

theorem cast_addMod (x y : Nat) : ((addMod x y : Nat) : Zq) = x + y := by
  show (((x + y) % 3329 : Nat) : Zq) = _
  rw [ZMod.natCast_mod]; push_cast; rfl

theorem cast_mulMod (x y : Nat) : ((mulMod x y : Nat) : Zq) = x * y := by
  show (((x * y) % 3329 : Nat) : Zq) = _
  rw [ZMod.natCast_mod]; push_cast; rfl

theorem cast_subMod (x y : Nat) : ((subMod x y : Nat) : Zq) = x - y := by
  show (((x + (3329 - y % 3329)) % 3329 : Nat) : Zq) = _
  rw [ZMod.natCast_mod, Nat.cast_add, Nat.cast_sub (Nat.mod_lt _ (by decide)).le, ZMod.natCast_mod, ZMod.natCast_self]
  ring

theorem eq_of_cast {x y : Nat} (hx : x < 3329) (hy : y < 3329) (h : (x : Zq) = y) : x = y := by
  have := (ZMod.natCast_eq_natCast_iff' x y 3329).1 h
  rwa [Nat.mod_eq_of_lt hx, Nat.mod_eq_of_lt hy] at this

/-- Block `b` of a layer of `NTT`, lane by lane. -/
theorem nttBlocks_at {len n : Nat} {f : Poly} (k b m : Nat) (h : 2 * len * n ≤ f.length) (hb : b < n) (hm : m < len) :
    (nttBlocks len n k f).at (b * (2 * len) + m) =
        addMod (f.at (b * (2 * len) + m)) (mulMod (zeta (k + b)) (f.at (b * (2 * len) + len + m))) ∧
    (nttBlocks len n k f).at (b * (2 * len) + len + m) =
        subMod (f.at (b * (2 * len) + m)) (mulMod (zeta (k + b)) (f.at (b * (2 * len) + len + m))) := by
  induction n generalizing k f b with
  | zero => omega
  | succ n ih =>
    rw [Nat.mul_add, Nat.mul_one] at h
    have hlo : (f.take len).length = len := by simp; omega
    have hhi : ((f.drop len).take len).length = len := by simp; omega
    have hb2 := nttBlock_length (z := zeta k) (hlo.trans hhi.symm)
    rw [hlo, hhi] at hb2
    rw [nttBlocks_succ]
    cases b with
    | zero =>
      simp only [Nat.zero_mul, Nat.zero_add, Nat.add_zero]
      rw [Poly.at_append_left (by omega), Poly.at_append_left (by omega), nttBlock_at_low (by omega) (by omega)]
      have := nttBlock_at_high (z := zeta k) (hlo.trans hhi.symm) (i := m) (by omega)
      rw [hlo] at this
      rw [this, Poly.at_take hm, Poly.at_take hm, Poly.at_drop]
      exact ⟨rfl, rfl⟩
    | succ b =>
      have e1 : (b + 1) * (2 * len) + m = (nttBlock (zeta k) (f.take len) ((f.drop len).take len)).length + (b * (2 * len) + m) := by
        rw [hb2]; ring
      have e2 : (b + 1) * (2 * len) + len + m = (nttBlock (zeta k) (f.take len) ((f.drop len).take len)).length + (b * (2 * len) + len + m) := by
        rw [hb2]; ring
      have ih' := ih (f := f.drop (2 * len)) (k + 1) b (by simp; omega) (by omega)
      rw [e1, e2, Poly.at_append_add, Poly.at_append_add, ih'.1, ih'.2, Poly.at_drop, Poly.at_drop, hb2,
        show k + (b + 1) = k + 1 + b by ring, show 2 * len + (b * (2 * len) + m) = len + len + (b * (2 * len) + m) by ring,
        show 2 * len + (b * (2 * len) + len + m) = len + len + (b * (2 * len) + len + m) by ring]
      exact ⟨rfl, rfl⟩

/-- Block `b` of a layer of `INTT`, lane by lane. -/
theorem inttBlocks_at {len n : Nat} {f : Poly} (k b m : Nat) (h : 2 * len * n ≤ f.length) (hb : b < n) (hm : m < len) :
    (inttBlocks len n k f).at (b * (2 * len) + m) =
        addMod (f.at (b * (2 * len) + m)) (f.at (b * (2 * len) + len + m)) ∧
    (inttBlocks len n k f).at (b * (2 * len) + len + m) =
        mulMod (zeta (k - b)) (subMod (f.at (b * (2 * len) + len + m)) (f.at (b * (2 * len) + m))) := by
  induction n generalizing k f b with
  | zero => omega
  | succ n ih =>
    rw [Nat.mul_add, Nat.mul_one] at h
    have hlo : (f.take len).length = len := by simp; omega
    have hhi : ((f.drop len).take len).length = len := by simp; omega
    have hb2 := inttBlock_length (z := zeta k) (hlo.trans hhi.symm)
    rw [hlo, hhi] at hb2
    rw [inttBlocks_succ]
    cases b with
    | zero =>
      simp only [Nat.zero_mul, Nat.zero_add, Nat.sub_zero]
      rw [Poly.at_append_left (by omega), Poly.at_append_left (by omega), inttBlock_at_low (by omega) (by omega)]
      have := inttBlock_at_high (z := zeta k) (hlo.trans hhi.symm) (i := m) (by omega)
      rw [hlo] at this
      rw [this, Poly.at_take hm, Poly.at_take hm, Poly.at_drop]
      exact ⟨rfl, rfl⟩
    | succ b =>
      have e1 : (b + 1) * (2 * len) + m = (inttBlock (zeta k) (f.take len) ((f.drop len).take len)).length + (b * (2 * len) + m) := by
        rw [hb2]; ring
      have e2 : (b + 1) * (2 * len) + len + m = (inttBlock (zeta k) (f.take len) ((f.drop len).take len)).length + (b * (2 * len) + len + m) := by
        rw [hb2]; ring
      have ih' := ih (f := f.drop (2 * len)) (k - 1) b (by simp; omega) (by omega)
      rw [e1, e2, Poly.at_append_add, Poly.at_append_add, ih'.1, ih'.2, Poly.at_drop, Poly.at_drop, hb2,
        show k - (b + 1) = k - 1 - b by omega, show 2 * len + (b * (2 * len) + m) = len + len + (b * (2 * len) + m) by ring,
        show 2 * len + (b * (2 * len) + len + m) = len + len + (b * (2 * len) + len + m) by ring]
      exact ⟨rfl, rfl⟩

/-! ## The layers of the two transforms undo each other -/

theorem block_cases {len n i : Nat} (h : 2 * len * n = 256) (hi : i < 256) :
    ∃ b m, b < n ∧ m < len ∧ (i = b * (2 * len) + m ∨ i = b * (2 * len) + len + m) := by
  have hl : 0 < len := by
    rcases Nat.eq_zero_or_pos len with h0 | h0
    · subst h0; simp at h
    · exact h0
  have hdm := Nat.div_add_mod i (2 * len)
  have hmod := Nat.mod_lt i (show 0 < 2 * len by omega)
  have hb : i / (2 * len) < n := by
    rw [Nat.div_lt_iff_lt_mul (by omega)]; rw [Nat.mul_comm]; omega
  rw [Nat.mul_comm] at hdm
  by_cases hm : i % (2 * len) < len
  · exact ⟨_, _, hb, hm, .inl (by omega)⟩
  · exact ⟨i / (2 * len), i % (2 * len) - len, hb, by omega, .inr (by omega)⟩

/-- `len` is one of the seven half-lengths, with `n` blocks. -/
def HalfLength (len n : Nat) : Prop := n ∈ [1, 2, 4, 8, 16, 32, 64] ∧ 128 / len = n ∧ 256 / len - 1 = 2 * n - 1 ∧ 2 * len * n = 256

theorem nttLayer_cast {len n b m : Nat} {f : Poly} (hh : HalfLength len n) (hf : f.length = 256) (hb : b < n) (hm : m < len) :
    ((nttLayer len f).at (b * (2 * len) + m) : Zq) =
      f.at (b * (2 * len) + m) + zeta (n + b) * f.at (b * (2 * len) + len + m) ∧
    ((nttLayer len f).at (b * (2 * len) + len + m) : Zq) =
      f.at (b * (2 * len) + m) - zeta (n + b) * f.at (b * (2 * len) + len + m) := by
  obtain ⟨-, hn, -, h⟩ := hh
  have := nttBlocks_at n b m (f := f) (by omega) hb hm
  unfold nttLayer
  rw [hn, this.1, this.2, cast_addMod, cast_subMod, cast_mulMod]
  exact ⟨rfl, rfl⟩

theorem inttLayer_cast {len n b m : Nat} {f : Poly} (hh : HalfLength len n) (hf : f.length = 256) (hb : b < n) (hm : m < len) :
    ((inttLayer len f).at (b * (2 * len) + m) : Zq) =
      f.at (b * (2 * len) + m) + f.at (b * (2 * len) + len + m) ∧
    ((inttLayer len f).at (b * (2 * len) + len + m) : Zq) =
      zeta (2 * n - 1 - b) * (f.at (b * (2 * len) + len + m) - f.at (b * (2 * len) + m)) := by
  obtain ⟨-, hn, hk, h⟩ := hh
  have := inttBlocks_at (2 * n - 1) b m (f := f) (by omega) hb hm
  unfold inttLayer
  rw [hn, hk, this.1, this.2, cast_addMod, cast_mulMod, cast_subMod]
  exact ⟨rfl, rfl⟩

theorem zeta_pairs : ∀ n ∈ [1, 2, 4, 8, 16, 32, 64], ∀ b, b < n →
    zeta (n + b) * zeta (2 * n - 1 - b) % 3329 = 3328 := by decide +kernel

theorem zeta_pair_cast {len n b : Nat} (hh : HalfLength len n) (hb : b < n) :
    (zeta (n + b) : Zq) * zeta (2 * n - 1 - b) = -1 := by
  have := congrArg (Nat.cast (R := Zq)) (zeta_pairs n hh.1 b hb)
  rw [ZMod.natCast_mod] at this
  rw [← Nat.cast_mul, this]
  rfl

theorem inttLayer_undoes {len n : Nat} {f g : Poly} {c : Zq} (hh : HalfLength len n) (hf : f.length = 256) (hg : g.length = 256)
    (h : ∀ i, i < 256 → (g.at i : Zq) = c * (nttLayer len f).at i) (i : Nat) (hi : i < 256) :
    ((inttLayer len g).at i : Zq) = 2 * c * f.at i := by
  obtain ⟨b, m, hb, hm, hi'⟩ := block_cases hh.2.2.2 hi
  have hbl : b * (2 * len) + 2 * len ≤ 256 := by
    have := Nat.mul_le_mul_right (2 * len) (show b + 1 ≤ n from hb)
    rw [Nat.add_mul, Nat.one_mul, Nat.mul_comm n, hh.2.2.2] at this
    exact this
  have hz := zeta_pair_cast hh hb
  have e := nttLayer_cast hh hf hb hm
  have e' := inttLayer_cast hh hg hb hm
  rw [h _ (by omega), h _ (by omega), e.1, e.2] at e'
  rcases hi' with rfl | rfl
  · rw [e'.1]; ring
  · rw [e'.2]; linear_combination (-2 * c * (f.at (b * (2 * len) + len + m) : Zq)) * hz

theorem nttLayer_undoes {len n : Nat} {f g : Poly} {c : Zq} (hh : HalfLength len n) (hf : f.length = 256) (hg : g.length = 256)
    (h : ∀ i, i < 256 → (g.at i : Zq) = c * (inttLayer len f).at i) (i : Nat) (hi : i < 256) :
    ((nttLayer len g).at i : Zq) = 2 * c * f.at i := by
  obtain ⟨b, m, hb, hm, hi'⟩ := block_cases hh.2.2.2 hi
  have hbl : b * (2 * len) + 2 * len ≤ 256 := by
    have := Nat.mul_le_mul_right (2 * len) (show b + 1 ≤ n from hb)
    rw [Nat.add_mul, Nat.one_mul, Nat.mul_comm n, hh.2.2.2] at this
    exact this
  have hz := zeta_pair_cast hh hb
  have e := inttLayer_cast hh hf hb hm
  have e' := nttLayer_cast hh hg hb hm
  rw [h _ (by omega), h _ (by omega), e.1, e.2] at e'
  rcases hi' with rfl | rfl
  · rw [e'.1]; linear_combination c * ((f.at (b * (2 * len) + len + m) : Zq) - f.at (b * (2 * len) + m)) * hz
  · rw [e'.2]; linear_combination -c * ((f.at (b * (2 * len) + len + m) : Zq) - f.at (b * (2 * len) + m)) * hz

theorem halfLengths : HalfLength 128 1 ∧ HalfLength 64 2 ∧ HalfLength 32 4 ∧ HalfLength 16 8 ∧ HalfLength 8 16 ∧
    HalfLength 4 32 ∧ HalfLength 2 64 := by unfold HalfLength; decide

theorem nttLayer_len {len n : Nat} {f : Poly} (hh : HalfLength len n) (hf : f.length = 256) : (nttLayer len f).length = 256 :=
  nttLayer_length hf (by rw [hh.2.1]; exact hh.2.2.2)
theorem inttLayer_len {len n : Nat} {f : Poly} (hh : HalfLength len n) (hf : f.length = 256) : (inttLayer len f).length = 256 :=
  inttLayer_length hf (by rw [hh.2.1]; exact hh.2.2.2)

theorem scale_cast {f g : Poly} (hf : f.length = 256) (h : ∀ i, i < 256 → (f.at i : Zq) = 128 * g.at i) (i : Nat) (hi : i < 256) :
    ((Poly.at (f.map (mulMod · inverseScale)) i : Nat) : Zq) = g.at i := by
  rw [Poly.at_map (by omega), cast_mulMod, h i hi]
  have : ((128 * inverseScale : Nat) : Zq) = 1 := by decide
  push_cast at this
  linear_combination (g.at i : Zq) * this


theorem nttFold_length (ls : List Nat) (h : ∀ len ∈ ls, ∃ n, HalfLength len n) (f : Poly) (hf : f.length = 256) :
    (ls.foldl (fun g len => nttLayer len g) f).length = 256 := by
  induction ls generalizing f with
  | nil => exact hf
  | cons len ls ih =>
    obtain ⟨n, hh⟩ := h len (by simp)
    exact ih (fun l hl => h l (by simp [hl])) _ (nttLayer_len hh hf)

theorem inttFold_length (ls : List Nat) (h : ∀ len ∈ ls, ∃ n, HalfLength len n) (f : Poly) (hf : f.length = 256) :
    (ls.foldl (fun g len => inttLayer len g) f).length = 256 := by
  induction ls generalizing f with
  | nil => exact hf
  | cons len ls ih =>
    obtain ⟨n, hh⟩ := h len (by simp)
    exact ih (fun l hl => h l (by simp [hl])) _ (inttLayer_len hh hf)

theorem inttFold_undoes (ls : List Nat) (hls : ∀ len ∈ ls, ∃ n, HalfLength len n) {f g : Poly} {c : Zq}
    (hf : f.length = 256) (hg : g.length = 256)
    (h : ∀ i, i < 256 → (g.at i : Zq) = c * Poly.at (ls.foldl (fun g len => nttLayer len g) f) i) :
    ∀ i, i < 256 → (Poly.at (ls.reverse.foldl (fun g len => inttLayer len g) g) i : Zq) = 2 ^ ls.length * c * f.at i := by
  induction ls generalizing f with
  | nil => intro i hi; rw [List.length_nil, pow_zero, one_mul]; exact h i hi
  | cons len ls ih =>
    have hls' : ∀ l ∈ ls, ∃ n, HalfLength l n := fun l hl => hls l (by simp [hl])
    obtain ⟨n, hh⟩ := hls len (by simp)
    intro i hi
    rw [List.reverse_cons, List.foldl_append, List.foldl_cons, List.foldl_nil,
      inttLayer_undoes hh hf (inttFold_length _ (fun l hl => hls' l (List.mem_reverse.1 hl)) _ hg)
        (ih hls' (nttLayer_len hh hf) h) i hi, List.length_cons, pow_succ]
    ring

theorem nttFold_undoes (ls : List Nat) (hls : ∀ len ∈ ls, ∃ n, HalfLength len n) {f g : Poly} {c : Zq}
    (hf : f.length = 256) (hg : g.length = 256)
    (h : ∀ i, i < 256 → (g.at i : Zq) = c * Poly.at (ls.foldl (fun g len => inttLayer len g) f) i) :
    ∀ i, i < 256 → (Poly.at (ls.reverse.foldl (fun g len => nttLayer len g) g) i : Zq) = 2 ^ ls.length * c * f.at i := by
  induction ls generalizing f with
  | nil => intro i hi; rw [List.length_nil, pow_zero, one_mul]; exact h i hi
  | cons len ls ih =>
    have hls' : ∀ l ∈ ls, ∃ n, HalfLength l n := fun l hl => hls l (by simp [hl])
    obtain ⟨n, hh⟩ := hls len (by simp)
    intro i hi
    rw [List.reverse_cons, List.foldl_append, List.foldl_cons, List.foldl_nil,
      nttLayer_undoes hh hf (nttFold_length _ (fun l hl => hls' l (List.mem_reverse.1 hl)) _ hg)
        (ih hls' (inttLayer_len hh hf) h) i hi, List.length_cons, pow_succ]
    ring

theorem nttLengths_legal : ∀ len ∈ [128, 64, 32, 16, 8, 4, 2], ∃ n, HalfLength len n := by
  obtain ⟨h1, h2, h3, h4, h5, h6, h7⟩ := halfLengths
  simp only [List.mem_cons, List.not_mem_nil, or_false]
  rintro len (rfl | rfl | rfl | rfl | rfl | rfl | rfl)
  exacts [⟨_, h1⟩, ⟨_, h2⟩, ⟨_, h3⟩, ⟨_, h4⟩, ⟨_, h5⟩, ⟨_, h6⟩, ⟨_, h7⟩]

/-- The inverse transform undoes the forward one on a canonical polynomial. -/
theorem inttPoly_nttPoly {f : Poly} (hf : f.length = 256) (hc : canonical f = true) : inttPoly (nttPoly f) = f := by
  have hN := nttPoly_length hf
  refine Poly.ext_at ((inttPoly_length hN).trans hf.symm) fun i hi => ?_
  rw [inttPoly_length hN] at hi
  refine eq_of_cast (at_lt_of_canonical (inttPoly_canonical _) (by rw [inttPoly_length hN]; exact hi))
    (at_lt_of_canonical hc (by omega)) ?_
  have key := inttFold_undoes (c := 1) _ nttLengths_legal hf hN (fun i _ => by rw [one_mul]; rfl)
  unfold inttPoly
  refine scale_cast (inttFold_length _ (fun l hl => nttLengths_legal l (List.mem_reverse.1 hl)) _ hN) (fun j hj => ?_) i hi
  refine (key j hj).trans ?_
  congr 1

/-- The forward transform undoes the inverse one on a canonical polynomial. -/
theorem nttPoly_inttPoly {f : Poly} (hf : f.length = 256) (hc : canonical f = true) : nttPoly (inttPoly f) = f := by
  have hI := inttPoly_length hf
  refine Poly.ext_at ((nttPoly_length hI).trans hf.symm) fun i hi => ?_
  rw [nttPoly_length hI] at hi
  refine eq_of_cast (at_lt_of_canonical (nttPoly_canonical _ (inttPoly_canonical _)) (by rw [nttPoly_length hI]; exact hi))
    (at_lt_of_canonical hc (by omega)) ?_
  have hls : ∀ len ∈ [2, 4, 8, 16, 32, 64, 128], ∃ n, HalfLength len n := fun l hl =>
    nttLengths_legal l (by simp only [List.mem_cons, List.not_mem_nil, or_false] at hl ⊢; omega)
  have hl := inttFold_length _ hls f hf
  have h3303 : ((inverseScale : Nat) : Zq) * 128 = 1 := by decide
  have key := nttFold_undoes (c := (inverseScale : Nat)) _ hls hf hI (fun i hi => by
    unfold inttPoly
    rw [Poly.at_map (by omega), cast_mulMod, mul_comm])
  refine (key i hi).trans ?_
  have : (2 : Zq) ^ [2, 4, 8, 16, 32, 64, 128].length = 128 := by norm_num
  rw [this]
  linear_combination (f.at i : Zq) * h3303

/-! ## The layers of `NTT` split residues (rule R135) -/

theorem sum_range_even_odd {M : Type*} [AddCommMonoid M] (F : Nat → M) (n : Nat) :
    ∑ t ∈ Finset.range (2 * n), F t = ∑ t ∈ Finset.range n, (F (2 * t) + F (2 * t + 1)) := by
  induction n with
  | zero => rfl
  | succ n ih => rw [Nat.mul_succ, Finset.sum_range_succ, Finset.sum_range_succ, Finset.sum_range_succ, ih, add_assoc]

/-- The blocks of `g`, of `len` lanes each, list the residues of `f` modulo `X^len - W j`. -/
def Residues (f g : Poly) (len k : Nat) (W : Nat → Zq) : Prop :=
  ∀ j m, j < k → m < len → (g.at (j * len + m) : Zq) = ∑ t ∈ Finset.range k, (f.at (m + t * len) : Zq) * W j ^ t

/-- The roots after the layer of `n` blocks: each block splits into one for `z` and one for `-z`. -/
def layerRoot (n j : Nat) : Zq := if j % 2 = 0 then (zeta (n + j / 2) : Zq) else -(zeta (n + j / 2) : Zq)

theorem residues_start (f : Poly) : Residues f f (2 * 128) 1 (fun _ => 0) := by
  intro j m hj hm
  obtain rfl : j = 0 := by omega
  simp

theorem residues_layer {len n : Nat} {f g : Poly} {W : Nat → Zq} (hh : HalfLength len n) (hg : g.length = 256)
    (hW : n = 1 ∨ ∀ b, b < n → (zeta (n + b) : Zq) ^ 2 = W b) (h : Residues f g (2 * len) n W) :
    Residues f (nttLayer len g) len (2 * n) (layerRoot n) := by
  intro j m hj hm
  have hb : j / 2 < n := by omega
  have hpow : ∀ t, t ∈ Finset.range n → W (j / 2) ^ t = (zeta (n + j / 2) : Zq) ^ (2 * t) := by
    intro t ht
    rw [Finset.mem_range] at ht
    rcases hW with rfl | hW
    · obtain rfl : t = 0 := by omega
      rw [pow_zero, pow_zero]
    · rw [pow_mul, hW _ hb]
  have e := nttLayer_cast hh hg hb hm
  have r1 := h (j / 2) m hb (by omega)
  have r2 := h (j / 2) (len + m) hb (by omega)
  rw [← Nat.add_assoc] at r2
  rw [r1, r2] at e
  rw [sum_range_even_odd]
  have fe : ∀ t, m + 2 * t * len = m + t * (2 * len) := fun t => by ring
  have fo : ∀ t, m + (2 * t + 1) * len = len + m + t * (2 * len) := fun t => by ring
  simp only [fe, fo]
  unfold layerRoot
  rcases Nat.mod_two_eq_zero_or_one j with hj2 | hj2
  · rw [if_pos hj2, show j * len = j / 2 * (2 * len) by rw [← Nat.mul_assoc]; congr 1; omega, e.1, Finset.mul_sum, ← Finset.sum_add_distrib]
    refine Finset.sum_congr rfl fun t ht => ?_
    rw [hpow t ht]; ring
  · rw [if_neg (by omega), show j * len + m = j / 2 * (2 * len) + len + m by
        have : j = 2 * (j / 2) + 1 := by omega
        generalize j / 2 = c at this
        subst this; ring, e.2, Finset.mul_sum, ← Finset.sum_sub_distrib]
    refine Finset.sum_congr rfl fun t ht => ?_
    rw [hpow t ht, Even.neg_pow (even_two_mul t), Odd.neg_pow (by simp)]; ring

theorem zeta_squares : ∀ n ∈ [2, 4, 8, 16, 32, 64], ∀ b, b < n →
    zeta (n + b) ^ 2 % 3329 = if b % 2 = 0 then zeta (n / 2 + b / 2) else 3329 - zeta (n / 2 + b / 2) := by
  decide +kernel

theorem zeta_lt : ∀ k, k < 128 → zeta k < 3329 := by decide +kernel

theorem zeta_sq_cast {n b : Nat} (hn : n ∈ [1, 2, 4, 8, 16, 32]) (hb : b < 2 * n) : (zeta (2 * n + b) : Zq) ^ 2 = layerRoot n b := by
  have h2 : 2 * n ∈ [2, 4, 8, 16, 32, 64] := by
    simp only [List.mem_cons, List.not_mem_nil, or_false] at hn ⊢; omega
  have hn' : n ≤ 32 := by simp only [List.mem_cons, List.not_mem_nil, or_false] at hn; omega
  have := congrArg (Nat.cast (R := Zq)) (zeta_squares (2 * n) h2 b hb)
  rw [ZMod.natCast_mod, Nat.cast_pow, Nat.mul_div_cancel_left _ (by decide : 0 < 2)] at this
  rw [this]
  unfold layerRoot
  split
  · rfl
  · rw [Nat.cast_sub (zeta_lt _ (by omega)).le, ZMod.natCast_self, zero_sub]

theorem layerRoot_gamma {i : Nat} (hi : i < 128) : layerRoot 64 i = (gamma i : Zq) := by
  have : ∀ i, i < 128 → gamma i = if i % 2 = 0 then zeta (64 + i / 2) else 3329 - zeta (64 + i / 2) := by decide +kernel
  rw [this i hi]
  unfold layerRoot
  split
  · rfl
  · rw [Nat.cast_sub (zeta_lt _ (by omega)).le, ZMod.natCast_self, zero_sub]

theorem residues_next {len n : Nat} {f g : Poly} (hn : n ∈ [1, 2, 4, 8, 16, 32]) (hh : HalfLength len (2 * n)) (hg : g.length = 256)
    (h : Residues f g (2 * len) (2 * n) (layerRoot n)) :
    Residues f (nttLayer len g) len (2 * (2 * n)) (layerRoot (2 * n)) :=
  residues_layer hh hg (.inr fun _ hb => zeta_sq_cast hn hb) h

theorem nttPoly_residues {f : Poly} (hf : f.length = 256) : Residues f (nttPoly f) 2 128 (layerRoot 64) := by
  unfold nttPoly
  simp only [List.foldl_cons, List.foldl_nil]
  obtain ⟨h1, h2, h3, h4, h5, h6, h7⟩ := halfLengths
  have r1 := residues_layer h1 hf (.inl rfl) (residues_start f)
  have l1 := nttLayer_len h1 hf
  generalize nttLayer 128 f = g1 at r1 l1 ⊢
  have r2 := residues_next (len := 64) (n := 1) (by decide) h2 l1 r1
  have l2 := nttLayer_len h2 l1
  generalize nttLayer 64 g1 = g2 at r2 l2 ⊢
  have r3 := residues_next (len := 32) (n := 2) (by decide) h3 l2 r2
  have l3 := nttLayer_len h3 l2
  generalize nttLayer 32 g2 = g3 at r3 l3 ⊢
  have r4 := residues_next (len := 16) (n := 4) (by decide) h4 l3 r3
  have l4 := nttLayer_len h4 l3
  generalize nttLayer 16 g3 = g4 at r4 l4 ⊢
  have r5 := residues_next (len := 8) (n := 8) (by decide) h5 l4 r4
  have l5 := nttLayer_len h5 l4
  generalize nttLayer 8 g4 = g5 at r5 l5 ⊢
  have r6 := residues_next (len := 4) (n := 16) (by decide) h6 l5 r5
  have l6 := nttLayer_len h6 l5
  generalize nttLayer 4 g5 = g6 at r6 l6 ⊢
  exact residues_next (len := 2) (n := 32) (by decide) h7 l6 r6

/-- Pair `i` of the transform is the residue modulo `X^2 - GAMMA[i]`. -/
theorem nttPoly_pair {f : Poly} (hf : f.length = 256) {i m : Nat} (hi : i < 128) (hm : m < 2) :
    ((nttPoly f).at (2 * i + m) : Zq) = ∑ t ∈ Finset.range 128, (f.at (2 * t + m) : Zq) * (gamma i : Zq) ^ t := by
  have := nttPoly_residues hf i m hi hm
  rw [layerRoot_gamma hi] at this
  rw [Nat.mul_comm 2 i, this]
  refine Finset.sum_congr rfl fun t _ => ?_
  rw [show m + t * 2 = 2 * t + m by ring]

/-! ## The product in `Zq[X]/(X^256 + 1)` (rule R135) -/

/-- Multiplication of two coefficient lists where `x^256 = -1`. -/
theorem negacyclic_mul {S : Type*} [CommRing S] (x : S) (hx : x ^ 256 = -1) (a b : Nat → S) :
    ∑ k ∈ Finset.range 256,
        (∑ i ∈ Finset.range 256, a i * (if i ≤ k then b (k - i) else -b (256 + k - i))) * x ^ k =
      (∑ i ∈ Finset.range 256, a i * x ^ i) * ∑ j ∈ Finset.range 256, b j * x ^ j := by
  simp only [Finset.sum_mul]
  rw [Finset.sum_comm]
  refine Finset.sum_congr rfl fun i hi => ?_
  rw [Finset.mem_range] at hi
  have hR : ∑ j ∈ Finset.range 256, b j * x ^ (i + j) =
      ∑ k ∈ Finset.range 256, (if i ≤ k then b (k - i) else -b (256 + k - i)) * x ^ k := by
    rw [show 256 = (256 - i) + i by omega, Finset.sum_range_add,
      show (256 - i) + i = i + (256 - i) by omega, Finset.sum_range_add, add_comm]
    congr 1
    · refine Finset.sum_congr rfl fun k hk => ?_
      rw [Finset.mem_range] at hk
      rw [if_neg (by omega), show i + (256 - i + k) = 256 + k by omega, pow_add, hx,
        show 256 - i + k = i + (256 - i) + k - i by omega]
      ring
    · refine Finset.sum_congr rfl fun k hk => ?_
      rw [if_pos (by omega), Nat.add_sub_cancel_left]
  rw [Finset.mul_sum] 
  calc _ = a i * ∑ k ∈ Finset.range 256, (if i ≤ k then b (k - i) else -b (256 + k - i)) * x ^ k := by
        rw [Finset.mul_sum]; exact Finset.sum_congr rfl fun k _ => by ring
    _ = _ := by
        rw [← hR, Finset.mul_sum]; exact Finset.sum_congr rfl fun k _ => by rw [pow_add]; ring

/-- The pairs `u + v * X` with `X^2 = r`. -/
abbrev PairRing (r : Zq) := QuadraticAlgebra Zq r 0

theorem pair_pow_even (r : Zq) (t : Nat) : (⟨0, 1⟩ : PairRing r) ^ (2 * t) = ⟨r ^ t, 0⟩ := by
  induction t with
  | zero => rfl
  | succ t ih =>
    rw [Nat.mul_succ, pow_succ, pow_succ, ih]
    ext <;> simp [pow_succ, mul_comm]

theorem pair_sum (r : Zq) (f : Nat → Zq) (n : Nat) :
    ∑ i ∈ Finset.range (2 * n), (⟨f i, 0⟩ : PairRing r) * ⟨0, 1⟩ ^ i =
      ⟨∑ t ∈ Finset.range n, f (2 * t) * r ^ t, ∑ t ∈ Finset.range n, f (2 * t + 1) * r ^ t⟩ := by
  rw [sum_range_even_odd]
  induction n with
  | zero => rfl
  | succ n ih =>
    rw [Finset.sum_range_succ, ih, Finset.sum_range_succ, Finset.sum_range_succ, pow_succ, pair_pow_even]
    ext <;> simp

theorem gamma_pow : ∀ i, i < 128 → gamma i ^ 128 % 3329 = 3328 := by decide +kernel

theorem gamma_pow_cast {i : Nat} (hi : i < 128) : (gamma i : Zq) ^ 128 = -1 := by
  have := congrArg (Nat.cast (R := Zq)) (gamma_pow i hi)
  rw [ZMod.natCast_mod, Nat.cast_pow] at this
  rw [this]; rfl

/-- The product of two polynomials in `Zq[X]/(X^256 + 1)`. -/
def negacyclic (a b : Nat → Zq) (k : Nat) : Zq :=
  ∑ i ∈ Finset.range 256, a i * (if i ≤ k then b (k - i) else -b (256 + k - i))

theorem negacyclic_residues (a b : Nat → Zq) {i : Nat} (hi : i < 128) :
    let E (f : Nat → Zq) := ∑ t ∈ Finset.range 128, f (2 * t) * (gamma i : Zq) ^ t
    let O (f : Nat → Zq) := ∑ t ∈ Finset.range 128, f (2 * t + 1) * (gamma i : Zq) ^ t
    E (negacyclic a b) = E a * E b + O a * O b * gamma i ∧ O (negacyclic a b) = E a * O b + O a * E b := by
  intro E O
  have hx : (⟨0, 1⟩ : PairRing (gamma i)) ^ 256 = -1 := by
    rw [show 256 = 2 * 128 from rfl, pair_pow_even, gamma_pow_cast hi]
    ext <;> simp [QuadraticAlgebra.re_one, QuadraticAlgebra.im_one]
  have key := negacyclic_mul _ hx (fun k => (⟨a k, 0⟩ : PairRing (gamma i))) (fun k => ⟨b k, 0⟩)
  have hc : ∀ k, ∑ j ∈ Finset.range 256, (⟨a j, 0⟩ : PairRing (gamma i)) * (if j ≤ k then ⟨b (k - j), 0⟩ else -⟨b (256 + k - j), 0⟩) =
      ⟨negacyclic a b k, 0⟩ := by
    intro k
    have : ∀ j, (⟨a j, 0⟩ : PairRing (gamma i)) * (if j ≤ k then ⟨b (k - j), 0⟩ else -⟨b (256 + k - j), 0⟩) =
        algebraMap Zq _ (a j * (if j ≤ k then b (k - j) else -b (256 + k - j))) := by
      intro j
      split <;> (ext <;> simp [QuadraticAlgebra.algebraMap_eq])
    simp only [this]
    rw [← map_sum]; rfl
  simp only [hc] at key
  have h2 : (256 : Nat) = 2 * 128 := rfl
  rw [h2, pair_sum, pair_sum, pair_sum] at key
  have k1 := congrArg QuadraticAlgebra.re key
  have k2 := congrArg QuadraticAlgebra.im key
  simp only [QuadraticAlgebra.re_mul, QuadraticAlgebra.im_mul, zero_mul, add_zero] at k1 k2
  refine ⟨?_, ?_⟩
  · exact k1.trans (by ring)
  · exact k2.trans (by ring)

theorem cast_baseMul (x y : Poly) (i : Nat) :
    ((baseMul x y (2 * i) : Nat) : Zq) = x.at (2 * i) * y.at (2 * i) + x.at (2 * i + 1) * y.at (2 * i + 1) * gamma i ∧
    ((baseMul x y (2 * i + 1) : Nat) : Zq) = x.at (2 * i) * y.at (2 * i + 1) + x.at (2 * i + 1) * y.at (2 * i) := by
  unfold baseMul
  rw [show 2 * i / 2 = i by omega, show (2 * i + 1) / 2 = i by omega]
  simp only [Nat.mul_mod_right, if_pos, show (2 * i + 1) % 2 = 1 by omega, one_ne_zero, if_neg, not_false_eq_true]
  exact ⟨(ZMod.natCast_mod _ 3329).trans (by push_cast; rfl), (ZMod.natCast_mod _ 3329).trans (by push_cast; rfl)⟩

/-- The NTT-domain product of two transforms is the transform of the product in `Zq[X]/(X^256 + 1)`. -/
theorem nttPoly_of_product {f g c : Poly} (hf : f.length = 256) (hg : g.length = 256) (hc : c.length = 256)
    (hcan : canonical c = true)
    (h : ∀ k, k < 256 → (c.at k : Zq) = negacyclic (fun i => f.at i) (fun i => g.at i) k) :
    lanes (baseMul (nttPoly f) (nttPoly g)) = nttPoly c := by
  have hl : (lanes (baseMul (nttPoly f) (nttPoly g))).length = 256 := by simp [lanes, Config.N]
  refine Poly.ext_at (hl.trans (nttPoly_length hc).symm) fun k hk => ?_
  rw [hl] at hk
  have hat : (lanes (baseMul (nttPoly f) (nttPoly g))).at k = baseMul (nttPoly f) (nttPoly g) k := by
    unfold Poly.at lanes
    simp [List.getD_eq_getElem?_getD, Config.N, hk]
  rw [hat]
  refine eq_of_cast ?_ (at_lt_of_canonical (nttPoly_canonical c hcan) (by rw [nttPoly_length hc]; exact hk)) ?_
  · unfold baseMul; split <;> exact Nat.mod_lt _ (by decide)
  have hi : k / 2 < 128 := by omega
  have hb := cast_baseMul (nttPoly f) (nttPoly g) (k / 2)
  have pf0 := nttPoly_pair hf hi (m := 0) (by decide)
  have pf1 := nttPoly_pair hf hi (m := 1) (by decide)
  have pg0 := nttPoly_pair hg hi (m := 0) (by decide)
  have pg1 := nttPoly_pair hg hi (m := 1) (by decide)
  have pc0 := nttPoly_pair hc hi (m := 0) (by decide)
  have pc1 := nttPoly_pair hc hi (m := 1) (by decide)
  have hs0 : ∑ t ∈ Finset.range 128, (c.at (2 * t) : Zq) * (gamma (k / 2) : Zq) ^ t =
      ∑ t ∈ Finset.range 128, negacyclic (fun i => f.at i) (fun i => g.at i) (2 * t) * (gamma (k / 2) : Zq) ^ t :=
    Finset.sum_congr rfl fun t ht => by rw [h _ (by rw [Finset.mem_range] at ht; omega)]
  have hs1 : ∑ t ∈ Finset.range 128, (c.at (2 * t + 1) : Zq) * (gamma (k / 2) : Zq) ^ t =
      ∑ t ∈ Finset.range 128, negacyclic (fun i => f.at i) (fun i => g.at i) (2 * t + 1) * (gamma (k / 2) : Zq) ^ t :=
    Finset.sum_congr rfl fun t ht => by rw [h _ (by rw [Finset.mem_range] at ht; omega)]
  have hn := negacyclic_residues (fun i => (f.at i : Zq)) (fun i => (g.at i : Zq)) hi
  simp only [Nat.add_zero] at pf0 pg0 pc0
  rcases Nat.mod_two_eq_zero_or_one k with h2 | h2
  · have hk2 : k = 2 * (k / 2) := by omega
    rw [hk2, hb.1, pf0, pf1, pg0, pg1, pc0, hs0]
    exact hn.1.symm
  · have hk2 : k = 2 * (k / 2) + 1 := by omega
    rw [hk2, hb.2, pf0, pf1, pg0, pg1, pc1, hs1]
    exact hn.2.symm

/-- The product through the NTT domain. -/
theorem inttPoly_baseMul {f g c : Poly} (hf : f.length = 256) (hg : g.length = 256) (hc : c.length = 256)
    (hcan : canonical c = true)
    (h : ∀ k, k < 256 → (c.at k : Zq) = negacyclic (fun i => f.at i) (fun i => g.at i) k) :
    inttPoly (lanes (baseMul (nttPoly f) (nttPoly g))) = c := by
  rw [nttPoly_of_product hf hg hc hcan h, inttPoly_nttPoly hc hcan]

theorem cast_intMod (x : Int) : ((intMod x : Nat) : Zq) = (x : Zq) := by
  unfold intMod
  have h := Int.emod_nonneg x (show (Config.Q : Int) ≠ 0 by decide)
  rw [← Int.cast_natCast, Int.toNat_of_nonneg h]
  exact ZMod.intCast_mod x 3329

end Sys2Proof.Machine
end

