-- ==== Sys2Proof/Laws/PerInstr.lean ====
section
/-! SUPPORT. Facts of every command as syntax, one lemma per constructor. -/

namespace Sys2Proof.Laws.PackedWord

/-- The word of a well-formed command is packed from the fields of its own row, all within their widths
(rules R80, R85). -/
def Statement (i : Instr) : Prop :=
  i.wellFormed = true → ∃ r ∈ opcodeMap, ∃ d a b p : Nat,
    encode i = pack r.opc d a b p ∧ r.opc < 256 ∧ d < 16 ∧ a < 16 ∧ b < 16 ∧ p < 16 ∧
    (r.usesD || d == 0) = true ∧ (r.usesA || a == 0) = true ∧ (r.usesB || b == 0) = true ∧
    r.legalP.contains p = true ∧ r.build (slotOf d) (slotOf a) (slotOf b) p = i

theorem nop : Statement (.nop) := fun _ =>
  ⟨opcodeMap[0], by simp [opcodeMap], 0, 0, 0, 0, rfl, by decide, by omega, by omega, by omega,
    by omega, rfl, rfl, rfl, rfl, by simp [opcodeMap]⟩

theorem fadd : Statement (.fadd) := fun _ =>
  ⟨opcodeMap[1], by simp [opcodeMap], 0, 0, 0, 0, rfl, by decide, by omega, by omega, by omega,
    by omega, rfl, rfl, rfl, rfl, by simp [opcodeMap]⟩

theorem fsub : Statement (.fsub) := fun _ =>
  ⟨opcodeMap[2], by simp [opcodeMap], 0, 0, 0, 0, rfl, by decide, by omega, by omega, by omega,
    by omega, rfl, rfl, rfl, rfl, by simp [opcodeMap]⟩

theorem fmul : Statement (.fmul) := fun _ =>
  ⟨opcodeMap[3], by simp [opcodeMap], 0, 0, 0, 0, rfl, by decide, by omega, by omega, by omega,
    by omega, rfl, rfl, rfl, rfl, by simp [opcodeMap]⟩

theorem fred : Statement (.fred) := fun _ =>
  ⟨opcodeMap[4], by simp [opcodeMap], 0, 0, 0, 0, rfl, by decide, by omega, by omega, by omega,
    by omega, rfl, rfl, rfl, rfl, by simp [opcodeMap]⟩

theorem fbred : Statement (.fbred) := fun _ =>
  ⟨opcodeMap[5], by simp [opcodeMap], 0, 0, 0, 0, rfl, by decide, by omega, by omega, by omega,
    by omega, rfl, rfl, rfl, rfl, by simp [opcodeMap]⟩

theorem fmred : Statement (.fmred) := fun _ =>
  ⟨opcodeMap[6], by simp [opcodeMap], 0, 0, 0, 0, rfl, by decide, by omega, by omega, by omega,
    by omega, rfl, rfl, rfl, rfl, by simp [opcodeMap]⟩

theorem padd (d : SlotNo) (a : SlotNo) (b : SlotNo) : Statement (.padd d a b) := fun _ =>
  ⟨opcodeMap[7], by simp [opcodeMap], d.val, a.val, b.val, 0, rfl, by decide, by omega, by omega, by omega,
    by omega, rfl, rfl, rfl, rfl, by simp [opcodeMap, slotOf_val]⟩

theorem psub (d : SlotNo) (a : SlotNo) (b : SlotNo) : Statement (.psub d a b) := fun _ =>
  ⟨opcodeMap[8], by simp [opcodeMap], d.val, a.val, b.val, 0, rfl, by decide, by omega, by omega, by omega,
    by omega, rfl, rfl, rfl, rfl, by simp [opcodeMap, slotOf_val]⟩

theorem pred (d : SlotNo) (a : SlotNo) : Statement (.pred d a) := fun _ =>
  ⟨opcodeMap[9], by simp [opcodeMap], d.val, a.val, 0, 0, rfl, by decide, by omega, by omega, by omega,
    by omega, rfl, rfl, rfl, rfl, by simp [opcodeMap, slotOf_val]⟩

theorem ntt (d : SlotNo) : Statement (.ntt d) := fun _ =>
  ⟨opcodeMap[10], by simp [opcodeMap], d.val, 0, 0, 0, rfl, by decide, by omega, by omega, by omega,
    by omega, rfl, rfl, rfl, rfl, by simp [opcodeMap, slotOf_val]⟩

theorem intt (d : SlotNo) : Statement (.intt d) := fun _ =>
  ⟨opcodeMap[11], by simp [opcodeMap], d.val, 0, 0, 0, rfl, by decide, by omega, by omega, by omega,
    by omega, rfl, rfl, rfl, rfl, by simp [opcodeMap, slotOf_val]⟩

theorem bmul (d : SlotNo) (a : SlotNo) (b : SlotNo) : Statement (.bmul d a b) := fun _ =>
  ⟨opcodeMap[12], by simp [opcodeMap], d.val, a.val, b.val, 0, rfl, by decide, by omega, by omega, by omega,
    by omega, rfl, rfl, rfl, rfl, by simp [opcodeMap, slotOf_val]⟩

theorem bmac (d : SlotNo) (a : SlotNo) (b : SlotNo) : Statement (.bmac d a b) := fun _ =>
  ⟨opcodeMap[13], by simp [opcodeMap], d.val, a.val, b.val, 0, rfl, by decide, by omega, by omega, by omega,
    by omega, rfl, rfl, rfl, rfl, by simp [opcodeMap, slotOf_val]⟩

theorem suni (d : SlotNo) : Statement (.suni d) := fun _ =>
  ⟨opcodeMap[14], by simp [opcodeMap], d.val, 0, 0, 0, rfl, by decide, by omega, by omega, by omega,
    by omega, rfl, rfl, rfl, rfl, by simp [opcodeMap, slotOf_val]⟩

theorem scbd (d : SlotNo) (p : Nat) : Statement (.scbd d p) := fun h =>
  ⟨opcodeMap[15], by simp [opcodeMap], d.val, 0, 0, p, rfl, by decide, by omega, by omega, by omega,
    (legalEta_listed h).2, rfl, rfl, rfl, (legalEta_listed h).1, by simp [opcodeMap, slotOf_val]⟩

theorem cmpr (d : SlotNo) (a : SlotNo) (p : Nat) : Statement (.cmpr d a p) := fun h =>
  ⟨opcodeMap[16], by simp [opcodeMap], d.val, a.val, 0, p, rfl, by decide, by omega, by omega, by omega,
    (legalCompressWidth_listed h).2, rfl, rfl, rfl, (legalCompressWidth_listed h).1, by simp [opcodeMap, slotOf_val]⟩

theorem dcmp (d : SlotNo) (a : SlotNo) (p : Nat) : Statement (.dcmp d a p) := fun h =>
  ⟨opcodeMap[17], by simp [opcodeMap], d.val, a.val, 0, p, rfl, by decide, by omega, by omega, by omega,
    (legalCompressWidth_listed h).2, rfl, rfl, rfl, (legalCompressWidth_listed h).1, by simp [opcodeMap, slotOf_val]⟩

theorem enc (a : SlotNo) (p : Nat) : Statement (.enc a p) := fun h =>
  ⟨opcodeMap[18], by simp [opcodeMap], 0, a.val, 0, p, rfl, by decide, by omega, by omega, by omega,
    (legalPackWidth_listed h).2, rfl, rfl, rfl, (legalPackWidth_listed h).1, by simp [opcodeMap, slotOf_val]⟩

theorem dec (d : SlotNo) (p : Nat) : Statement (.dec d p) := fun h =>
  ⟨opcodeMap[19], by simp [opcodeMap], d.val, 0, 0, p, rfl, by decide, by omega, by omega, by omega,
    (legalPackWidth_listed h).2, rfl, rfl, rfl, (legalPackWidth_listed h).1, by simp [opcodeMap, slotOf_val]⟩

theorem pzero (d : SlotNo) : Statement (.pzero d) := fun _ =>
  ⟨opcodeMap[20], by simp [opcodeMap], d.val, 0, 0, 0, rfl, by decide, by omega, by omega, by omega,
    by omega, rfl, rfl, rfl, rfl, by simp [opcodeMap, slotOf_val]⟩

theorem pcopy (d : SlotNo) (a : SlotNo) : Statement (.pcopy d a) := fun _ =>
  ⟨opcodeMap[21], by simp [opcodeMap], d.val, a.val, 0, 0, rfl, by decide, by omega, by omega, by omega,
    by omega, rfl, rfl, rfl, rfl, by simp [opcodeMap, slotOf_val]⟩

theorem wipe : Statement (.wipe) := fun _ =>
  ⟨opcodeMap[22], by simp [opcodeMap], 0, 0, 0, 0, rfl, by decide, by omega, by omega, by omega,
    by omega, rfl, rfl, rfl, rfl, by simp [opcodeMap]⟩

end Sys2Proof.Laws.PackedWord

namespace Sys2Proof.Laws

/-- The statement of every command. -/
theorem packedWord_all (i : Instr) : PackedWord.Statement i := by
  cases i with
  | nop => exact PackedWord.nop
  | fadd => exact PackedWord.fadd
  | fsub => exact PackedWord.fsub
  | fmul => exact PackedWord.fmul
  | fred => exact PackedWord.fred
  | fbred => exact PackedWord.fbred
  | fmred => exact PackedWord.fmred
  | padd d a b => exact PackedWord.padd d a b
  | psub d a b => exact PackedWord.psub d a b
  | pred d a => exact PackedWord.pred d a
  | ntt d => exact PackedWord.ntt d
  | intt d => exact PackedWord.intt d
  | bmul d a b => exact PackedWord.bmul d a b
  | bmac d a b => exact PackedWord.bmac d a b
  | suni d => exact PackedWord.suni d
  | scbd d p => exact PackedWord.scbd d p
  | cmpr d a p => exact PackedWord.cmpr d a p
  | dcmp d a p => exact PackedWord.dcmp d a p
  | enc a p => exact PackedWord.enc a p
  | dec d p => exact PackedWord.dec d p
  | pzero d => exact PackedWord.pzero d
  | pcopy d a => exact PackedWord.pcopy d a
  | wipe => exact PackedWord.wipe

/-- The word of a well-formed command has `RSV` 0 (rules R83, R85). -/
theorem rsvOf_encode {i : Instr} (h : i.wellFormed = true) : rsvOf (encode i) = 0 := by
  obtain ⟨r, -, d, a, b, p, he, ho, hd, ha, hb, hp, -⟩ := packedWord_all i h
  rw [he]
  exact rsvOf_pack ho hd ha hb hp

end Sys2Proof.Laws
end

