-- ==== Sys2Proof/Laws/Sampler.lean ====
section
/-! SUPPORT. The rejection loop against the list of acceptable candidates (rules R152, R153). -/

namespace Sys2Proof.Machine

/-- The byte count that 32 bits hold is `RESULT` (rule R154). -/
theorem byteCount_of_lt {pos : Nat} (h : pos < 2 ^ 32) : byteCount pos = BitVec.ofNat 32 pos := if_pos h

/-- What a `SUNI` that ends by acceptance leaves in `RESULT`: a function of the count alone (rule R159). -/
@[simp] theorem suniAccepted_result (d : SlotNo) (smp : Sampling) (s : State) :
    (suniAccepted d smp s).result = byteCount smp.pos := rfl

/-- One more group adds its candidates below `Q`. -/
theorem acceptable_succ (x : Nat → Byte) (k : Nat) : acceptable x (k + 1) = acceptable x k ++
    [candidate1 (x (3 * k)).toNat (x (3 * k + 1)).toNat,
      candidate2 (x (3 * k + 1)).toNat (x (3 * k + 2)).toNat].filter fun c => decide (c < Config.Q) := by
  unfold acceptable candidates
  rw [List.range_succ, List.flatMap_append, List.filter_append]
  simp only [List.flatMap_cons, List.flatMap_nil, List.append_nil]
  rfl

theorem acceptCandidate_take (c : Nat) (l : List Nat) :
    acceptCandidate c (l.take 256) = (l ++ [c].filter fun c => decide (c < Config.Q)).take 256 := by
  unfold acceptCandidate
  simp only [List.filter_cons, List.filter_nil, Config.N, List.length_take]
  by_cases h : c < Config.Q
  · simp only [h, true_and, decide_true, if_true]
    split
    · rw [List.take_of_length_le (by omega : l.length ≤ 256), List.take_of_length_le (by simp; omega)]
    · rw [List.take_append_of_le_length (by omega)]
  · simp [h]

/-- The body of the loop after `k` groups. -/
theorem takeGroup_acceptable (x : Nat → Byte) (k : Nat) :
    takeGroup x ⟨3 * k, (acceptable x k).take 256⟩ = ⟨3 * (k + 1), (acceptable x (k + 1)).take 256⟩ := by
  unfold takeGroup
  simp only [acceptCandidate_take, acceptable_succ, Sampling.mk.injEq]
  refine ⟨by omega, ?_⟩
  rw [List.append_assoc, ← List.filter_append]
  rfl

/-- What `n` rounds of the loop can do after `k` groups: accept with group `m`, meet the budget before group
`m + 1`, or neither. -/
theorem rejectionLoop_acceptable (x : Nat → Byte) (lim n k : Nat) (hk : (acceptable x k).length < 256) :
    (∃ m, k < m ∧ m ≤ k + n ∧ (lim = 0 ∨ 3 * m ≤ lim) ∧ (acceptable x (m - 1)).length < 256 ∧
      256 ≤ (acceptable x m).length ∧
      rejectionLoop x lim n ⟨3 * k, (acceptable x k).take 256⟩ = .accepted ⟨3 * m, (acceptable x m).take 256⟩) ∨
    (∃ m, k ≤ m ∧ m < k + n ∧ lim ≠ 0 ∧ lim < 3 * m + 3 ∧ (m = k ∨ 3 * m ≤ lim) ∧ (acceptable x m).length < 256 ∧
      rejectionLoop x lim n ⟨3 * k, (acceptable x k).take 256⟩ = .limit) ∨
    ((lim = 0 ∨ 3 * (k + n) ≤ lim ∨ n = 0) ∧ (acceptable x (k + n)).length < 256 ∧
      rejectionLoop x lim n ⟨3 * k, (acceptable x k).take 256⟩ =
        .unfinished ⟨3 * (k + n), (acceptable x (k + n)).take 256⟩) := by
  induction n generalizing k with
  | zero =>
    refine .inr (.inr ⟨by simp, hk, ?_⟩)
    unfold rejectionLoop
    rw [if_neg (by simp [Config.N]; omega)]
    rfl
  | succ n ih =>
    unfold rejectionLoop
    rw [if_neg (by simp [Config.N]; omega)]
    by_cases hl : lim ≠ 0 ∧ lim < 3 * k + 3
    · exact .inr (.inl ⟨k, le_rfl, by omega, hl.1, hl.2, .inl rfl, hk, by rw [if_pos hl]⟩)
    · rw [if_neg hl, takeGroup_acceptable]
      by_cases hk' : (acceptable x (k + 1)).length < 256
      · rcases ih (k + 1) hk' with ⟨m, h1, h2, h3, h4, h5, h6⟩ | ⟨m, h1, h2, h3, h4, h5, h6, h7⟩ | ⟨h1, h2, h3⟩
        · exact .inl ⟨m, by omega, by omega, h3, h4, h5, h6⟩
        · exact .inr (.inl ⟨m, by omega, by omega, h3, h4, by omega, h6, h7⟩)
        · rw [show k + 1 + n = k + (n + 1) by omega] at h1 h2 h3
          exact .inr (.inr ⟨by omega, h2, h3⟩)
      · refine .inl ⟨k + 1, by omega, by omega, by omega, hk, by omega, ?_⟩
        cases n <;> (unfold rejectionLoop; rw [if_pos (by simp [Config.N]; omega)])

end Sys2Proof.Machine
end

