-- ==== Sys2Proof/Laws/Step.lean ====
section
/-! SUPPORT. What one step can be, said once. -/

namespace Sys2Proof.Machine

theorem step_of_access {s : State} {a : BusAccess} {rest : List Arrival} (h : s.arrivals = .access a :: rest) :
    step s = busAccess a (served s) := by
  simp [step, nextTurn, h]

theorem step_of_resetPulse {s : State} {rest : List Arrival} (h : s.arrivals = .resetPulse :: rest) :
    step s = .next (enterReset (served s)) := by
  simp [step, nextTurn, h]

theorem nextTurn_of_blockNext {s : State} (h : BlockNext s) : nextTurn s = blockTurn s := by
  rcases h with h | ⟨rest, h⟩ <;> simp [nextTurn, h]

theorem step_of_idle {s : State} (h : BlockNext s) (he : s.engine = .idle) : step s = .next (served s) := by
  simp [step, nextTurn_of_blockNext h, blockTurn, he]

theorem step_of_wiping {s : State} (h : BlockNext s) (he : s.engine = .wiping) :
    step s = .next (endWipe (served s)) := by
  simp [step, nextTurn_of_blockNext h, blockTurn, he]

theorem step_of_running {s : State} {v : Word} {ops : Operands} {smp : Sampling} {i : Instr} (h : BlockNext s)
    (he : s.engine = .running v ops smp) (hd : decode v = .ok i) : step s = exec i (served s) := by
  simp [step, nextTurn_of_blockNext h, blockTurn, he, hd]

/-- Whose turn it is: a host access, a reset pulse, or the block (rule R247). -/
theorem arrivals_cases (s : State) :
    (∃ a rest, s.arrivals = .access a :: rest) ∨ (∃ rest, s.arrivals = .resetPulse :: rest) ∨ BlockNext s := by
  unfold BlockNext
  rcases h : s.arrivals with _ | ⟨_ | _ | _, rest⟩ <;> simp

/-- What a step that answers a next state can be (rule R247). -/
theorem step_cases {s t : State} (h : step s = .next t) :
    (∃ a rest, s.arrivals = .access a :: rest ∧ busAccess a (served s) = .next t) ∨
    (∃ rest, s.arrivals = .resetPulse :: rest ∧ t = enterReset (served s)) ∨
    (BlockNext s ∧ s.engine = .idle ∧ t = served s) ∨
    (BlockNext s ∧ s.engine = .wiping ∧ t = endWipe (served s)) ∨
    (BlockNext s ∧ ∃ v ops smp i, s.engine = .running v ops smp ∧ decode v = .ok i ∧
      exec i (served s) = .next t) := by
  rcases arrivals_cases s with ⟨a, rest, ha⟩ | ⟨rest, ha⟩ | hb
  · exact .inl ⟨a, rest, ha, by rw [← step_of_access ha]; exact h⟩
  · rw [step_of_resetPulse ha] at h
    cases h
    exact .inr (.inl ⟨rest, ha, rfl⟩)
  · refine .inr (.inr ?_)
    rcases he : s.engine with _ | ⟨v, ops, smp⟩ | _
    · rw [step_of_idle hb he] at h
      cases h
      exact .inl ⟨hb, rfl, rfl⟩
    · rcases hd : decode v with r | i
      · simp [step, nextTurn_of_blockNext hb, blockTurn, he, hd] at h
      · rw [step_of_running hb he hd] at h
        exact .inr (.inr ⟨hb, v, ops, smp, i, rfl, hd, h⟩)
    · rw [step_of_wiping hb he] at h
      cases h
      exact .inr (.inl ⟨hb, rfl, rfl⟩)

/-! ## The reset wipe and `SEED` -/

/-- A reset leaves the engine legal: `SEED` is 0 from its start (rule R194). -/
theorem enterReset_engineLegal (s : State) : engineLegal (enterReset s) = true := by
  refine List.all_eq_true.2 fun k hk => ?_
  rw [enterReset_mem, Memory.read_seed_clearSeed _ (List.mem_range.1 hk), beq_self_eq_true]

/-- What a legal engine says of `SEED` during the wipe. -/
theorem seedByte_of_wiping {s : State} (h : engineLegal s = true) (hw : s.engine = .wiping) {k : Nat}
    (hk : k < 32) : s.seedByte k = 0#8 := by
  unfold engineLegal at h
  rw [hw] at h
  exact eq_of_beq (List.all_eq_true.1 h k (List.mem_range.2 hk))

end Sys2Proof.Machine
end

