-- ==== Sys2Proof/Tests/Slice0.lean ====
section
/-! SUPPORT. Tests on the spec's own examples (95_test_vectors.md), ill-formed commands the well-formedness
check refuses, command words written out from the encoding, and a witness for the hypotheses of each
obligation. -/

open Sys2Proof Sys2Proof.Machine

namespace Sys2Proof.Tests

-- One theorem at a time: a task for each evaluation in the kernel costs a thread with its own stack.
set_option Elab.async false

/-! ## Well-formedness (rule R82): each ill-formed term is refused, the boundary values pass -/

theorem test_wf_scbd_eta : Instr.wellFormed (.scbd 0 1) = false ∧ Instr.wellFormed (.scbd 0 4) = false ∧
    Instr.wellFormed (.scbd 0 2) = true ∧ Instr.wellFormed (.scbd 0 3) = true := by decide

theorem test_wf_cmpr_width : Instr.wellFormed (.cmpr 0 1 0) = false ∧ Instr.wellFormed (.cmpr 0 1 12) = false ∧
    Instr.wellFormed (.cmpr 0 1 1) = true ∧ Instr.wellFormed (.cmpr 0 1 11) = true := by decide

theorem test_wf_dcmp_width : Instr.wellFormed (.dcmp 0 1 0) = false ∧ Instr.wellFormed (.dcmp 0 1 12) = false ∧
    Instr.wellFormed (.dcmp 0 1 1) = true ∧ Instr.wellFormed (.dcmp 0 1 11) = true := by decide

theorem test_wf_enc_width : Instr.wellFormed (.enc 0 0) = false ∧ Instr.wellFormed (.enc 0 13) = false ∧
    Instr.wellFormed (.enc 0 1) = true ∧ Instr.wellFormed (.enc 0 12) = true := by decide

theorem test_wf_dec_width : Instr.wellFormed (.dec 0 0) = false ∧ Instr.wellFormed (.dec 0 13) = false ∧
    Instr.wellFormed (.dec 0 1) = true ∧ Instr.wellFormed (.dec 0 12) = true := by decide

/-! ## Decoding (rules R80, R85): every constructor, from a word written out field by field,
`RSV | P | B | A | D | OPC` -/

theorem test_decode_nop : decode 0b00000000_0000_0000_0000_0000_00000000#32 = .ok .nop := by decide
theorem test_decode_fadd : decode 0b00000000_0000_0000_0000_0000_00000001#32 = .ok .fadd := by decide
theorem test_decode_fsub : decode 0b00000000_0000_0000_0000_0000_00000010#32 = .ok .fsub := by decide
theorem test_decode_fmul : decode 0b00000000_0000_0000_0000_0000_00000011#32 = .ok .fmul := by decide
theorem test_decode_fred : decode 0b00000000_0000_0000_0000_0000_00000100#32 = .ok .fred := by decide
theorem test_decode_fbred : decode 0b00000000_0000_0000_0000_0000_00000101#32 = .ok .fbred := by decide
theorem test_decode_fmred : decode 0b00000000_0000_0000_0000_0000_00000110#32 = .ok .fmred := by decide
theorem test_decode_padd : decode 0b00000000_0000_0011_0001_0100_00010000#32 = .ok (.padd 4 1 3) := by decide
theorem test_decode_psub : decode 0b00000000_0000_1101_1110_1111_00010001#32 = .ok (.psub 15 14 13) := by decide
theorem test_decode_pred : decode 0b00000000_0000_0000_0001_0010_00010010#32 = .ok (.pred 2 1) := by decide
theorem test_decode_ntt : decode 0b00000000_0000_0000_0000_1001_00100000#32 = .ok (.ntt 9) := by decide
theorem test_decode_intt : decode 0b00000000_0000_0000_0000_0010_00100001#32 = .ok (.intt 2) := by decide
theorem test_decode_bmul : decode 0b00000000_0000_0001_0000_0010_00100010#32 = .ok (.bmul 2 0 1) := by decide
theorem test_decode_bmac : decode 0b00000000_0000_1000_0100_0010_00100011#32 = .ok (.bmac 2 4 8) := by decide
theorem test_decode_suni : decode 0b00000000_0000_0000_0000_0110_00110000#32 = .ok (.suni 6) := by decide
theorem test_decode_scbd : decode 0b00000000_0010_0000_0000_0001_00110001#32 = .ok (.scbd 1 2) := by decide
theorem test_decode_cmpr : decode 0b00000000_0001_0000_0100_0101_01000000#32 = .ok (.cmpr 5 4 1) := by decide
theorem test_decode_dcmp : decode 0b00000000_1011_0000_0000_0001_01000001#32 = .ok (.dcmp 1 0 11) := by decide
theorem test_decode_enc : decode 0b00000000_1100_0000_0010_0000_01000010#32 = .ok (.enc 2 12) := by decide
theorem test_decode_dec : decode 0b00000000_0001_0000_0000_0011_01000011#32 = .ok (.dec 3 1) := by decide
theorem test_decode_pzero : decode 0b00000000_0000_0000_0000_0011_01010000#32 = .ok (.pzero 3) := by decide
theorem test_decode_pcopy : decode 0b00000000_0000_0000_0010_0101_01010001#32 = .ok (.pcopy 5 2) := by decide
theorem test_decode_wipe : decode 0b00000000_0000_0000_0000_0000_01011111#32 = .ok .wipe := by decide

/-- Rejections of 95_test_vectors.md section 7, by name. -/
theorem test_decode_rejects : decode 0x000000FF#32 = .error .reservedOpcode ∧
    decode 0x00000007#32 = .error .reservedOpcode ∧ decode 0x01032110#32 = .error .illegalField ∧
    decode 0x00002120#32 = .error .illegalField ∧ decode 0x00400031#32 = .error .illegalField ∧
    decode 0x00C00140#32 = .error .illegalField := by decide

/-! ## Small states -/

/-- The block idle after a reset, nothing arriving. -/
def idle : State := { State.reset with engine := .idle }

/-- The idle block with scalar operands. -/
def scalars (a b : Half) : State := { idle with faA := a, faB := b }

/-- The idle block with a wide operand. -/
def wide (w : Word) : State := { idle with faW := w }

/-- The idle block with the word `v` at offset `x` and the word `v'` at offset `x'`, the rest of memory zero. -/
def words (x : Nat) (v : Word) (x' : Nat) (v' : Word) : State :=
  { idle with mem := (Memory.setWord [] x v).setWord x' v' }

/-- The idle block with `v` in the first two lanes of slot 0. -/
def slot0 (v : Word) : State := { idle with mem := Memory.setWord [] 0x2000 v }

/-- The block with command `i` in flight on its live operands. -/
def inFlight (i : Instr) (s : State) : State := accept (encode i) s

/-- `s` with one arrival. -/
def arriving (a : Arrival) (s : State) : State := { s with arrivals := [a] }

/-- The state after command `i`; reset if it stopped. -/
def after (i : Instr) (s : State) : State :=
  match exec i s with
  | .next t => t
  | .fault _ => State.reset
  | .refused _ => State.reset

/-- The state after a host write; reset if it got a bus error. -/
def written (x : Nat) (v : Word) (s : State) : State :=
  match step (arriving (.access (.write x 4 v)) s) with
  | .next t => t
  | .fault _ => State.reset
  | .refused _ => State.reset

/-- The answer to a host read. -/
def readBack (x : Nat) (s : State) : Response :=
  match step (arriving (.access (.read x 4)) s) with
  | .next t => t.response
  | .fault _ => .none
  | .refused _ => .none

/-! ## Field arithmetic (95 section 3) -/

theorem test_fadd_wraps : (after .fadd (scalars 1664 1665)).result = 0#32 ∧
    (after .fadd (scalars 3000 3000)).result = 2671#32 ∧ (after .fadd (scalars 0 1)).status = 0x2#32 := by decide

theorem test_fadd_range : (after .fadd (scalars 3329 0)).status = 0x406#32 := by decide

theorem test_fsub_negative : (after .fsub (scalars 0 1)).result = 3328#32 ∧
    (after .fsub (scalars 1665 2)).result = 1663#32 := by decide

theorem test_fmul : (after .fmul (scalars 3328 3328)).result = 1#32 ∧
    (after .fmul (scalars 1664 1665)).result = 832#32 := by decide

theorem test_fred : (after .fred (scalars 65535 0)).result = 2284#32 ∧
    (after .fred (scalars 32768 0)).result = 2807#32 := by decide

theorem test_fbred : (after .fbred (wide 0xFFFFFFFF)).result = 1352#32 ∧
    (after .fbred (wide 0x80000000)).result = 2341#32 ∧ (after .fbred (wide 0x00A91A01)).result = 0#32 := by decide

theorem test_fmred : (after .fmred (wide 2285)).result = 1#32 ∧
    (after .fmred (wide 218169343)).result = 3160#32 ∧
    (after .fmred (wide 218169344)).status = 0x406#32 := by decide

theorem test_padd_wraps :
    (after (.padd 4 1 3) (words 0x2200 0x00000681 0x2600 0x00640A45)).lane 4 0 = 965 := by decide +kernel

theorem test_padd_doubles : (after (.padd 1 1 1) (words 0x2200 3000 0x2000 0)).lane 1 0 = 2671 := by decide +kernel

/-- `0 - 2` wraps to `Q - 2` (rule R111). -/
theorem test_psub_negative : (after (.psub 2 0 1) (words 0x2200 2 0x2000 0)).lane 2 0 = 3327 := by decide +kernel

theorem test_padd_one_lane_out_of_range :
    (after (.padd 2 0 1) (words 0x2020 0x0D010000 0x2200 0)).status = 0x406#32 := by decide +kernel

theorem test_pred :
    let t := after (.pred 2 1) (words 0x2200 0x0E02FFFF 0x2000 0)
    t.lane 2 0 = 2284 ∧ t.lane 2 1 = 257 ∧ t.status = 0x2#32 := by decide +kernel

/-! ## NTT engine (95 section 4) -/

theorem test_ntt_X128 :
    (after (.ntt 0) (words 0x2100 1 0x2000 0)).lane 0 0 = 1729 ∧
    [126, 128, 254, 1, 255].map (nttPoly (lanes fun i => if i = 128 then 1 else 0)).at = [1729, 1600, 1600, 0, 0] := by
  decide +kernel

theorem test_ntt_all_3328 : (nttPoly (lanes fun _ => 3328)).take 8 = [2913, 2913, 2959, 2959, 509, 509, 593, 593] := by
  decide +kernel

theorem test_intt_X : (inttPoly (lanes fun i => i % 2)).take 4 = [0, 1, 0, 0] := by decide +kernel

theorem test_intt_unit : (inttPoly (lanes fun i => if i = 0 then 1 else 0)).take 8 = [3303, 0, 2740, 0, 357, 0, 21, 0] := by
  decide +kernel

/-- The example of rule R133, and by hand `(100 + 2 X)(3 + 4 X) mod (X^2 - 17)`. -/
theorem test_bmul :
    (List.range 3).map (baseMul [1, 2] [3, 4]) = [139, 10, 0] ∧
    (let t := after (.bmul 2 0 1) (words 0x2000 0x00020064 0x2200 0x00040003)
     t.lane 2 0 = 436 ∧ t.lane 2 1 = 406) := by decide +kernel

theorem test_bmul_all_3328 :
    (lanes (baseMul (lanes fun _ => 3328) (lanes fun _ => 3328))).take 4 = [18, 2, 3313, 2] := by decide +kernel

/-- By hand: `20 + 20 X + (20 + 20 X)^2` modulo `X^2 - 17` and modulo `X^2 + 17`. -/
theorem test_bmac_reads_old_destination :
    let t := after (.bmac 2 2 2) (words 0x2400 0x00140014 0x2404 0x00140014)
    t.lane 2 0 = 562 ∧ t.lane 2 1 = 820 ∧ t.lane 2 2 = 278 ∧ t.lane 2 3 = 820 := by decide +kernel

theorem test_bmac_old_destination_out_of_range :
    (after (.bmac 2 0 1) (words 0x2400 3329 0x2000 0)).status = 0x406#32 := by decide +kernel

/-! ## Sampler (95 section 5: the stream bytes printed there) -/

/-- The first bytes of the XOF stream of seed 00..1f with `X = Y = 0`. -/
def printedStream (k : Nat) : Byte :=
  [0xe1#8, 0xa1#8, 0xf8#8, 0xaa#8, 0xfe#8, 0x77#8, 0x9a#8, 0x75#8, 0x93#8, 0x47#8, 0xa1#8, 0x42#8].getD k 0#8

/-- The first four coefficients of the printed row come from three groups: 3978 and 3754, the second candidate of
the first group and the first of the second, are rejected (log entry 16). -/
theorem test_suni_candidates : (takeGroup printedStream (takeGroup printedStream (takeGroup printedStream
    .start))).accepted = [481, 1919, 1434, 2359] := by decide

/-- The boundary, calculated by hand from rule R153: 3329 is rejected, 3328 accepted. -/
theorem test_suni_rejects_noncanonical :
    (takeGroup (fun k => [0x01#8, 0x0d#8, 0xd0#8].getD k 0#8) .start).accepted = [3328] := by decide

/-- The first bytes of the PRF stream of seed 00..1f with `N = 0`. -/
def printedPrf (k : Nat) : Byte :=
  [0xa4#8, 0x21#8, 0xbc#8, 0x55#8, 0x78#8, 0x44#8, 0x6c#8, 0x87#8].getD k 0#8

theorem test_scbd_eta2 : (List.range 16).map (cbdCoeff printedPrf 2) =
    [3328, 0, 1, 1, 3327, 1, 0, 0, 3328, 1, 3328, 3328, 3327, 0, 1, 3328] := by decide +kernel

theorem test_scbd_eta3 : (List.range 10).map (cbdCoeff printedPrf 3) = [0, 2, 1, 1, 1, 0, 3, 0, 3328, 0] := by
  decide +kernel

/-- A budget of 5 bytes allows one group (rule R152). -/
theorem test_suni_limit : rejectionLoop (fun _ => 0) 5 1 .start = .unfinished ⟨3, [0, 0]⟩ ∧
    rejectionLoop (fun _ => 0) 5 2 .start = .limit := by decide

/-! ## Codec (95 section 6) -/

theorem test_compress : [compress 1 832, compress 1 833, compress 1 2496, compress 1 2497, compress 4 3328,
    compress 10 416, compress 11 3328] = [0, 1, 1, 0, 0, 128, 2047] := by decide

theorem test_decompress : [decompress 1 1, decompress 4 15, decompress 5 31, decompress 10 1023, decompress 11 1,
    decompress 11 2047] = [1665, 3121, 3225, 3326, 2, 3327] := by decide

theorem test_cmpr : (after (.cmpr 1 0 11) (slot0 0x00000D00)).lane 1 0 = 2047 ∧
    (after (.cmpr 1 0 4) (slot0 3329)).status = 0x406#32 := by decide +kernel

theorem test_dcmp : (after (.dcmp 1 0 4) (slot0 8)).lane 1 0 = 1665 ∧
    (after (.dcmp 1 0 4) (slot0 16)).status = 0x406#32 := by decide +kernel

theorem test_enc12 :
    let t := after (.enc 0 12) (slot0 0x01230ABC)
    t.bufferByte 0 = 0xbc#8 ∧ t.bufferByte 1 = 0x3a#8 ∧ t.bufferByte 2 = 0x12#8 ∧ t.blen = 384#16 := by
  decide +kernel

theorem test_enc_range :
    let t := after (.enc 0 4) (slot0 16)
    t.status = 0x406#32 ∧ t.blen = 128#16 := by decide +kernel

theorem test_dec1 : (List.range 9).map (unpackedValue (fun k => if k = 0 then 0xa5#8 else 0#8) 1) =
    [1, 0, 1, 0, 0, 1, 0, 1, 0] := by decide +kernel

/-- The bytes of the example of rule R177, unpacked. -/
theorem test_dec12 :
    let t := after (.dec 0 12) { idle with mem := Memory.setWord [] 0x400 0x00123abc, blen := 384 }
    t.lane 0 0 = 0xabc ∧ t.lane 0 1 = 0x123 := by decide +kernel

theorem test_dec12_counts : overflowCount [3328, 3329, 4095, 0] = 2 := by decide

/-! ## Control commands, issue, errors and bus (95 sections 7 and 8) -/

theorem test_nop : (after .nop { idle with result := 474 }).result = 0#32 ∧ (after .nop idle).status = 0x2#32 := by
  decide

theorem test_pzero : (after (.pzero 3) (words 0x2600 0x00640A45 0x2000 7)).mem = Memory.setWord [] 0x2000 7 := by
  decide +kernel

theorem test_pcopy :
    let t := after (.pcopy 5 2) (words 0x2400 0xFFFF0107 0x2000 0)
    t.lane 5 0 = 263 ∧ t.lane 5 1 = 65535 ∧ t.lane 2 0 = 263 := by decide +kernel

theorem test_wipe :
    let t := after .wipe { words 0x2000 7 0x40 9 with error := some .opcode, faW := 3, cmd := 5 }
    t.mem = [] ∧ t.faW = 0#32 ∧ t.cmd = 5#32 ∧ t.status = 0x206#32 := by decide +kernel

theorem test_issue_errors : (written 0x00C 0xFF idle).status = 0x206#32 ∧
    (written 0x00C 0x01032110 idle).status = 0x306#32 ∧ (written 0x00C 0x00002120 idle).status = 0x306#32 ∧
    (written 0x00C 0x00100043 { idle with blen := 31 }).status = 0x506#32 ∧
    (written 0x00C 0x01032110 (written 0x00C 0xFF idle)).status = 0x206#32 := by decide

theorem test_accept : (written 0x00C 0x00100043 { idle with blen := 32, done := true }).status = 0x1#32 := by decide

theorem test_write_while_busy : (written 0x00C 0x3 (inFlight .nop idle)).status = 0x105#32 ∧
    (written 0x00C 0x3 (inFlight .nop idle)).cmd = 3#32 ∧ (written 0x2000 1 (inFlight .nop idle)).status = 0x705#32 ∧
    (written 0x2000 1 (inFlight .nop idle)).mem = [] := by decide

theorem test_acknowledge : (written 0x008 0x4 { idle with done := true, error := some .range }).status = 0x2#32 := by
  decide

theorem test_bus_errors : step (arriving (.access (.write 0x000 4 1)) idle) = .fault .busErrorReadOnly ∧
    step (arriving (.access (.write 0x018 4 1)) idle) = .fault .busErrorReadOnly ∧
    step (arriving (.access (.read 0x01C 4)) idle) = .fault .busErrorUnmapped ∧
    step (arriving (.access (.read 0x580 4)) idle) = .fault .busErrorUnmapped ∧
    step (arriving (.access (.read 0x002 4)) idle) = .fault .busErrorAlignment ∧
    step (arriving (.access (.read 0x000 2)) idle) = .fault .busErrorSize := by
  refine ⟨?_, ?_, ?_, ?_, ?_, ?_⟩ <;> rfl

theorem test_reads : readBack 0x000 idle = .data 0x4D4C0701#32 ∧ readBack 0x804 idle = .data 0x6C1#32 ∧
    readBack 0xA00 (inFlight .nop idle) = .data 0x11#32 ∧ readBack 0x020 (written 0x020 0x00010005 idle) = .data 5#32 := by
  decide

/-- While a command is in flight `SEED` reads its current value (rule R66); after a soft reset no read shows
the secret it held (rule R194). -/
theorem test_seed_read_while_busy :
    readBack 0x044 (inFlight .nop (written 0x044 0x07060504 idle)) = .data 0x07060504#32 ∧
    readBack 0x044 (written 0x004 0x80000000 (written 0x044 0x07060504 idle)) = .data 0#32 := by decide

theorem test_soft_reset : (written 0x004 0x80000003 { idle with ieDone := true, faA := 5 }).status = 0x1#32 ∧
    (written 0x004 0x80000003 { idle with ieDone := true, faA := 5 }).ctrl = 0#32 := by decide

theorem test_irq : (written 0x004 0x1 { idle with done := true }).irq = true ∧
    (written 0x008 0x2 { idle with ieDone := true, done := true }).irq = false := by decide

/-- A word placed by `withFetchWord` decodes and runs as the first command after reset. -/
theorem test_first_command : decodeTableWord 32 0x1 = some .fadd ∧
    step (State.reset.withFetchWord 32 0x1) = exec .fadd (served (loadCommand 0x1 State.reset)) := by
  exact ⟨rfl, rfl⟩

/-! ## Witnesses: for each obligation with hypotheses, states and operands that meet them, clause by clause, at the
boundaries of their ranges -/

/-- A host write of `v` to `x` arriving at `s`. -/
def writing (x : Nat) (v : Word) (s : State) : State := arriving (.access (.write x 4 v)) s

/-- A host read of `x` arriving at `s`. -/
def reading (x : Nat) (s : State) : State := arriving (.access (.read x 4)) s

theorem writesNext_writing (x : Nat) (v : Word) (s : State) : WritesNext x v (writing x v s) := ⟨[], rfl⟩

theorem readsNext_reading (x : Nat) (s : State) : ReadsNext x (reading x s) := ⟨[], rfl⟩

theorem witness_DecodeOfEncode : Instr.wellFormed (.dec 15 12) = true ∧ Instr.wellFormed (.scbd 15 3) = true ∧
    Instr.wellFormed (.cmpr 0 15 11) = true := by decide

theorem witness_EncodeOfDecode : decode 0x00B0FF41#32 = .ok (.dcmp 15 15 11) := by decide

theorem witness_RejectedWords : decode 0x07#32 = .error .reservedOpcode ∧ decode 0xFF#32 = .error .reservedOpcode ∧
    reservedOpcode 0x06 = false ∧ reservedOpcode 0x07 = true ∧ reservedOpcode 0x5E = true ∧
    reservedOpcode 0x5F = false ∧ decode 0x0100005F#32 = .error .illegalField := by decide

/-- A word with a bit of `RSV` set is no command's. -/
theorem no_command_has_rsv (i : Instr) (h : i.wellFormed = true) : encode i ≠ 0x01000001#32 := fun e => by
  have := Laws.rsvOf_encode h
  rw [e] at this
  exact absurd this (by decide)

theorem witness_IssueProcedure :
    (WritesNext 0x00C 0x07 (writing 0x00C 0x07 idle) ∧ (writing 0x00C 0x07 idle).busy = false ∧
      reservedOpcode ((0x07#32).toNat % 256) = true) ∧
    (WritesNext 0x00C 0x01000001 (writing 0x00C 0x01000001 idle) ∧ reservedOpcode ((0x01000001#32).toNat % 256) = false ∧
      ∀ i : Instr, i.wellFormed = true → encode i ≠ 0x01000001#32) ∧
    (encode (.dec 0 1) = 0x00100043#32 ∧ (writing 0x00C 0x00100043 { idle with blen := 31 }).blen.toNat ≠ 32 * 1) ∧
    (Instr.wellFormed (.dec 0 12) = true ∧ encode (.dec 0 12) = 0x00C00043#32 ∧
      ∀ (d : SlotNo) (w : Nat), Instr.dec 0 12 = .dec d w →
        (writing 0x00C 0x00C00043 { idle with blen := 384 }).blen.toNat = 32 * w) := by
  refine ⟨⟨writesNext_writing _ _ _, rfl, rfl⟩, ⟨writesNext_writing _ _ _, rfl, no_command_has_rsv⟩, ⟨rfl, by decide⟩, rfl,
    rfl, fun d w e => ?_⟩
  cases e
  rfl

theorem witness_CmdWriteWhileBusy : WritesNext 0x00C 0x5F (writing 0x00C 0x5F (inFlight .nop idle)) ∧
    (writing 0x00C 0x5F (inFlight .nop idle)).busy = true ∧ (writing 0x00C 0x5F State.reset).busy = true :=
  ⟨writesNext_writing _ _ _, rfl, rfl⟩

theorem witness_StepRunsCommandInFlight :
    (BlockNext (inFlight .fadd idle) ∧ (inFlight .fadd idle).engine = .running 0x1#32 (capture idle) .start ∧
      decode 0x1#32 = .ok .fadd) ∧
    BlockNext (arriving .blockStep (inFlight .fadd idle)) ∧ (BlockNext idle ∧ idle.engine = .idle) :=
  ⟨⟨.inl rfl, rfl, rfl⟩, .inr ⟨[], rfl⟩, .inl rfl, rfl⟩

theorem witness_PlacedWordRunsNext : Instr.wellFormed (.scbd 15 2) = true := rfl

/-- The range clauses of `FADD`, `FSUB`, `FMUL`: both boundaries of both operands. -/
theorem witness_scalar_ranges :
    ((operands (scalars 3328 3328)).faA.toNat < 3329 ∧ (operands (scalars 3328 3328)).faB.toNat < 3329) ∧
    ¬((operands (scalars 3329 0)).faA.toNat < 3329 ∧ (operands (scalars 3329 0)).faB.toNat < 3329) ∧
    ¬((operands (scalars 0 3329)).faA.toNat < 3329 ∧ (operands (scalars 0 3329)).faB.toNat < 3329) := by decide

theorem witness_FaddAddsModQ : (operands (scalars 3328 3328)).faA.toNat < 3329 ∧
    ¬(operands (scalars 3329 0)).faA.toNat < 3329 := by decide

theorem witness_FsubSubtractsModQ : (operands (scalars 0 3328)).faB.toNat < 3329 ∧
    ¬(operands (scalars 0 3329)).faB.toNat < 3329 := by decide

theorem witness_FmulMultipliesModQ : (operands (scalars 3328 0)).faA.toNat < 3329 ∧
    ¬(operands (scalars 65535 0)).faA.toNat < 3329 := by decide

theorem witness_FmredMontgomeryReduces : (operands (wide 218169343)).faW.toNat < 3329 * 2 ^ 16 ∧
    ¬(operands (wide 218169344)).faW.toNat < 3329 * 2 ^ 16 := by decide

/-- A canonical slot at the boundary: its first two lanes are 3328 and 0, the rest 0. -/
theorem slot0_canonical : (operands (slot0 3328)).slotBelow 0 3329 := by
  unfold Operands.slotBelow
  decide +kernel

/-- A slot that is not canonical: its first lane is 3329. -/
theorem slot0_not_canonical : ¬(operands (slot0 3329)).slotBelow 0 3329 := fun h =>
  absurd (h 0 (by decide)) (by decide)

theorem witness_PaddAddsLanes :
    ((operands (slot0 3328)).slotBelow 0 3329 ∧ (operands (slot0 3328)).slotBelow 0 3329) ∧
    ¬((operands (slot0 3329)).slotBelow 0 3329 ∧ (operands (slot0 3329)).slotBelow 1 3329) :=
  ⟨⟨slot0_canonical, slot0_canonical⟩, fun h => slot0_not_canonical h.1⟩

theorem witness_PsubSubtractsLanes :
    ((operands (slot0 3328)).slotBelow 0 3329 ∧ (operands (slot0 3328)).slotBelow 0 3329) ∧
    ¬((operands (slot0 3329)).slotBelow 1 3329 ∧ (operands (slot0 3329)).slotBelow 0 3329) :=
  ⟨⟨slot0_canonical, slot0_canonical⟩, fun h => slot0_not_canonical h.2⟩

theorem witness_NttComputesTheLoops : (operands (slot0 3328)).slotBelow 0 3329 ∧
    ¬(operands (slot0 3329)).slotBelow 0 3329 := ⟨slot0_canonical, slot0_not_canonical⟩

theorem witness_InttComputesTheLoops : (operands (slot0 3328)).slotBelow 0 3329 ∧
    ¬(operands (slot0 3329)).slotBelow 0 3329 := ⟨slot0_canonical, slot0_not_canonical⟩

theorem witness_BmulMultipliesPairs :
    ((operands (slot0 3328)).slotBelow 0 3329 ∧ (operands (slot0 3328)).slotBelow 0 3329) ∧
    ¬((operands (slot0 3329)).slotBelow 0 3329 ∧ (operands (slot0 3329)).slotBelow 1 3329) :=
  ⟨⟨slot0_canonical, slot0_canonical⟩, fun h => slot0_not_canonical h.1⟩

theorem witness_BmacAccumulatesPairs :
    ((operands (slot0 3328)).slotBelow 0 3329 ∧ (operands (slot0 3328)).slotBelow 0 3329 ∧
      (operands (slot0 3328)).slotBelow 0 3329) ∧
    ¬((operands (slot0 3329)).slotBelow 1 3329 ∧ (operands (slot0 3329)).slotBelow 2 3329 ∧
      (operands (slot0 3329)).slotBelow 0 3329) :=
  ⟨⟨slot0_canonical, slot0_canonical, slot0_canonical⟩, fun h => slot0_not_canonical h.2.2⟩

theorem witness_TransformsUndoEachOther : (operands (slot0 3328)).slotBelow 0 3329 := slot0_canonical

theorem witness_NttListsResidues : (operands (slot0 3328)).slotBelow 0 3329 := slot0_canonical

theorem witness_ProductThroughTheNttDomain : (slot0 3328).engine = .idle ∧ (0 : SlotNo) ≠ 1 ∧
    (slot0 3328).slotBelow 0 3329 ∧ (slot0 3328).slotBelow 1 3329 := by
  refine ⟨rfl, by decide, ?_, ?_⟩ <;>
    (unfold State.slotBelow
     decide +kernel)

/-- A `SUNI` just accepted is the case `k = 0`. -/
theorem witness_SuniSamplesByRejection (x : Nat → Byte) :
    samplingOf (inFlight (.suni 0) idle) = ⟨3 * 0, acceptable x 0⟩ ∧ (acceptable x 0).length < 256 :=
  ⟨rfl, by simp [acceptable, candidates]⟩

theorem witness_RejectionLoopCountsAndEnds :
    (∃ smp, rejectionLoop (fun _ => 0) 384 128 .start = .accepted smp) ∧
    (0 < 2 ∧ 2 / 3 < 1 ∧ rejectionLoop (fun _ => 0) 2 1 .start = .limit) ∧
    (0 < 384 ∧ 384 / 3 < 129) := by
  refine ⟨?_, by decide, by decide⟩
  rcases rejectionLoop_acceptable (fun _ => 0) 384 128 0 (by decide) with
    ⟨m, -, -, -, -, -, h⟩ | ⟨m, -, h2, -, h4, -⟩ | ⟨-, h, -⟩
  · exact ⟨_, h⟩
  · omega
  · exact absurd h (by decide +kernel)

theorem witness_ScbdSamplesBinomially : (1 < 16 ∧ ¬(1 = 2 ∨ 1 = 3)) ∧ (4 < 16 ∧ ¬(4 = 2 ∨ 4 = 3)) ∧
    (2 < 16 ∧ (2 = 2 ∨ 2 = 3)) ∧ (3 < 16 ∧ (3 = 2 ∨ 3 = 3)) := by decide

theorem witness_ClosedFormsRound : (compress 1 0 = 0 ∧ compress 11 3328 = 2047) ∧ (0 < 2 ^ 1 ∧ 2047 < 2 ^ 11) ∧
    (1024 < 2 ^ 11 ∧ 1024 = 2 ^ (11 - 1) ∧ decompress 11 1024 = 1665) ∧ (1 < 2 ^ 1 ∧ decompress 1 1 = 1665) := by decide

theorem witness_QuantisationBound : decompress 1 (compress 1 832) = 0 ∧ decompress 11 (compress 11 3328) = 3327 := by
  decide

theorem witness_CmprCompressesLanes : (¬(1 ≤ 0 ∧ 0 ≤ 11)) ∧ (¬(1 ≤ 12 ∧ 12 ≤ 11)) ∧ (1 ≤ 11 ∧ 11 ≤ 11) ∧
    (operands (slot0 3328)).slotBelow 0 3329 ∧ ¬(operands (slot0 3329)).slotBelow 0 3329 :=
  ⟨by decide, by decide, by decide, slot0_canonical, slot0_not_canonical⟩

theorem witness_DcmpDecompressesLanes : (operands (slot0 1)).slotBelow 0 (2 ^ 1) ∧
    (operands (slot0 2047)).slotBelow 0 (2 ^ 11) ∧ ¬(operands (slot0 2)).slotBelow 0 (2 ^ 1) ∧
    ¬(operands (slot0 2048)).slotBelow 0 (2 ^ 11) := by
  refine ⟨?_, ?_, fun h => absurd (h 0 (by decide)) (by decide), fun h => absurd (h 0 (by decide)) (by decide)⟩ <;>
    (unfold Operands.slotBelow
     decide +kernel)

theorem witness_EncPacksTheBuffer : (operands (slot0 3328)).slotBelow 0 (if 12 = 12 then 3329 else 2 ^ 12) ∧
    (operands (slot0 1)).slotBelow 0 (if 1 = 12 then 3329 else 2 ^ 1) ∧
    ¬(operands (slot0 3329)).slotBelow 0 (if 12 = 12 then 3329 else 2 ^ 12) ∧
    ¬(operands (slot0 2)).slotBelow 0 (if 1 = 12 then 3329 else 2 ^ 1) ∧ ¬(1 ≤ 0 ∧ 0 ≤ 12) ∧ ¬(1 ≤ 13 ∧ 13 ≤ 12) := by
  refine ⟨slot0_canonical, ?_, slot0_not_canonical, fun h => absurd (h 0 (by decide)) (by decide), by decide, by decide⟩
  unfold Operands.slotBelow
  decide +kernel

theorem witness_DecUnpacksTheBuffer :
    (WritesNext 0x00C (encode (.dec 0 12)) (writing 0x00C (encode (.dec 0 12)) { idle with blen := 383 }) ∧
      (writing 0x00C (encode (.dec 0 12)) { idle with blen := 383 }).busy = false ∧ (383#16).toNat ≠ 32 * 12) ∧
    (1 ≤ 12 ∧ 12 ≤ 12) ∧ (1 ≤ 11 ∧ 11 < 12) := ⟨⟨writesNext_writing _ _ _, rfl, by decide⟩, by decide, by decide⟩

theorem witness_DecUndoesEnc : (operands (slot0 3328)).slotBelow 0 (if 12 = 12 then 3329 else 2 ^ 12) ∧
    (operands (slot0 1)).slotBelow 0 (if 1 = 12 then 3329 else 2 ^ 1) :=
  ⟨witness_EncPacksTheBuffer.1, witness_EncPacksTheBuffer.2.1⟩

theorem witness_NopLeavesEverything : (0x100 < 2 ^ 32 ∧ 0x100 % 256 = 0 ∧ 0x100 ≠ 0) ∧
    (0xFFFFFF00 < 2 ^ 32 ∧ 0xFFFFFF00 % 256 = 0 ∧ 0xFFFFFF00 ≠ 0) ∧
    (WritesNext 0x00C 0 (writing 0x00C 0 idle) ∧ (writing 0x00C 0 idle).busy = false) ∧
    WritesNext 0x00C (BitVec.ofNat 32 0x100) (writing 0x00C 0x100 idle) :=
  ⟨by decide, by decide, ⟨writesNext_writing _ _ _, rfl⟩, writesNext_writing _ _ _⟩

theorem witness_BusErrors :
    (reading 0x3FFC idle).arrivals = .access (.read 0x3FFC 4) :: [] ∧ unlistedOffset 0x3FFC = false ∧
    unlistedOffset 0x4000 = true ∧ unlistedOffset 0x01C = true ∧ unlistedOffset 0x1FFC = true ∧
    (writing 0x9FC 1 idle).arrivals = .access (.write 0x9FC 4 1) :: [] ∧ readOnlyOffset 0x9FC = true ∧
    readOnlyOffset 0xBFC = true ∧ readOnlyOffset 0x004 = false ∧ unlistedOffset 0x004 = false := by
  refine ⟨rfl, ?_, ?_, ?_, ?_, rfl, ?_, ?_, ?_, ?_⟩ <;> decide

theorem witness_RegistersReadAtAnyTime : ReadsNext 0x000 (reading 0x000 idle) ∧ ReadsNext 0x028 (reading 0x028 State.reset) ∧
    ReadsNext (0x800 + 4 * 0) (reading 0x800 idle) ∧ ReadsNext (0xA00 + 4 * 127) (reading 0xBFC (inFlight .nop idle)) :=
  ⟨readsNext_reading _ _, readsNext_reading _ _, readsNext_reading _ _, readsNext_reading _ _⟩

theorem witness_StatusAndCtrlWrites : WritesNext 0x008 0x6 (writing 0x008 0x6 idle) ∧
    ((0x6#32).getLsbD 1 = true ∧ (0x6#32).getLsbD 2 = true) ∧ WritesNext 0x004 0x7FFFFFFF (writing 0x004 0x7FFFFFFF idle) ∧
    (0x7FFFFFFF#32).getLsbD 31 = false := ⟨writesNext_writing _ _ _, by decide, writesNext_writing _ _ _, by decide⟩

theorem witness_SlotWordView : (127 < 128 ∧ (writing 0x3FFC 1 idle).busy = false) ∧
    WritesNext (0x2000 + 0x200 * (15 : SlotNo).val + 4 * 127) 1 (writing 0x3FFC 1 idle) ∧
    ReadsNext (0x2000 + 0x200 * (0 : SlotNo).val + 4 * 0) (reading 0x2000 idle) :=
  ⟨⟨by decide, rfl⟩, writesNext_writing _ _ _, readsNext_reading _ _⟩

theorem witness_ByteWordViews : (0x5C % 4 = 0 ∧ 0x40 ≤ 0x5C ∧ 0x5C < 0x60) ∧ (0x57C % 4 = 0 ∧ 0x400 ≤ 0x57C ∧ 0x57C < 0x580) ∧
    (idle.busy = false) ∧ WritesNext 0x57C 1 (writing 0x57C 1 idle) ∧ ReadsNext 0x5C (reading 0x5C idle) :=
  ⟨by decide, by decide, rfl, writesNext_writing _ _ _, readsNext_reading _ _⟩

theorem witness_OperandRegisterAccess : idle.busy = false ∧ WritesNext 0x010 0xFFFFFFFF (writing 0x010 0xFFFFFFFF idle) ∧
    WritesNext 0x014 0x10180 (writing 0x014 0x10180 idle) ∧ WritesNext 0x020 5 (writing 0x020 5 idle) ∧
    WritesNext 0x024 5 (writing 0x024 5 idle) ∧ WritesNext 0x028 5 (writing 0x028 5 idle) ∧
    ReadsNext 0x014 (reading 0x014 idle) ∧ ReadsNext 0x018 (reading 0x018 idle) :=
  ⟨rfl, writesNext_writing _ _ _, writesNext_writing _ _ _, writesNext_writing _ _ _, writesNext_writing _ _ _,
    writesNext_writing _ _ _, readsNext_reading _ _, readsNext_reading _ _⟩

theorem witness_BusyAccesses : ((reading 0x3FFC State.reset).busy = true ∧ ReadsNext 0x3FFC (reading 0x3FFC State.reset)) ∧
    ((reading 0x5C (inFlight .nop idle)).busy = true ∧ ReadsNext 0x5C (reading 0x5C (inFlight .nop idle))) ∧
    ((reading 0x40 State.reset).busy = true ∧ ReadsNext 0x40 (reading 0x40 State.reset)) ∧
    ((writing 0x40 1 (inFlight .nop idle)).busy = true ∧ WritesNext 0x40 1 (writing 0x40 1 (inFlight .nop idle))) :=
  ⟨⟨rfl, readsNext_reading _ _⟩, ⟨rfl, readsNext_reading _ _⟩, ⟨rfl, readsNext_reading _ _⟩, rfl, writesNext_writing _ _ _⟩

theorem witness_ReadsHaveNoSideEffect : ReadsNext 0x2000 (reading 0x2000 State.reset) ∧
    step (reading 0x2000 State.reset) = .next { State.reset with response := .data (Config.freeWord 0), draws := 1 } :=
  ⟨readsNext_reading _ _, rfl⟩

theorem witness_HardwareReset : (arriving .resetPulse (inFlight .fadd idle)).arrivals = .resetPulse :: [] ∧
    ((reading 0x5C State.reset).inv = true ∧ (reading 0x5C State.reset).engine = .wiping ∧
      ReadsNext 0x5C (reading 0x5C State.reset)) := ⟨rfl, by decide, rfl, readsNext_reading _ _⟩

theorem witness_SoftReset : (writing 0x004 0x80000003 (inFlight .fadd idle)).arrivals = .access (.write 0x004 4 0x80000003) :: [] ∧
    (0x80000003#32).getLsbD 31 = true := ⟨rfl, by decide⟩

theorem witness_WipeEnds : BlockNext State.reset ∧ State.reset.engine = .wiping := ⟨.inl rfl, rfl⟩

theorem witness_StepKeepsInvariant : (inFlight .nop (slot0 7)).inv = true ∧
    (step (inFlight .nop (slot0 7)) = .next (finish 0#32 (inFlight .nop (slot0 7)))) := ⟨by decide, rfl⟩

theorem witness_FirstErrorIsKept : idle.error = none ∧ ({ idle with error := some .range } : State).error = some .range ∧
    step (writing 0x008 0x4 { idle with error := some .range }) = .next { idle with response := .written } :=
  ⟨rfl, rfl, rfl⟩

theorem witness_SlotsChangeOnlyWhenNamed : (255 < 256) ∧
    (written 0x3FFC 0x00010000 idle).lane 15 255 ≠ (writing 0x3FFC 0x00010000 idle).lane 15 255 := by decide

theorem witness_ControlStateChanges : (step State.reset = .next idle ∧ State.reset.busy = true ∧ idle.busy = false) ∧
    (written 0x00C 0 idle).busy = true ∧ ((written 0x00C 0xFF idle).done = true ∧ idle.done = false) ∧
    BlockNext State.reset := ⟨⟨rfl, rfl, rfl⟩, by decide, by decide, .inl rfl⟩

theorem witness_HostCannotDisturbCommand : (writing 0x2000 1 (inFlight .fadd idle)).arrivals = .access (.write 0x2000 4 1) :: [] ∧
    (inFlight .fadd idle).busy = true ∧ (∀ v : Word, BusAccess.write 0x2000 4 1 = .write 0x004 4 v → v.getLsbD 31 = false) ∧
    (written 0x2000 1 (inFlight .fadd idle)).error = some .access := by
  refine ⟨rfl, rfl, fun v h => ?_, by decide⟩
  injection h with h1 _ _
  exact absurd h1 (by decide)

theorem witness_SamplersArePure : (∀ b, b < 32 → (operands idle).mem.read (0x40 + b) = (operands (slot0 7)).mem.read (0x40 + b)) ∧
    (operands idle).arg = (operands (slot0 7)).arg ∧ samplingOf idle = .start ∧ samplingOf (slot0 7) = .start := by
  refine ⟨?_, rfl, rfl, rfl⟩
  decide +kernel

theorem witness_UnnamedSlotsDoNotLeak : Instr.wellFormed (.ntt 1) = true ∧ (slot0 7).engine = .idle ∧
    SameOutside (slotBase 0) 512 (slot0 7) { slot0 7 with mem := [] } ∧ (0 : SlotNo) ∉ sources (.ntt 1) := by
  refine ⟨rfl, rfl, fun y hy => ?_, by decide⟩
  unfold slotBase at hy
  show Memory.read [] y = (Memory.setWord [] 0x2000 7).read y
  exact (Memory.read_setWord_of_outside (by simp at hy; omega)).symm

theorem witness_ReductionSequencesConform_fmred : (operands (wide 218169343)).faW.toNat < 3329 * 2 ^ 16 := by decide

theorem witness_ReductionSequencesConform : (2 ^ 32 - 1 < 2 ^ 32 ∧ barrettReduce32 (2 ^ 32 - 1) = 1352) ∧
    (218169343 < 3329 * 2 ^ 16 ∧ montgomeryReduce 218169343 = 3160) := by decide

end Sys2Proof.Tests
end

section
/-! PROOFS. A command does not depend on a slot it does not read (rules R39, R109): two states that differ in some
bytes of memory only, what each state operation makes of the difference, and then each command. -/

namespace Sys2Proof.Machine

/-! ## States that differ in some bytes only -/

/-- A byte of slot `p` (rule R23). -/
def InSlot (p : SlotNo) (y : Nat) : Prop := slotBase p ≤ y ∧ y < slotBase p + 512

/-- The two states are equal but for their memories, and these read alike wherever `H` does not hold. -/
def AlikeBut (H : Nat → Prop) (t u : State) : Prop :=
  ∃ m : Memory, u = { t with mem := m } ∧ ∀ y, ¬H y → m.read y = t.mem.read y

/-- A byte of slot `p` where command `i` does not write that slot. -/
def UnwrittenByte (i : Instr) (p : SlotNo) (y : Nat) : Prop := InSlot p y ∧ destination i ≠ some p

theorem not_inSlot_iff {p : SlotNo} {y : Nat} : ¬InSlot p y ↔ y < slotBase p ∨ slotBase p + 512 ≤ y := by
  unfold InSlot
  omega

theorem AlikeBut.mono {H K : Nat → Prop} {t u : State} (h : AlikeBut H t u) (hHK : ∀ y, H y → K y) :
    AlikeBut K t u := by
  obtain ⟨m, rfl, hm⟩ := h
  exact ⟨m, rfl, fun y hy => hm y fun hH => hy (hHK y hH)⟩

/-- The same bytes written to two memories: what they cover reads alike, the rest as it did. -/
theorem Memory.read_write_congr {m m' : Memory} {x : Nat} {vs : List Byte} {y : Nat}
    (h : ¬(x ≤ y ∧ y < x + vs.length) → m'.read y = m.read y) :
    (m'.write x vs).read y = (m.write x vs).read y := by
  rw [Memory.read_write, Memory.read_write]
  split
  · rfl
  · exact h ‹_›

/-- The same polynomial stored in the same slot of two memories. -/
theorem Memory.read_setPoly_congr {m m' : Memory} {d : SlotNo} {f : Poly} {y : Nat}
    (h : ¬InSlot d y → m'.read y = m.read y) : (m'.setPoly d f).read y = (m.setPoly d f).read y := by
  refine Memory.read_write_congr fun hy => h ?_
  rwa [setPoly_bytes_length] at hy

section
variable {H : Nat → Prop} {t u : State}

/-! ## What a state operation makes of the difference -/

theorem AlikeBut.setSlot (h : AlikeBut H t u) (d : SlotNo) (f : Poly) :
    AlikeBut (fun y => H y ∧ ¬InSlot d y) (t.setSlot d f) (u.setSlot d f) := by
  obtain ⟨m, rfl, hm⟩ := h
  exact ⟨m.setPoly d f, rfl, fun y hy => Memory.read_setPoly_congr fun hd => hm y fun hH => hy ⟨hH, hd⟩⟩

/-- The two runs draw the same free values, their counts being equal (log entry 2). -/
theorem AlikeBut.freeSlot (h : AlikeBut H t u) (d : SlotNo) :
    AlikeBut (fun y => H y ∧ ¬InSlot d y) (t.freeSlot d) (u.freeSlot d) := by
  obtain ⟨m, rfl, hm⟩ := h
  exact ⟨m.setPoly d _, rfl, fun y hy => Memory.read_setPoly_congr fun hd => hm y fun hH => hy ⟨hH, hd⟩⟩

theorem AlikeBut.setBuffer (h : AlikeBut H t u) (vs : List Byte) :
    AlikeBut H (t.setBuffer vs) (u.setBuffer vs) := by
  obtain ⟨m, rfl, hm⟩ := h
  exact ⟨m.write bbufBase vs, rfl, fun y hy => Memory.read_write_congr fun _ => hm y hy⟩

theorem AlikeBut.freeBuffer (h : AlikeBut H t u) (n : Nat) :
    AlikeBut H (t.freeBuffer n) (u.freeBuffer n) := by
  obtain ⟨m, rfl, hm⟩ := h
  exact ⟨m.write bbufBase _, rfl, fun y hy => Memory.read_write_congr fun _ => hm y hy⟩

theorem AlikeBut.freeResult (h : AlikeBut H t u) : AlikeBut H t.freeResult u.freeResult := by
  obtain ⟨m, rfl, hm⟩ := h
  exact ⟨m, rfl, hm⟩

theorem AlikeBut.setBlen (h : AlikeBut H t u) (v : Half) : AlikeBut H (t.setBlen v) (u.setBlen v) := by
  obtain ⟨m, rfl, hm⟩ := h
  exact ⟨m, rfl, hm⟩

theorem AlikeBut.raiseError (h : AlikeBut H t u) (code : ErrCode) :
    AlikeBut H (raiseError code t) (raiseError code u) := by
  obtain ⟨m, rfl, hm⟩ := h
  exact ⟨m, rfl, hm⟩

theorem AlikeBut.complete (h : AlikeBut H t u) : AlikeBut H (complete t) (complete u) := by
  obtain ⟨m, rfl, hm⟩ := h
  exact ⟨m, rfl, hm⟩

theorem AlikeBut.finish (h : AlikeBut H t u) (v : Word) : AlikeBut H (finish v t) (finish v u) := by
  obtain ⟨m, rfl, hm⟩ := h
  exact ⟨m, rfl, hm⟩

theorem AlikeBut.finishScalar (h : AlikeBut H t u) (ok : Bool) (v : Nat) :
    AlikeBut H (finishScalar ok v t) (finishScalar ok v u) := by
  cases ok
  · exact (h.freeResult.raiseError .range).complete
  · exact h.finish _

theorem AlikeBut.finishPoly (h : AlikeBut H t u) (ok : Bool) (d : SlotNo) (f : Poly) :
    AlikeBut (fun y => H y ∧ ¬InSlot d y) (finishPoly ok d f t) (finishPoly ok d f u) := by
  cases ok
  · exact ((h.freeSlot d).raiseError .range).finish _
  · exact (h.setSlot d f).finish _
end

/-- Bytes of slot `p` outside the destination are bytes of a slot that is not the destination. -/
theorem AlikeBut.unwritten {i : Instr} {p d : SlotNo} {t u : State} (hd : destination i = some d)
    (h : AlikeBut (fun y => InSlot p y ∧ ¬InSlot d y) t u) : AlikeBut (UnwrittenByte i p) t u := by
  refine h.mono fun y hy => ⟨hy.1, fun hp => hy.2 ?_⟩
  obtain rfl : d = p := Option.some.inj (hd.symm.trans hp)
  exact hy.1

/-- A command without a destination slot leaves every byte of slot `p` unwritten. -/
theorem AlikeBut.unwritten_of_none {i : Instr} {p : SlotNo} {t u : State} (hd : destination i = none)
    (h : AlikeBut (InSlot p) t u) : AlikeBut (UnwrittenByte i p) t u :=
  h.mono fun _ hy => ⟨hy, by simp [hd]⟩

/-! ## The operands that are not in slot `p` -/

/-- The operands are equal but for the bytes of slot `p`. -/
structure Operands.EqualBut (p : SlotNo) (o o' : Operands) : Prop where
  arg : o'.arg = o.arg
  faA : o'.faA = o.faA
  faB : o'.faB = o.faB
  faW : o'.faW = o.faW
  read : ∀ y, ¬InSlot p y → o'.mem.read y = o.mem.read y

/-- A newly accepted command of the two states has such operands (rule R39). -/
theorem operands_equalBut {p : SlotNo} {s u : State} (hi : s.engine = .idle) (h : AlikeBut (InSlot p) s u) :
    (operands s).EqualBut p (operands u) := by
  obtain ⟨m, rfl, hm⟩ := h
  rw [operands_of_idle hi, operands_of_idle (s := { s with mem := m }) hi]
  exact ⟨rfl, rfl, rfl, rfl, hm⟩

section
variable {p : SlotNo} {o o' : Operands} (h : o.EqualBut p o')
include h

/-- Another slot's bytes are not slot `p`'s. -/
theorem Operands.EqualBut.poly_eq {a : SlotNo} (ha : a ≠ p) : o'.poly a = o.poly a := by
  have hne : a.val ≠ p.val := fun e => ha (Fin.ext e)
  refine List.map_congr_left fun k hk => congrArg BitVec.toNat ?_
  refine Memory.coeff_congr (fun y h1 h2 => h.read y ?_) (List.mem_range.1 hk)
  rw [not_inSlot_iff]
  unfold slotBase at h1 h2 ⊢
  omega

theorem Operands.EqualBut.seed_eq : o'.seed = o.seed := by
  refine List.map_congr_left fun b hb => h.read _ ?_
  have := List.mem_range.1 hb
  rw [not_inSlot_iff]
  unfold slotBase seedBase
  omega

theorem Operands.EqualBut.bbuf_eq {k : Nat} (hk : k < 384) : o'.bbuf k = o.bbuf k := by
  refine h.read _ ?_
  rw [not_inSlot_iff]
  unfold slotBase bbufBase
  omega

theorem Operands.EqualBut.argX_eq : o'.argX = o.argX := congrArg (BitVec.extractLsb' 0 8) h.arg

theorem Operands.EqualBut.argY_eq : o'.argY = o.argY := congrArg (BitVec.extractLsb' 8 8) h.arg

theorem Operands.EqualBut.suniInput_eq : suniInput o' = suniInput o := by
  simp only [suniInput, h.seed_eq, h.argX_eq, h.argY_eq]

theorem Operands.EqualBut.scbdInput_eq : scbdInput o' = scbdInput o := by
  simp only [scbdInput, h.seed_eq, h.argX_eq]
end

/-- Unpacking 256 values of `w` bits reads `32 * w` bytes (rules R175, R178). -/
theorem unpackPoly_congr {x x' : Nat → Byte} {w : Nat} (h : ∀ k, k < 32 * w → x' k = x k) :
    unpackPoly x' w = unpackPoly x w := by
  refine List.map_congr_left fun i hi => congrArg List.sum (List.map_congr_left fun j hj => ?_)
  have hi : i < 256 := List.mem_range.1 hi
  have hj := List.mem_range.1 hj
  have hbit : i * w + j < 256 * w := by
    have : (i + 1) * w ≤ 256 * w := Nat.mul_le_mul_right _ hi
    rw [Nat.succ_mul] at this
    omega
  unfold streamBit
  rw [h _ (by omega)]

/-- The packed string `DEC` reads is inside `BBUF` (rule R34). -/
theorem Operands.EqualBut.unpackPoly_eq {p : SlotNo} {o o' : Operands} (h : o.EqualBut p o') {w : Nat}
    (hw : legalPackWidth w = true) : unpackPoly o'.bbuf w = unpackPoly o.bbuf w := by
  have hw12 : w ≤ 12 := by
    simp only [legalPackWidth, Bool.and_eq_true, decide_eq_true_eq] at hw
    exact hw.2
  exact unpackPoly_congr fun k hk => h.bbuf_eq (by omega)

/-! ## Commands on two states that differ in slot `p` -/

/-- Every scalar command completes by `finishScalar`, on equal operand registers. -/
theorem AlikeBut.scalarCommand {p : SlotNo} {s u : State} (h : AlikeBut (InSlot p) s u)
    (ho : (operands s).EqualBut p (operands u)) (g : Nat → Nat → Nat) :
    AlikeBut (InSlot p) (scalarCommand g s) (scalarCommand g u) := by
  unfold Machine.scalarCommand
  rw [ho.faA, ho.faB]
  exact h.finishScalar _ _

/-- Every lane-by-lane command on two slots completes by `finishPoly`, on equal sources. -/
theorem AlikeBut.laneCommand {p d a b : SlotNo} {s u : State} (h : AlikeBut (InSlot p) s u)
    (ha : (operands u).poly a = (operands s).poly a) (hb : (operands u).poly b = (operands s).poly b)
    (g : Nat → Nat → Nat) :
    AlikeBut (fun y => InSlot p y ∧ ¬InSlot d y) (laneCommand g d a b s) (laneCommand g d a b u) := by
  unfold Machine.laneCommand
  rw [ha, hb]
  exact h.finishPoly _ _ _

/-- `ENC` writes `BLEN` and `BBUF`, from an equal source slot. -/
theorem AlikeBut.execEnc {p a : SlotNo} {s u : State} (h : AlikeBut (InSlot p) s u)
    (ha : (operands u).poly a = (operands s).poly a) (w : Nat) :
    ∃ t v, execEnc a w s = .next t ∧ execEnc a w u = .next v ∧ AlikeBut (InSlot p) t v := by
  refine ⟨_, _, rfl, rfl, ?_⟩
  rw [ha]
  have hb := h.setBlen (BitVec.ofNat 16 (packedLength w))
  split
  · exact (hb.setBuffer _).finish _
  · exact ((hb.freeBuffer _).raiseError _).finish _

/-- `DEC` writes its destination from an equal `BBUF`. -/
theorem AlikeBut.execDec {p : SlotNo} {s u : State} (h : AlikeBut (InSlot p) s u) (d : SlotNo) {w : Nat}
    (hf : unpackPoly (operands u).bbuf w = unpackPoly (operands s).bbuf w) :
    ∃ t v, execDec d w s = .next t ∧ execDec d w u = .next v ∧ AlikeBut (UnwrittenByte (.dec d w) p) t v := by
  refine ⟨_, _, rfl, rfl, ?_⟩
  rw [hf]
  split
  · exact ((h.setSlot d _).finish _).unwritten rfl
  · exact ((h.setSlot d _).finish _).unwritten rfl

theorem AlikeBut.samplingOf_eq {H : Nat → Prop} {s u : State} (h : AlikeBut H s u) : samplingOf u = samplingOf s := by
  obtain ⟨m, rfl, -⟩ := h
  rfl

/-- The loop of `SUNI` reads `SEED` and `ARG` only (rules R151, R152). -/
theorem AlikeBut.suniLoop_eq {p : SlotNo} {s u : State} (h : AlikeBut (InSlot p) s u)
    (ho : (operands s).EqualBut p (operands u)) : suniLoop u = suniLoop s := by
  unfold suniLoop
  rw [ho.suniInput_eq, h.samplingOf_eq]

/-- How the same end of a `SUNI` leaves the two states: alike, or both still in flight with the same sampling. -/
theorem AlikeBut.suniEnd {p : SlotNo} {s u : State} (h : AlikeBut (InSlot p) s u) (d : SlotNo) (e : LoopEnd) :
    AlikeBut (UnwrittenByte (.suni d) p) (suniEnd d e s) (suniEnd d e u) ∨
      ∃ smp, suniEnd d e s = suniUnfinished d smp s ∧ suniEnd d e u = suniUnfinished d smp u := by
  cases e with
  | accepted smp => exact .inl (((h.setSlot d smp.accepted).finish _).unwritten rfl)
  | limit => exact .inl (((h.freeSlot d).freeResult.raiseError .xofLimit).complete.unwritten rfl)
  | unfinished smp => exact .inr ⟨smp, rfl, rfl⟩

/-- How a newly accepted command leaves two states that differ in a slot it does not read: alike, the slot too where it
is the destination; or, for a `SUNI` that has not ended, both still in flight with the same sampling (rule R246). -/
theorem exec_alikeBut {i : Instr} {p : SlotNo} {s u : State} (hw : i.wellFormed = true) (hi : s.engine = .idle)
    (h : AlikeBut (InSlot p) s u) (hp : p ∉ sources i) :
    ∃ t v, exec i s = .next t ∧ exec i u = .next v ∧
      (AlikeBut (UnwrittenByte i p) t v ∨ ∃ d smp, t = suniUnfinished d smp s ∧ v = suniUnfinished d smp u) := by
  have ho := operands_equalBut hi h
  have hpoly : ∀ a ∈ sources i, (operands u).poly a = (operands s).poly a := fun a ha =>
    ho.poly_eq fun e => hp (e ▸ ha)
  cases i with
  | nop => exact ⟨_, _, rfl, rfl, .inl ((h.finish _).unwritten_of_none rfl)⟩
  | fadd => exact ⟨_, _, rfl, rfl, .inl ((h.scalarCommand ho addMod).unwritten_of_none rfl)⟩
  | fsub => exact ⟨_, _, rfl, rfl, .inl ((h.scalarCommand ho subMod).unwritten_of_none rfl)⟩
  | fmul => exact ⟨_, _, rfl, rfl, .inl ((h.scalarCommand ho mulMod).unwritten_of_none rfl)⟩
  | fred =>
    refine ⟨_, _, rfl, rfl, .inl ?_⟩
    rw [ho.faA]
    exact (h.finishScalar _ _).unwritten_of_none rfl
  | fbred =>
    refine ⟨_, _, rfl, rfl, .inl ?_⟩
    rw [ho.faW]
    exact (h.finishScalar _ _).unwritten_of_none rfl
  | fmred =>
    refine ⟨_, _, rfl, rfl, .inl ?_⟩
    rw [ho.faW]
    exact (h.finishScalar _ _).unwritten_of_none rfl
  | padd d a b =>
    have hab := h.laneCommand (d := d) (hpoly a (by simp [sources])) (hpoly b (by simp [sources])) addMod
    exact ⟨_, _, rfl, rfl, .inl (hab.unwritten rfl)⟩
  | psub d a b =>
    have hab := h.laneCommand (d := d) (hpoly a (by simp [sources])) (hpoly b (by simp [sources])) subMod
    exact ⟨_, _, rfl, rfl, .inl (hab.unwritten rfl)⟩
  | pred d a =>
    refine ⟨_, _, rfl, rfl, .inl ?_⟩
    rw [hpoly a (by simp [sources])]
    exact (h.finishPoly _ d _).unwritten rfl
  | ntt d =>
    refine ⟨_, _, rfl, rfl, .inl ?_⟩
    rw [hpoly d (by simp [sources])]
    exact (h.finishPoly _ d _).unwritten rfl
  | intt d =>
    refine ⟨_, _, rfl, rfl, .inl ?_⟩
    rw [hpoly d (by simp [sources])]
    exact (h.finishPoly _ d _).unwritten rfl
  | bmul d a b =>
    refine ⟨_, _, rfl, rfl, .inl ?_⟩
    rw [hpoly a (by simp [sources]), hpoly b (by simp [sources])]
    exact (h.finishPoly _ d _).unwritten rfl
  | bmac d a b =>
    refine ⟨_, _, rfl, rfl, .inl ?_⟩
    rw [hpoly a (by simp [sources]), hpoly b (by simp [sources]), hpoly d (by simp [sources])]
    exact (h.finishPoly _ d _).unwritten rfl
  | suni d =>
    refine ⟨_, _, rfl, rfl, ?_⟩
    rw [h.suniLoop_eq ho]
    exact (h.suniEnd d _).imp_right fun ⟨smp, ht, hv⟩ => ⟨d, smp, ht, hv⟩
  | scbd d eta =>
    refine ⟨_, _, rfl, rfl, .inl ?_⟩
    rw [ho.scbdInput_eq]
    exact (h.finishPoly _ d _).unwritten rfl
  | cmpr d a w =>
    refine ⟨_, _, rfl, rfl, .inl ?_⟩
    rw [hpoly a (by simp [sources])]
    exact (h.finishPoly _ d _).unwritten rfl
  | dcmp d a w =>
    refine ⟨_, _, rfl, rfl, .inl ?_⟩
    rw [hpoly a (by simp [sources])]
    exact (h.finishPoly _ d _).unwritten rfl
  | enc a w =>
    obtain ⟨t, v, ht, hv, htv⟩ := h.execEnc (hpoly a (by simp [sources])) w
    exact ⟨t, v, ht, hv, .inl (htv.unwritten_of_none rfl)⟩
  | dec d w =>
    obtain ⟨t, v, ht, hv, htv⟩ := h.execDec d (ho.unpackPoly_eq hw)
    exact ⟨t, v, ht, hv, .inl htv⟩
  | pzero d => exact ⟨_, _, rfl, rfl, .inl (((h.setSlot d _).finish _).unwritten rfl)⟩
  | pcopy d a =>
    refine ⟨_, _, rfl, rfl, .inl ?_⟩
    rw [hpoly a (by simp [sources])]
    exact ((h.setSlot d _).finish _).unwritten rfl
  | wipe =>
    obtain ⟨m, rfl, -⟩ := h
    exact ⟨_, _, rfl, rfl, .inl ⟨[], rfl, fun _ _ => rfl⟩⟩

/-! ## The statement -/

/-- Settles O59: a command that completes leaves states that differ in the bytes of slot `p` it did not write; a `SUNI`
that has not ended changes no memory. -/
theorem unnamedSlotsDoNotLeak : Obligations.UnnamedSlotsDoNotLeak := by
  unfold Obligations.UnnamedSlotsDoNotLeak
  intro i s m p hw hi hm hp
  have hs : AlikeBut (InSlot p) s { s with mem := m } := ⟨m, rfl, fun y hy => hm y (not_inSlot_iff.1 hy)⟩
  obtain ⟨t, u, ht, hu, ⟨m', rfl, hm'⟩ | ⟨d, smp, rfl, rfl⟩⟩ := exec_alikeBut hw hi hs hp
  · have hOutside : SameOutside (slotBase p) 512 t { t with mem := m' } := fun y hy =>
      hm' y fun h => not_inSlot_iff.2 hy h.1
    have hDestination : destination i = some p → ∀ k, k < 256 → t.lane p k = (m'.coeff p k).toNat := fun hd k hk =>
      congrArg BitVec.toNat (Memory.coeff_congr (fun y _ _ => hm' y fun h => h.2 hd) hk).symm
    exact ⟨t, _, ht, hu, rfl, rfl, rfl, rfl, rfl, ⟨rfl, rfl, rfl, rfl, rfl, rfl, rfl, rfl, rfl⟩, Iff.rfl, hOutside,
      fun hd _ => hDestination hd⟩
  · exact ⟨_, _, ht, hu, rfl, rfl, rfl, rfl, rfl, ⟨rfl, rfl, rfl, rfl, rfl, rfl, rfl, rfl, rfl⟩, by simp, hm,
      fun _ he => by simp at he⟩

end Sys2Proof.Machine
end

section
/-! PROOFS. The encoder and the decoder undo each other, and which words are rejected for what (rules R80–R88, R204). -/

namespace Sys2Proof

/-! ## The parameters the map lists -/

theorem contains_unused (n : Nat) : [0].contains n = (n == 0) := by
  rw [List.contains_cons, List.contains_nil, Bool.or_false]

theorem contains_etas (n : Nat) : [2, 3].contains n = legalEta n := by
  rw [List.contains_cons, List.contains_cons, List.contains_nil, Bool.or_false, legalEta]

theorem contains_compressWidths (n : Nat) : compressWidths.contains n = legalCompressWidth n := by
  rw [Bool.eq_iff_iff]
  simp only [compressWidths, legalCompressWidth, List.contains_iff_mem, List.mem_cons, List.not_mem_nil, or_false,
    Bool.and_eq_true, decide_eq_true_eq]
  omega

theorem contains_packWidths (n : Nat) : packWidths.contains n = legalPackWidth n := by
  rw [Bool.eq_iff_iff]
  simp only [packWidths, legalPackWidth, List.contains_iff_mem, List.mem_cons, List.not_mem_nil, or_false,
    Bool.and_eq_true, decide_eq_true_eq]
  omega

/-! ## Rows -/

/-- What the row builds from fields that pass its checks is well formed, and its word is packed from these fields
(rules R82, R84, R85). -/
def Row.Builds (r : Row) : Prop :=
  ∀ (d a b : SlotNo) (p : Nat), (r.usesD || d.val == 0) = true → (r.usesA || a.val == 0) = true →
    (r.usesB || b.val == 0) = true → r.legalP.contains p = true →
    (r.build d a b p).wellFormed = true ∧ encode (r.build d a b p) = pack r.opc d.val a.val b.val p

/-- Row by row: an unused field is 0, as the encoder has it, and a listed parameter is a legal one. -/
theorem opcodeMap_builds : ∀ r ∈ opcodeMap, r.Builds := by
  simp only [opcodeMap, List.forall_mem_cons, List.not_mem_nil, false_imp_iff, implies_true, and_true]
  refine ⟨?_, ?_, ?_, ?_, ?_, ?_, ?_, ?_, ?_, ?_, ?_, ?_, ?_, ?_, ?_, ?_, ?_, ?_, ?_, ?_, ?_, ?_, ?_⟩ <;>
    (intro d a b p hd ha hb hp
     simp only [contains_unused, contains_etas, contains_compressWidths, contains_packWidths] at hp
     simp_all [Instr.wellFormed, encode])

/-- The field checks of a row, one by one (rules R82–R84). -/
theorem fieldsLegal_iff (r : Row) (v : Word) :
    r.fieldsLegal v = true ↔ rsvOf v = 0 ∧ (r.usesD || dOf v == 0) = true ∧ (r.usesA || aOf v == 0) = true ∧
      (r.usesB || bOf v == 0) = true ∧ r.legalP.contains (pOf v) = true := by
  simp only [Row.fieldsLegal, Bool.and_eq_true, beq_iff_eq, and_assoc]

/-! ## Decoding and encoding -/

/-- A well-formed command is what its word decodes to (rules R80–R85). -/
theorem decode_encode {i : Instr} (h : i.wellFormed = true) : decode (encode i) = .ok i := by
  obtain ⟨r, hr, d, a, b, p, he, ho, hd, ha, hb, hp, hud, hua, hub, hlp, hi⟩ := Laws.packedWord_all i h
  rw [decode_eq_ok_iff, he]
  refine ⟨r, hr, (opcOf_pack ho hd ha hb hp).symm, (fieldsLegal_iff _ _).2 ⟨rsvOf_pack ho hd ha hb hp, ?_⟩, ?_⟩
  · rw [dOf_pack ho hd ha hb hp, aOf_pack ho hd ha hb hp, bOf_pack ho hd ha hb hp, pOf_pack ho hd ha hb hp]
    exact ⟨hud, hua, hub, hlp⟩
  · rw [dOf_pack ho hd ha hb hp, aOf_pack ho hd ha hb hp, bOf_pack ho hd ha hb hp, pOf_pack ho hd ha hb hp]
    exact hi

/-- A word that decodes is the word of the command, and the command is well formed (rules R83, R84, R86). -/
theorem wellFormed_and_encode_of_decode {v : Word} {i : Instr} (h : decode v = .ok i) :
    i.wellFormed = true ∧ encode i = v := by
  obtain ⟨r, hr, ho, hl, rfl⟩ := (decode_eq_ok_iff v i).1 h
  obtain ⟨hrsv, hd, ha, hb, hp⟩ := (fieldsLegal_iff r v).1 hl
  have hbuild := opcodeMap_builds r hr (slotOf (dOf v)) (slotOf (aOf v)) (slotOf (bOf v)) (pOf v)
  rw [val_slotOf (dOf_lt v), val_slotOf (aOf_lt v), val_slotOf (bOf_lt v), ho, pack_of_fields hrsv] at hbuild
  exact hbuild hd ha hb hp

theorem wellFormed_of_decode {v : Word} {i : Instr} (h : decode v = .ok i) : i.wellFormed = true :=
  (wellFormed_and_encode_of_decode h).1

/-! ## Rejected words -/

/-- An opcode is missing from the map exactly where rule R87 lists it. -/
theorem reservedOpcode_iff {n : Nat} (h : n < 256) :
    (∀ r ∈ opcodeMap, r.opc ≠ n) ↔ Machine.reservedOpcode n = true := by
  simp only [opcodeMap, List.forall_mem_cons, List.not_mem_nil, false_imp_iff, implies_true, and_true,
    Machine.reservedOpcode, Bool.or_eq_true, Bool.and_eq_true, decide_eq_true_eq]
  omega

theorem decode_eq_reservedOpcode_iff_listed (v : Word) :
    decode v = .error .reservedOpcode ↔ Machine.reservedOpcode (v.toNat % 256) = true := by
  rw [decode_eq_reservedOpcode_iff, reservedOpcode_iff (opcOf_lt v), opcOf_eq]

/-- A word whose opcode is not reserved and that is no command's is rejected for its fields (rules R82–R84). -/
theorem decode_eq_illegalField {v : Word} (ho : Machine.reservedOpcode (v.toNat % 256) = false)
    (hv : ∀ i : Instr, i.wellFormed = true → encode i ≠ v) : decode v = .error .illegalField := by
  rcases decode_cases v with ⟨i, h⟩ | h | h
  · obtain ⟨hw, he⟩ := wellFormed_and_encode_of_decode h
    exact absurd he (hv i hw)
  · rw [(decode_eq_reservedOpcode_iff_listed v).1 h] at ho
    cases ho
  · exact h

end Sys2Proof
end

section
/-! PROOFS. What every step keeps (rules R20, R27, R39, R204): the invariant taken apart, what a host access can do to it,
and what the block's own step can do to it. -/

namespace Sys2Proof.Machine

/-! ## Busy -/

theorem busy_of_engine_eq {s t : State} (h : t.engine = s.engine) : t.busy = s.busy := by
  unfold State.busy
  rw [h]

theorem busy_of_idle {s : State} (h : s.engine = .idle) : s.busy = false := (busy_eq_false_iff s).2 h

@[simp] theorem busy_enterReset (s : State) : (enterReset s).busy = true := rfl

@[simp] theorem busy_served (s : State) : (served s).busy = s.busy := rfl

/-! ## What a host access can do -/

/-- What is in flight, the memories, the operand registers and `RESULT` are as they were, and `DONE` has not risen. -/
structure Undisturbed (s t : State) : Prop where
  engine : t.engine = s.engine
  operands : capture t = capture s
  result : t.result = s.result
  done : t.done = true → s.done = true

/-- What a served host access can come to (rules R26–R34, R65, R66, R203, R204, R231). -/
inductive AccessEffect (a : BusAccess) (s t : State) : Prop
  /-- A read, a write to `STATUS`, one to `CTRL` that is no soft reset, or a write the busy block drops. -/
  | undisturbed (h : Undisturbed s t)
  | softReset (v : Word) (ha : a = .write 0x004 4 v) (hv : v.getLsbD 31 = true)
      (ht : t = { enterReset s with response := .written })
  | rejected (v : Word) (code : ErrCode) (ha : a = .write 0x00C 4 v) (hb : s.busy = false)
      (ht : t = { reject code { s with cmd := v } with response := .written })
  | accepted (v : Word) (i : Instr) (ha : a = .write 0x00C 4 v) (hb : s.busy = false) (hd : decode v = .ok i)
      (hl : lengthLegal i s.blen = true) (ht : t = { accept v { s with cmd := v } with response := .written })
  /-- A write to an operand register or a memory word of the idle block. -/
  | stored (hb : s.busy = false) (engine : t.engine = s.engine) (done : t.done = s.done)
      (wf : s.mem.wf = true → t.mem.wf = true) (mapped : s.mem.mapped = true → t.mem.mapped = true)

theorem readLocation_undisturbed (l : Location) (s : State) : Undisturbed s (readLocation l s) := by
  rw [readLocation_frame]
  exact ⟨rfl, rfl, rfl, id⟩

theorem acknowledge_undisturbed (v : Word) (s : State) :
    Undisturbed s { acknowledge v s with response := .written } := by
  refine ⟨rfl, rfl, rfl, fun h => ?_⟩
  rw [acknowledge_done, Bool.and_eq_true] at h
  exact h.1

/-- A write to `CTRL` is a soft reset or disturbs nothing (rules R26, R231). -/
theorem writeCtrl_effect (v : Word) (s : State) :
    AccessEffect (.write 0x004 4 v) s { writeCtrl v s with response := .written } := by
  unfold writeCtrl
  split
  · exact .softReset v rfl ‹_› rfl
  · exact .undisturbed ⟨rfl, rfl, rfl, id⟩

/-- A write to `CMD` issues a word or, while busy, disturbs nothing (rules R203, R204). -/
theorem writeCmd_effect (v : Word) (s : State) :
    AccessEffect (.write 0x00C 4 v) s { writeCmd v s with response := .written } := by
  rcases writeCmd_cases v s with ⟨-, e⟩ | ⟨hb, code, e⟩ | ⟨hb, i, hd, hl, e⟩ <;> rw [e]
  · exact .undisturbed ⟨rfl, rfl, rfl, id⟩
  · exact .rejected v code rfl hb rfl
  · exact .accepted v i rfl hb hd hl rfl

/-- A word at an aligned memory offset lies inside the map (rule R20). -/
theorem setWord_keeps_mapped {m : Memory} (h : m.mapped = true) {x : Nat} {l : Location} (hx : x % 4 = 0)
    (hl : locate x = some l) {y : Nat} (hy : l = .seed y ∨ l = .buffer y) (v : Word) :
    (m.setWord y v).mapped = true := by
  have hmap := locate_eq_some hl
  refine Memory.write_keeps_mapped h fun z h1 h2 => ?_
  have h2 : z < y + 4 := h2
  simp only [inMemoryMap, Bool.or_eq_true, Bool.and_eq_true, decide_eq_true_eq]
  rcases hy with rfl | rfl <;> simp only at hmap <;> omega

theorem busAccess_effect {a : BusAccess} {s t : State} (h : busAccess a s = .next t) : AccessEffect a s t := by
  rcases busAccess_next h with ⟨x, l, -, -, -, rfl⟩ | ⟨x, l, v, s', rfl, hx, hl, hw, rfl⟩
  · exact .undisturbed (readLocation_undisturbed l s)
  have hmap := locate_eq_some hl
  rcases writeLocation_cases hw with ⟨rfl, rfl⟩ | ⟨rfl, rfl⟩ | ⟨rfl, rfl⟩ | ⟨-, rfl⟩ |
    ⟨hb, arg, blen, faA, faB, faW, rfl⟩ | ⟨hb, y, hy, rfl⟩
  · obtain rfl : x = 0x004 := hmap
    exact writeCtrl_effect v s
  · exact .undisturbed (acknowledge_undisturbed v s)
  · obtain rfl : x = 0x00C := hmap
    exact writeCmd_effect v s
  · exact .undisturbed ⟨rfl, rfl, rfl, id⟩
  · exact .stored hb rfl rfl id id
  · exact .stored hb rfl rfl (fun h => Memory.setWord_keeps_wf h _ _) fun h => setWord_keeps_mapped h hx hl hy v

/-! ## The invariant -/

/-- The four parts of the invariant (rules R20, R27, R39, R243). -/
theorem inv_iff (s : State) : s.inv = true ↔
    s.mem.wf = true ∧ s.mem.mapped = true ∧ engineLegal s = true ∧ (s.busy = true → s.done = false) := by
  unfold State.inv
  cases s.busy <;> cases s.done <;> simp [and_assoc]

/-- A legal engine stays legal where it and the operands stay as they are. -/
theorem engineLegal_congr {s t : State} (he : t.engine = s.engine) (hc : capture t = capture s) :
    engineLegal t = engineLegal s := by
  unfold engineLegal
  rw [he, hc, ← capture_mem t, hc]
  rfl

theorem inv_of_undisturbed {s t : State} (hs : s.inv = true) (h : Undisturbed s t) : t.inv = true := by
  rw [inv_iff] at hs ⊢
  obtain ⟨hwf, hmapped, hlegal, hdone⟩ := hs
  have hmem : t.mem = s.mem := congrArg Operands.mem h.operands
  rw [hmem, engineLegal_congr h.engine h.operands, busy_of_engine_eq h.engine]
  exact ⟨hwf, hmapped, hlegal, fun hb => Bool.eq_false_iff.2 fun ht => by simpa [hdone hb] using h.done ht⟩

/-- An idle block asks nothing but memories in form and inside the map. -/
theorem inv_of_idle {t : State} (he : t.engine = .idle) (hwf : t.mem.wf = true) (hmapped : t.mem.mapped = true) :
    t.inv = true := by
  refine (inv_iff t).2 ⟨hwf, hmapped, ?_, fun hb => ?_⟩
  · unfold engineLegal
    rw [he]
  · rw [busy_of_idle he] at hb
    cases hb

theorem inv_enterReset {s : State} (hs : s.inv = true) : (enterReset s).inv = true := by
  obtain ⟨hwf, hmapped, -, -⟩ := (inv_iff s).1 hs
  exact (inv_iff _).2 ⟨Memory.clearSeed_keeps_wf hwf, Memory.clearSeed_keeps_mapped hmapped, enterReset_engineLegal s,
    fun _ => rfl⟩

/-- A command that has sampled nothing yet has sampled nothing illegal (rule R152). -/
theorem samplingLegal_start (i : Instr) : samplingLegal i .start = true := by
  cases i <;> rfl

/-- A running engine is legal where it holds an accepted command, the live operands and a legal sampling. -/
theorem engineLegal_running_iff {s : State} {v : Word} {ops : Operands} {smp : Sampling} {i : Instr}
    (he : s.engine = .running v ops smp) (hd : decode v = .ok i) :
    engineLegal s = true ↔ lengthLegal i ops.blen = true ∧ ops = capture s ∧ samplingLegal i smp = true := by
  unfold engineLegal
  simp only [he, hd, Bool.and_eq_true, beq_iff_eq, and_assoc]

/-- Acceptance after the checks of rule R204 captures the live operands (rule R39). -/
theorem inv_accept {s : State} {v : Word} {i : Instr} (hs : s.inv = true) (hd : decode v = .ok i)
    (hl : lengthLegal i s.blen = true) : (accept v s).inv = true := by
  obtain ⟨hwf, hmapped, -, -⟩ := (inv_iff s).1 hs
  refine (inv_iff _).2 ⟨hwf, hmapped, ?_, fun _ => rfl⟩
  exact (engineLegal_running_iff (accept_engine s v) hd).2 ⟨hl, rfl, samplingLegal_start i⟩

theorem inv_served {s : State} (hs : s.inv = true) : (served s).inv = true :=
  inv_of_undisturbed hs ⟨rfl, rfl, rfl, id⟩

theorem inv_of_accessEffect {a : BusAccess} {s t : State} (hs : s.inv = true) (h : AccessEffect a s t) :
    t.inv = true := by
  obtain ⟨hwf, hmapped, -, -⟩ := (inv_iff s).1 hs
  cases h with
  | undisturbed h => exact inv_of_undisturbed hs h
  | softReset v _ _ ht =>
    subst ht
    exact inv_of_undisturbed (inv_enterReset hs) ⟨rfl, rfl, rfl, id⟩
  | rejected v code _ hb ht =>
    subst ht
    exact inv_of_idle ((busy_eq_false_iff s).1 hb) hwf hmapped
  | accepted v i _ _ hd hl ht =>
    subst ht
    have hs' : ({ s with cmd := v } : State).inv = true := inv_of_undisturbed hs ⟨rfl, rfl, rfl, id⟩
    exact inv_of_undisturbed (inv_accept hs' hd hl) ⟨rfl, rfl, rfl, id⟩
  | stored hb he _ hwf' hmapped' => exact inv_of_idle (he.trans ((busy_eq_false_iff s).1 hb)) (hwf' hwf) (hmapped' hmapped)

/-! ## The block's own step -/

/-- What a legal sampling of a `SUNI` in flight says: it is sound, and fewer than 256 values are accepted. -/
theorem samplingLegal_suni_iff (d : SlotNo) (smp : Sampling) :
    samplingLegal (.suni d) smp = true ↔ smp.Sound ∧ smp.accepted.length < 256 := by
  simp only [samplingLegal, canonical, below, Sampling.Sound, Bool.and_eq_true, List.all_eq_true, decide_eq_true_eq,
    beq_iff_eq]
  constructor
  · rintro ⟨⟨⟨hq, hl⟩, hp⟩, hn⟩
    exact ⟨⟨hq, by omega, hp, hn⟩, hl⟩
  · rintro ⟨⟨hq, -, hp, hn⟩, hl⟩
    exact ⟨⟨⟨hq, hl⟩, hp⟩, hn⟩

/-- A `SUNI` that stays in flight has sampled nothing illegal (rules R40, R152). -/
theorem samplingLegal_of_unfinished {s : State} {d : SlotNo} {smp : Sampling}
    (hs : samplingLegal (.suni d) (samplingOf s) = true) (h : suniLoop s = .unfinished smp) :
    samplingLegal (.suni d) smp = true := by
  rw [samplingLegal_suni_iff] at hs ⊢
  have hloop := rejectionLoop_sound (Config.xof (suniInput (operands s))) Config.xofLimitBytes
    Config.suniGroupsPerStep hs.1 (.inr (.inr hs.2))
  unfold suniLoop at h
  rw [h] at hloop
  exact ⟨hloop.1, hloop.2.1⟩

/-- The command in flight completes, or is a `SUNI` that stays in flight on the operands it captured (rules R205, R246). -/
theorem inv_of_exec {s t : State} {v : Word} {ops : Operands} {smp : Sampling} {i : Instr} (hs : s.inv = true)
    (he : s.engine = .running v ops smp) (hd : decode v = .ok i) (h : exec i s = .next t) : t.inv = true := by
  obtain ⟨hwf, hmapped, hlegal, hdone⟩ := (inv_iff s).1 hs
  obtain ⟨-, hops, hsmp⟩ := (engineLegal_running_iff he hd).1 hlegal
  have heffect := exec_effect (wellFormed_of_decode hd) h
  rcases heffect.ending with ⟨hidle, -⟩ | ⟨d, r, rfl, hloop, rfl⟩
  · exact inv_of_idle hidle (heffect.wf hwf) (heffect.mapped hmapped)
  · refine (inv_iff _).2 ⟨hwf, hmapped, ?_, fun _ => hdone (by rw [State.busy, he])⟩
    refine (engineLegal_running_iff (suniUnfinished_engine s d r) (decode_encode rfl)).2 ⟨rfl, ?_, ?_⟩
    · rw [operands_of_running he, hops]
      rfl
    · refine samplingLegal_of_unfinished (s := s) ?_ hloop
      rw [samplingOf, he]
      exact hsmp

/-- Settles O53: by the kinds of step, a host access by what it can come to and a command by how it can end. -/
theorem stepKeepsInvariant : Obligations.StepKeepsInvariant := by
  unfold Obligations.StepKeepsInvariant
  intro s t hs h
  have hserved := inv_served hs
  rcases step_cases h with ⟨a, rest, -, ha⟩ | ⟨rest, -, rfl⟩ | ⟨-, -, rfl⟩ | ⟨-, -, rfl⟩ | ⟨-, v, ops, smp, i, he, hd, ht⟩
  · exact inv_of_accessEffect hserved (busAccess_effect ha)
  · exact inv_enterReset hserved
  · exact hserved
  · exact inv_of_idle rfl rfl rfl
  · exact inv_of_exec hserved he hd ht

end Sys2Proof.Machine
end

section
/-! PROOFS. Single host accesses (rules R20–R35, R60–R66, R200–R208): a step that serves a read or a write of a listed
offset, then the registers and the memory words one by one. -/

namespace Sys2Proof.Machine

/-! ## A step that serves one access -/

theorem readable_served (l : Location) (s : State) : readable l (served s) = readable l s := by
  cases l <;> rfl

theorem valueAt_served (l : Location) (s : State) : valueAt l (served s) = valueAt l s := by
  cases l <;> rfl

/-- A served read of a location that shows its value answers with it and changes nothing else (rule R65). -/
theorem step_of_read {s : State} {x : Nat} {l : Location} (h : ReadsNext x s) (hx : x % 4 = 0)
    (hl : locate x = some l) (hr : readable l s = true) :
    step s = .next { s with arrivals := s.arrivals.tail, response := .data (valueAt l s) } := by
  obtain ⟨rest, ha⟩ := h
  rw [step_of_access ha, busAccess_read hx hl, readLocation_of_readable (by rwa [readable_served]), valueAt_served]
  rfl

/-- A served write of a location that admits it (rule R65). -/
theorem step_of_write {s t : State} {x : Nat} {v : Word} {l : Location} (h : WritesNext x v s) (hx : x % 4 = 0)
    (hl : locate x = some l) (hw : writeLocation l v (served s) = some t) :
    step s = .next { t with response := .written } := by
  obtain ⟨rest, ha⟩ := h
  rw [step_of_access ha, busAccess_write hx hl v hw]

/-- A write to an operand location of the idle block is stored (rule R66). -/
theorem step_of_operandWrite {s t u : State} {x : Nat} {v : Word} {l : Location} (h : WritesNext x v s)
    (hx : x % 4 = 0) (hl : locate x = some l)
    (hw : writeLocation l v (served s) = some (writeOperand u (served s))) (hb : s.busy = false)
    (ht : t = { u with response := .written }) : step s = .next t := by
  rw [step_of_write h hx hl (hw.trans (congrArg some (writeOperand_of_idle hb))), ht]

/-! ## Numbers and halves of words -/

theorem zext_eq_ofNat (v : Half) : v.zext = BitVec.ofNat 32 v.toNat := (BitVec.ofNat_toNat 32 v).symm

theorem low_eq_extract (v : Word) : v.low = v.extractLsb' 0 16 := BitVec.setWidth_eq_extractLsb' (by decide)

/-! ## Issue -/

theorem issue_of_error {v : Word} {r : Reject} (h : decode v = .error r) (s : State) :
    issue v s = reject (Reject.code r) s := by
  simp only [issue, h]

theorem issue_of_legal {v : Word} {i : Instr} {s : State} (h : decode v = .ok i) (hl : lengthLegal i s.blen = true) :
    issue v s = accept v s := by
  simp only [issue, h, hl, if_true]

theorem issue_of_illegalLength {v : Word} {i : Instr} {s : State} (h : decode v = .ok i)
    (hl : lengthLegal i s.blen = false) : issue v s = reject .length s := by
  simp only [issue, h, hl, Bool.false_eq_true, if_false]

/-- The length check concerns `DEC` only (rules R178, R204). -/
theorem lengthLegal_of_dec {i : Instr} {blen : Half} (h : ∀ d w, i = .dec d w → blen.toNat = 32 * w) :
    lengthLegal i blen = true := by
  by_cases hdec : ∃ d w, i = .dec d w
  · obtain ⟨d, w, rfl⟩ := hdec
    exact (lengthLegal_dec d w blen).2 (h d w rfl)
  · exact lengthLegal_of_not_dec (fun d w e => hdec ⟨d, w, e⟩) blen

/-- A write to `CMD` of the idle block issues the word (rules R28, R204). -/
theorem step_of_issue {s t : State} {v : Word} (h : WritesNext 0x00C v s) (hb : s.busy = false)
    (hi : issue v { served s with cmd := v } = t) : step s = .next { t with response := .written } := by
  have hw : writeCmd v (served s) = issue v { served s with cmd := v } := if_neg (by simp [hb])
  exact step_of_write h rfl rfl (congrArg some (hw.trans hi))

/-- Settles O5: what the word decodes to decides which check of rule R204 fails first. -/
theorem issueProcedure : Obligations.IssueProcedure := by
  unfold Obligations.IssueProcedure
  intro s v h hb
  refine ⟨fun ho => ?_, fun ho hv => ?_, fun d w h1 h12 he hlen => ?_, fun i hw he hlen => ?_⟩
  · rw [step_of_issue h hb (issue_of_error ((decode_eq_reservedOpcode_iff_listed v).2 ho) _)]
    rfl
  · rw [step_of_issue h hb (issue_of_error (decode_eq_illegalField ho hv) _)]
    rfl
  · have hw : (Instr.dec d w).wellFormed = true := by
      simp only [Instr.wellFormed, legalPackWidth, h1, h12, decide_true, Bool.and_self]
    have hl : lengthLegal (.dec d w) s.blen = false :=
      Bool.eq_false_iff.2 fun hl => hlen ((lengthLegal_dec d w _).1 hl)
    subst he
    rw [step_of_issue h hb (issue_of_illegalLength (decode_encode hw) hl)]
    rfl
  · subst he
    rw [step_of_issue h hb (issue_of_legal (decode_encode hw) (lengthLegal_of_dec hlen))]
    rfl

/-- Settles O6: while busy a `CMD` write only stores the word and raises `E_BUSY`. -/
theorem cmdWriteWhileBusy : Obligations.CmdWriteWhileBusy := by
  unfold Obligations.CmdWriteWhileBusy
  intro s v h hb
  have hw : writeCmd v (served s) = raiseError .busy { served s with cmd := v } := if_pos hb
  rw [step_of_write h rfl rfl (congrArg some hw)]
  rfl

/-! ## Registers and ROM words that read the same at any time -/

/-- The two ROM tables hold the powers of 17 that rule R130 gives. -/
theorem rom_eq_powers : ∀ i, i < 128 →
    zeta i = 17 ^ brv7 i % 3329 ∧ gamma i = 17 ^ (2 * brv7 i + 1) % 3329 := by decide +kernel

/-- Settles O41: each of these locations is readable whether the block is busy or not. -/
theorem registersReadAtAnyTime : Obligations.RegistersReadAtAnyTime := by
  unfold Obligations.RegistersReadAtAnyTime
  intro s
  simp only [← zext_eq_ofNat]
  refine ⟨fun h => step_of_read h rfl rfl rfl, fun h => step_of_read h rfl rfl rfl, fun h => step_of_read h rfl rfl rfl,
    fun h => step_of_read h rfl rfl rfl, fun h => step_of_read h rfl rfl rfl, fun h => step_of_read h rfl rfl rfl,
    fun h => step_of_read h rfl rfl rfl, fun h => step_of_read h rfl rfl rfl, fun i hi h => ?_, fun i hi h => ?_⟩
  · have hl : locate (0x800 + 4 * i) = some (.zeta i) := by
      rw [locate_zeta (by omega), show (0x800 + 4 * i - 0x800) / 4 = i by omega]
    rw [step_of_read h (by omega) hl rfl, ← (rom_eq_powers i hi).1]
    rfl
  · have hl : locate (0xA00 + 4 * i) = some (.gamma i) := by
      rw [locate_gamma (by omega), show (0xA00 + 4 * i - 0xA00) / 4 = i by omega]
    rw [step_of_read h (by omega) hl rfl, ← (rom_eq_powers i hi).2]
    rfl

/-! ## `STATUS` and `CTRL` -/

/-- Settles O43: a `STATUS` write acknowledges, a `CTRL` write without bit 31 sets the two enables. -/
theorem statusAndCtrlWrites : Obligations.StatusAndCtrlWrites := by
  unfold Obligations.StatusAndCtrlWrites
  intro s v
  refine ⟨fun h => ⟨_, step_of_write h rfl rfl rfl, ?_, fun h1 h2 => ?_⟩, fun h h31 => ?_⟩
  · have hdone : (s.done && !v.getLsbD 1) = if v.getLsbD 1 then false else s.done := by
      cases v.getLsbD 1 <;> simp
    rw [← hdone]
    rfl
  · simp [State.irq, State.err, h1, h2]
  · have hw : writeCtrl v (served s) = { served s with ieDone := v.getLsbD 0, ieErr := v.getLsbD 1 } :=
      if_neg (by rw [h31]; exact Bool.false_ne_true)
    rw [step_of_write h rfl rfl (congrArg some hw)]
    rfl

/-- The word rule R27 composes, bit by bit. -/
def StatusBits (v : Word) (busy done : Bool) (error : Option ErrCode) : Prop :=
  v.getLsbD 0 = busy ∧ v.getLsbD 1 = done ∧ v.getLsbD 2 = error.isSome ∧ v.extractLsb' 3 5 = 0#5 ∧
    v.extractLsb' 12 20 = 0#20 ∧ (v.extractLsb' 8 4).toNat = match error with
      | none => 0
      | some c => c.number

/-- There are 32 values of `STATUS`, one for each pair of bits and each code that can be held. -/
theorem status_bits (s : State) : StatusBits s.status s.busy s.done s.error := by
  unfold State.status State.err State.errCode StatusBits
  generalize s.busy = busy, s.done = done, s.error = error
  rcases error with _ | code
  · revert busy done
    decide
  · revert busy done
    cases code <;> decide

/-- Settles O42: bits 1 and 2 of `STATUS` are what the interrupt line is made of. -/
theorem statusBitsAndInterruptLine : Obligations.StatusBitsAndInterruptLine := by
  unfold Obligations.StatusBitsAndInterruptLine
  intro s
  obtain ⟨hbusy, hdone, herr, hlow, hhigh, hcode⟩ := status_bits s
  refine ⟨hbusy, hdone, herr, hlow, hhigh, hcode.trans ?_, ?_⟩
  · rcases s.error with _ | _ | _ <;> rfl
  · simp only [hdone, herr, State.irq, State.err, Bool.or_eq_true, Bool.and_eq_true]

/-! ## Memory words of the idle block -/

/-- A write to a memory word of the idle block stores it (rules R23, R33, R34, R60). -/
theorem step_of_memoryWrite {s : State} {x : Nat} {v : Word} {l : Location} (h : WritesNext x v s) (hx : x % 4 = 0)
    (hl : locate x = some l) (hm : l = .seed x ∨ l = .buffer x) (hb : s.busy = false) :
    step s = .next { s with arrivals := s.arrivals.tail, response := .written, mem := s.mem.setWord x v } := by
  rcases hm with rfl | rfl <;> exact step_of_operandWrite h hx hl rfl hb rfl

/-- A read of a memory word of the idle block answers with it. -/
theorem step_of_memoryRead {s : State} {x : Nat} {l : Location} (h : ReadsNext x s) (hx : x % 4 = 0)
    (hl : locate x = some l) (hm : l = .seed x ∨ l = .buffer x) (hb : s.busy = false) :
    step s = .next { s with arrivals := s.arrivals.tail, response := .data (s.mem.word x) } := by
  rcases hm with rfl | rfl
  · exact step_of_read h hx hl rfl
  · exact step_of_read h hx hl (by simp [readable, hb])

theorem slotBase_eq (p : SlotNo) : slotBase p = 0x2000 + 0x200 * p.val := rfl

/-- Settles O44: word `w` of a slot is its coefficients `2w` and `2w + 1` (rule R23). -/
theorem slotWordView : Obligations.SlotWordView := by
  unfold Obligations.SlotWordView
  intro s p w hw hb
  set x := 0x2000 + 0x200 * p.val + 4 * w with hx
  have hlow (m : Memory) : m.coeff p (2 * w) = m.half x := by
    rw [Memory.coeff, slotBase_eq, show 0x2000 + 0x200 * p.val + 2 * (2 * w) = x by omega]
  have hhigh (m : Memory) : m.coeff p (2 * w + 1) = m.half (x + 2) := by
    rw [Memory.coeff, slotBase_eq, show 0x2000 + 0x200 * p.val + 2 * (2 * w + 1) = x + 2 by omega]
  have hl : locate x = some (.buffer x) := locate_slots (by omega)
  refine ⟨fun v h => ⟨_, step_of_memoryWrite h (by omega) hl (.inr rfl) hb, ?_, ?_, ?_, rfl⟩, fun h => ?_⟩
  · exact (hlow _).trans (Memory.half_setWord_low _ _ _)
  · exact (hhigh _).trans (Memory.half_setWord_high _ _ _)
  · exact fun y hy => Memory.read_setWord_of_outside hy
  · rw [step_of_memoryRead h (by omega) hl (.inr rfl) hb, Memory.word_eq_halves, hlow, hhigh]

/-- Settles O45: a word at any offset of `SEED` or `BBUF` is its four bytes. -/
theorem byteWordViews : Obligations.ByteWordViews := by
  unfold Obligations.ByteWordViews
  intro s x hx hrange hb
  obtain ⟨l, hl, hm⟩ : ∃ l, locate x = some l ∧ (l = .seed x ∨ l = .buffer x) := by
    rcases hrange with hseed | hbbuf
    · exact ⟨_, locate_seed hseed, .inl rfl⟩
    · exact ⟨_, locate_bbuf hbbuf, .inr rfl⟩
  refine ⟨fun v h => ⟨_, step_of_memoryWrite h hx hl hm hb, ?_, ?_, rfl⟩,
    fun h => ⟨_, ?_, step_of_memoryRead h hx hl hm hb⟩⟩
  · exact fun b hb => Memory.read_setWord s.mem x v hb
  · exact fun y hy => Memory.read_setWord_of_outside hy
  · exact fun b hb => Memory.byte_of_word s.mem x hb

/-! ## Operand registers of the idle block -/

/-- Settles O46: each register is an operand location, stored to and shown while idle. -/
theorem operandRegisterAccess : Obligations.OperandRegisterAccess := by
  unfold Obligations.OperandRegisterAccess
  intro s v hb
  simp only [← low_eq_extract, ← zext_eq_ofNat]
  have hr : (!s.busy) = true := by rw [hb, Bool.not_false]
  exact ⟨fun h => step_of_operandWrite h rfl rfl rfl hb rfl, fun h => step_of_operandWrite h rfl rfl rfl hb rfl,
    fun h => step_of_operandWrite h rfl rfl rfl hb rfl, fun h => step_of_operandWrite h rfl rfl rfl hb rfl,
    fun h => step_of_operandWrite h rfl rfl rfl hb rfl, fun h => step_of_read h rfl rfl hr,
    fun h => step_of_read h rfl rfl hr⟩

end Sys2Proof.Machine
end

section
/-! PROOFS. Reset (rules R45, R66, R194, R230, R232), and what changes the control state and what is in flight (rules R26,
R27, R28, R39, R204, R205). -/

namespace Sys2Proof.Machine

/-! ## Reset and the wipe -/

/-- Settles O52, by evaluating the invariant on the state after reset. -/
theorem invariantAtReset : Obligations.InvariantAtReset := by
  unfold Obligations.InvariantAtReset
  decide

/-- A word whose four bytes are 0 is 0 (rule R60). -/
theorem Memory.word_eq_zero {m : Memory} {x : Nat} (h : ∀ b, b < 4 → m.read (x + b) = 0#8) : m.word x = 0#32 := by
  have h0 : m.read x = 0#8 := h 0 (by decide)
  rw [Memory.word, h0, h 1 (by decide), h 2 (by decide), h 3 (by decide)]
  rfl

/-- In a state of the invariant a `SEED` word reads 0 while the wipe runs (rules R66, R194). -/
theorem seedWord_of_wiping {s : State} (hs : s.inv = true) (hw : s.engine = .wiping) {x : Nat} (hx : x % 4 = 0)
    (h1 : 0x40 ≤ x) (h2 : x < 0x60) : s.mem.word x = 0#32 := by
  obtain ⟨-, -, hlegal, -⟩ := (inv_iff s).1 hs
  refine Memory.word_eq_zero fun b hb => ?_
  have hk := seedByte_of_wiping hlegal hw (k := x + b - 0x40) (by omega)
  rwa [State.seedByte, show 0x40 + (x + b - 0x40) = x + b by omega] at hk

/-- Settles O49: the fields of `enterReset`, the bytes `clearSeed` leaves, and the `SEED` clause of the invariant. -/
theorem hardwareReset : Obligations.HardwareReset := by
  unfold Obligations.HardwareReset
  refine ⟨fun s rest h => ⟨_, step_of_resetPulse h, ?_⟩, fun s x hs hw hx h1 h2 h => ?_, ?_⟩
  · refine ⟨rfl, rfl, rfl, rfl, rfl, rfl, rfl, rfl, rfl, rfl, rfl, ?_, ?_, ?_, rfl, rfl⟩
    · exact fun k hk => Memory.read_seed_clearSeed s.mem hk
    · exact fun y hy => Memory.read_clearSeed_of_outside hy
    · exact congrArg List.tail h
  · rw [step_of_read h hx (locate_seed ⟨h1, h2⟩) rfl, valueAt, seedWord_of_wiping hs hw hx h1 h2]
  · exact ⟨rfl, rfl, rfl, rfl, rfl, rfl, rfl, rfl, rfl, rfl, rfl⟩

/-- Once the wipe has ended every coefficient is 0 (rule R232). -/
theorem lane_endWipe (s : State) (p : SlotNo) (i : Nat) : (endWipe s).lane p i = 0 := by
  rw [State.lane, endWipe_mem, Memory.coeff, Memory.half, Memory.read_nil, Memory.read_nil]
  decide

/-- Settles O51: the block's step in the wipe is `endWipe`, from any state and from the one after reset. -/
theorem wipeEnds : Obligations.WipeEnds := by
  unfold Obligations.WipeEnds
  refine ⟨fun s h hw => ⟨_, step_of_wiping h hw, rfl, ?_, ?_, ?_, rfl⟩, ⟨_, step_of_wiping (.inl rfl) rfl, ?_⟩⟩
  · exact fun p i _ => lane_endWipe (served s) p i
  · exact fun _ _ => rfl
  · exact fun _ _ => rfl
  · exact ⟨rfl, rfl, rfl, rfl, rfl, rfl, rfl, rfl, rfl, rfl, rfl⟩

/-! ## What changes `BUSY`, `DONE`, `CTRL` and `CMD` -/

/-- No host access ends what is in flight (rule R204). -/
theorem AccessEffect.busy_of_busy {a : BusAccess} {s t : State} (h : AccessEffect a s t) (hs : s.busy = true) :
    t.busy = true := by
  cases h with
  | undisturbed h => rwa [busy_of_engine_eq h.engine]
  | softReset v _ _ ht => rw [ht]; rfl
  | rejected v code _ hb _ => simp [hb] at hs
  | accepted v i _ hb _ _ _ => simp [hb] at hs
  | stored hb => simp [hb] at hs

/-- The host makes the block busy with a `CMD` write or a soft reset only (rules R204, R231). -/
theorem AccessEffect.write_of_busy_rises {a : BusAccess} {s t : State} (h : AccessEffect a s t) (hs : s.busy = false)
    (ht : t.busy = true) :
    (∃ v, a = .write 0x00C 4 v) ∨ ∃ v : Word, a = .write 0x004 4 v ∧ v.getLsbD 31 = true := by
  cases h with
  | undisturbed h => rw [busy_of_engine_eq h.engine, hs] at ht; cases ht
  | softReset v ha hv _ => exact .inr ⟨v, ha, hv⟩
  | rejected v code ha _ _ => exact .inl ⟨v, ha⟩
  | accepted v i ha _ _ _ _ => exact .inl ⟨v, ha⟩
  | stored hb he => rw [busy_of_engine_eq he, hs] at ht; cases ht

/-- The host sets `DONE` with a `CMD` write only (rule R204). -/
theorem AccessEffect.write_of_done_rises {a : BusAccess} {s t : State} (h : AccessEffect a s t) (hs : s.done = false)
    (ht : t.done = true) : ∃ v, a = .write 0x00C 4 v := by
  cases h with
  | undisturbed h => rw [h.done ht] at hs; cases hs
  | softReset v _ _ e => rw [e] at ht; cases ht
  | rejected v code ha _ _ => exact ⟨v, ha⟩
  | accepted v i ha _ _ _ _ => exact ⟨v, ha⟩
  | stored hb _ hdone => rw [hdone, hs] at ht; cases ht

/-- A step of the block leaves `CTRL`, `CMD` and the answer, and makes no idle block busy. -/
theorem step_of_blockNext {s t : State} (hb : BlockNext s) (h : step s = .next t) :
    (t.busy = true → s.busy = true) ∧ t.ieDone = s.ieDone ∧ t.ieErr = s.ieErr ∧ t.cmd = s.cmd ∧
      t.response = s.response ∧ t.arrivals = s.arrivals.tail := by
  rcases step_cases h with ⟨a, rest, ha, -⟩ | ⟨rest, ha, -⟩ | ⟨-, -, rfl⟩ | ⟨-, -, rfl⟩ | ⟨-, v, ops, smp, i, he, hd, ht⟩
  · simp [BlockNext, ha] at hb
  · simp [BlockNext, ha] at hb
  · exact ⟨id, rfl, rfl, rfl, rfl, rfl⟩
  · exact ⟨fun h => absurd h Bool.false_ne_true, rfl, rfl, rfl, rfl, rfl⟩
  · have heffect := exec_effect (wellFormed_of_decode hd) ht
    have hbusy : s.busy = true := by rw [State.busy, he]
    exact ⟨fun _ => hbusy, heffect.ieDone, heffect.ieErr, heffect.cmd, heffect.response, heffect.arrivals⟩

/-- Settles O56: by what arrives, a host access by what it can come to. -/
theorem controlStateChanges : Obligations.ControlStateChanges := by
  unfold Obligations.ControlStateChanges
  intro s t h
  rcases arrivals_cases s with ⟨a, rest, ha⟩ | ⟨rest, ha⟩ | hb
  · have hblock : ¬BlockNext s := by simp [BlockNext, ha]
    rw [step_of_access ha] at h
    have heffect := busAccess_effect h
    refine ⟨fun hs ht => ?_, fun hs ht => ?_, fun hs ht => ?_, fun hb => absurd hb hblock⟩
    · rw [heffect.busy_of_busy hs] at ht
      cases ht
    · rcases heffect.write_of_busy_rises hs ht with ⟨v, rfl⟩ | ⟨v, rfl, hv⟩
      · exact .inl ⟨v, rest, ha⟩
      · exact .inr (.inl ⟨v, ⟨rest, ha⟩, hv⟩)
    · obtain ⟨v, rfl⟩ := heffect.write_of_done_rises hs ht
      exact .inr ⟨v, rest, ha⟩
  · have hblock : ¬BlockNext s := by simp [BlockNext, ha]
    rw [step_of_resetPulse ha] at h
    cases h
    exact ⟨fun _ ht => absurd ht (by simp), fun _ _ => .inr (.inr ⟨rest, ha⟩), fun _ ht => absurd ht (by simp),
      fun hb => absurd hb hblock⟩
  · obtain ⟨hbusy, hcontrols⟩ := step_of_blockNext hb h
    refine ⟨fun _ _ => hb, fun hs ht => ?_, fun _ _ => .inl hb, fun _ => hcontrols⟩
    rw [hbusy ht] at hs
    cases hs

/-- Settles O57: of what an access can come to, only a soft reset and what disturbs nothing can befall a busy block. -/
theorem hostCannotDisturbCommand : Obligations.HostCannotDisturbCommand := by
  unfold Obligations.HostCannotDisturbCommand
  intro s t a rest ha hb hreset h
  rw [step_of_access ha] at h
  have hundisturbed : Undisturbed (served s) t := by
    cases busAccess_effect h with
    | undisturbed h => exact h
    | softReset v e hv _ => rw [hreset v e] at hv; cases hv
    | rejected v code _ hidle _ => simp [hb] at hidle
    | accepted v i _ hidle _ _ _ => simp [hb] at hidle
    | stored hidle => simp [hb] at hidle
  obtain ⟨hengine, hoperands, hresult, -⟩ := hundisturbed
  simp only [capture, Operands.mk.injEq] at hoperands
  obtain ⟨hmem, harg, hblen, hfaA, hfaB, hfaW⟩ := hoperands
  exact ⟨hengine, hmem, hresult, harg, hblen, hfaA, hfaB, hfaW⟩

end Sys2Proof.Machine
end

section
/-! PROOFS. Both samplers are functions of the seed and `ARG` (rules R151, R152, R156, R159). -/

namespace Sys2Proof.Machine

section
variable {o o' : Operands} (hseed : ∀ b, b < 32 → o.mem.read (0x40 + b) = o'.mem.read (0x40 + b))
include hseed

theorem seed_congr : o.seed = o'.seed :=
  List.map_congr_left fun b hb => hseed b (List.mem_range.1 hb)

theorem scbdInput_congr (harg : o.argX = o'.argX) : scbdInput o = scbdInput o' := by
  rw [scbdInput, scbdInput, seed_congr hseed, harg]

theorem suniInput_congr (harg : o.arg = o'.arg) : suniInput o = suniInput o' := by
  rw [suniInput, suniInput, seed_congr hseed, Operands.argX, Operands.argY, harg]
  rfl
end

theorem finishPoly_result (ok : Bool) (d : SlotNo) (f : Poly) (s : State) : (finishPoly ok d f s).result = 0#32 := rfl

/-- The destination of a polynomial command in range, whatever state it was written in (rules R109, R205). -/
theorem lane_finishPoly (d : SlotNo) (f : Poly) (s : State) {i : Nat} (hi : i < 256) :
    (finishPoly true d f s).lane d i = (BitVec.ofNat 16 (f.at i)).toNat := by
  obtain ⟨-, -, -, -, -, hlanes, -⟩ := finishPoly_spec true d f s
  exact congrArg BitVec.toNat ((hlanes rfl).1 i hi)

/-- The destination of a `SUNI` that ends by acceptance, whatever state it was written in (rules R152, R205). -/
theorem lane_suniAccepted (d : SlotNo) (smp : Sampling) (s : State) {i : Nat} (hi : i < 256) :
    (suniAccepted d smp s).lane d i = (BitVec.ofNat 16 (Poly.at smp.accepted i)).toNat := by
  rw [State.lane, suniAccepted, finish_mem, State.setSlot_mem, Memory.coeff_setPoly _ _ _ _ hi, if_pos rfl]

/-- The loop of `SUNI` depends on its input and on where it starts (rule R152). -/
theorem suniLoop_congr {s u : State} (hsampling : samplingOf s = samplingOf u)
    (hinput : suniInput (operands s) = suniInput (operands u)) : suniLoop s = suniLoop u := by
  rw [suniLoop, suniLoop, hsampling, hinput]

/-- Whether a `SUNI` ends depends on how its loop ends (rules R205, R246). -/
theorem suniEnd_idle_iff (d e : SlotNo) (r : LoopEnd) (s u : State) :
    (suniEnd d r s).engine = .idle ↔ (suniEnd e r u).engine = .idle := by
  cases r with
  | accepted smp => exact iff_of_true rfl rfl
  | limit => exact iff_of_true rfl rfl
  | unfinished smp => simp [suniEnd]

/-- Two `SUNI` whose loops end alike leave the same coefficients and the same `RESULT`, if 256 values are accepted. -/
theorem suniEnd_accepted_congr (d e : SlotNo) {r : LoopEnd} {smp : Sampling} (hr : r = .accepted smp) (s u : State) :
    (∀ i, i < 256 → (suniEnd d r s).lane d i = (suniEnd e r u).lane e i) ∧
      (suniEnd d r s).result = (suniEnd e r u).result := by
  subst hr
  exact ⟨fun i hi => (lane_suniAccepted d smp s hi).trans (lane_suniAccepted e smp u hi).symm,
    (suniAccepted_result d smp s).trans (suniAccepted_result e smp u).symm⟩

/-- `SCBD` on equal inputs (rules R156, R159). -/
theorem scbd_congr (s u : State) (d e : SlotNo) (eta : Nat) (h : scbdInput (operands s) = scbdInput (operands u)) :
    ∃ t v : State, exec (.scbd d eta) s = .next t ∧ exec (.scbd e eta) u = .next v ∧ t.result = v.result ∧
      ∀ i, i < 256 → t.lane d i = v.lane e i := by
  refine ⟨_, _, rfl, rfl, (finishPoly_result _ d _ s).trans (finishPoly_result _ e _ u).symm, fun i hi => ?_⟩
  rw [h, lane_finishPoly d _ s hi, lane_finishPoly e _ u hi]

/-- Settles O58: equal seeds and equal `ARG` give both samplers equal inputs. -/
theorem samplersArePure : Obligations.SamplersArePure := by
  unfold Obligations.SamplersArePure
  intro s u d e hseed
  refine ⟨fun eta _ harg => scbd_congr s u d e eta (scbdInput_congr hseed harg), fun hs hu harg => ?_⟩
  have hloop := suniLoop_congr (hs.trans hu.symm) (suniInput_congr hseed harg)
  refine ⟨suniEnd d (suniLoop s) s, suniEnd e (suniLoop s) u, rfl, ?_, suniEnd_idle_iff d e _ s u,
    fun smp hsmp => suniEnd_accepted_congr d e hsmp s u⟩
  rw [hloop]
  rfl

end Sys2Proof.Machine
end

section
/-! PROOFS. Which host accesses are served (rules R62, R63, R67), that no read has a side effect (rule R65), and what
operands and results answer while the block is busy (rule R66). -/

namespace Sys2Proof.Machine

/-! ## Bus errors -/

/-- A host access is answered or gets the bus error: no branch of the definition refuses it (rule R63). -/
theorem busAccess_fault_or_next (a : BusAccess) (s : State) :
    (∃ f, busAccess a s = .fault f) ∨ ∃ t, busAccess a s = .next t := by
  unfold busAccess
  repeat' split
  all_goals simp

theorem listed_iff_locate {x : Nat} (hx : x % 4 = 0) : ¬unlistedOffset x = true ↔ ∃ l, locate x = some l := by
  rw [← locate_eq_none_iff hx, ← ne_eq, Option.ne_none_iff_exists']

theorem writable_iff_writeLocation {x : Nat} {l : Location} (hl : locate x = some l) (v : Word) (s : State) :
    ¬readOnlyOffset x = true ↔ ∃ t, writeLocation l v s = some t := by
  rw [← writeLocation_eq_none_iff hl v s, ← ne_eq, Option.ne_none_iff_exists']

/-- A read is served exactly if it is a word wide, aligned and at a listed offset (rules R62, R63). -/
theorem busAccess_read_served_iff (x n : Nat) (s : State) :
    (∃ t, busAccess (.read x n) s = .next t) ↔ n = 4 ∧ x % 4 = 0 ∧ ¬unlistedOffset x = true := by
  constructor
  · rintro ⟨t, h⟩
    rcases busAccess_next h with ⟨y, l, e, hx, hl, -⟩ | ⟨_, _, _, _, e, -⟩
    · cases e
      exact ⟨rfl, hx, (listed_iff_locate hx).2 ⟨l, hl⟩⟩
    · cases e
  · rintro ⟨rfl, hx, hu⟩
    obtain ⟨l, hl⟩ := (listed_iff_locate hx).1 hu
    exact ⟨_, busAccess_read hx hl s⟩

/-- A write is served exactly if a read of the offset is and the location is not read-only (rules R62, R63). -/
theorem busAccess_write_served_iff (x n : Nat) (v : Word) (s : State) :
    (∃ t, busAccess (.write x n v) s = .next t) ↔
      n = 4 ∧ x % 4 = 0 ∧ ¬unlistedOffset x = true ∧ ¬readOnlyOffset x = true := by
  constructor
  · rintro ⟨t, h⟩
    rcases busAccess_next h with ⟨_, _, e, -⟩ | ⟨y, l, w, u, e, hx, hl, hw, -⟩
    · cases e
    · cases e
      exact ⟨rfl, hx, (listed_iff_locate hx).2 ⟨l, hl⟩, (writable_iff_writeLocation hl v s).2 ⟨u, hw⟩⟩
  · rintro ⟨rfl, hx, hu, hr⟩
    obtain ⟨l, hl⟩ := (listed_iff_locate hx).1 hu
    obtain ⟨t, ht⟩ := (writable_iff_writeLocation hl v s).1 hr
    exact ⟨_, busAccess_write hx hl v ht⟩

/-- A condition under which exactly an access is not served is the one under which it gets the bus error. -/
theorem busAccess_fault_iff_of_served_iff {a : BusAccess} {s : State} {cause : Prop}
    (h : (∃ t, busAccess a s = .next t) ↔ ¬cause) :
    ((∃ f, busAccess a s = .fault f) ↔ cause) ∧ (¬cause → ∃ t, busAccess a s = .next t) := by
  refine ⟨⟨?_, fun hc => (busAccess_fault_or_next a s).resolve_right fun ht => h.1 ht hc⟩, h.2⟩
  rintro ⟨f, hf⟩
  by_contra hc
  obtain ⟨t, ht⟩ := h.2 hc
  cases hf.symm.trans ht

/-- Settles O40: a step with an access next is that access, served exactly where none of the causes holds. -/
theorem busErrors : Obligations.BusErrors := by
  unfold Obligations.BusErrors
  refine ⟨fun s x n rest ha => ?_, fun s x n v rest ha => ?_⟩ <;> rw [step_of_access ha]
  · exact busAccess_fault_iff_of_served_iff (by simp only [busAccess_read_served_iff, not_or, not_not])
  · exact busAccess_fault_iff_of_served_iff (by simp only [busAccess_write_served_iff, not_or, not_not])

/-! ## Reads -/

/-- Settles O48: a served read is a read of a listed location, which has a frame. -/
theorem readsHaveNoSideEffect : Obligations.ReadsHaveNoSideEffect := by
  unfold Obligations.ReadsHaveNoSideEffect
  rintro s t x ⟨rest, ha⟩ h
  rw [step_of_access ha] at h
  rcases busAccess_next h with ⟨y, l, -, -, -, rfl⟩ | ⟨_, _, _, _, e, -⟩
  · exact readLocation_frame l (served s)
  · cases e

/-! ## Operands and results while busy -/

/-- A read that a location hides answers with a free value, freshly drawn (rule R66). -/
theorem step_of_hiddenRead {s : State} {x : Nat} {l : Location} (h : ReadsNext x s) (hx : x % 4 = 0)
    (hl : locate x = some l) (hr : readable l s = false) :
    step s = .next { s with
      arrivals := s.arrivals.tail, response := .data (Config.freeWord s.draws), draws := s.draws + 1 } := by
  obtain ⟨rest, ha⟩ := h
  rw [step_of_access ha, busAccess_read hx hl, readLocation_of_hidden (by rwa [readable_served])]
  rfl

/-- `BLEN`, `RESULT`, `BBUF` and the slots are hidden while busy (rule R66). -/
theorem locate_hidden {s : State} {x : Nat} (hb : s.busy = true)
    (h : x = 0x014 ∨ x = 0x018 ∨ (0x400 ≤ x ∧ x < 0x580) ∨ (0x2000 ≤ x ∧ x < 0x4000)) :
    ∃ l, locate x = some l ∧ readable l s = false := by
  have hr : (!s.busy) = false := by rw [hb, Bool.not_true]
  rcases h with rfl | rfl | hbbuf | hslot
  · exact ⟨.blen, rfl, hr⟩
  · exact ⟨.result, rfl, hr⟩
  · exact ⟨_, locate_bbuf hbbuf, hr⟩
  · exact ⟨_, locate_slots hslot, hr⟩

/-- The operand locations, whose writes rule R66 drops while busy. -/
theorem locate_operand {x : Nat} (v : Word) (s : State)
    (h : x = 0x010 ∨ x = 0x014 ∨ x = 0x020 ∨ x = 0x024 ∨ x = 0x028 ∨ (0x40 ≤ x ∧ x < 0x60) ∨
      (0x400 ≤ x ∧ x < 0x580) ∨ (0x2000 ≤ x ∧ x < 0x4000)) :
    ∃ l store, locate x = some l ∧ writeLocation l v s = some (writeOperand store s) := by
  rcases h with rfl | rfl | rfl | rfl | rfl | hseed | hbbuf | hslot
  · exact ⟨.arg, _, rfl, rfl⟩
  · exact ⟨.blen, _, rfl, rfl⟩
  · exact ⟨.faA, _, rfl, rfl⟩
  · exact ⟨.faB, _, rfl, rfl⟩
  · exact ⟨.faW, _, rfl, rfl⟩
  · exact ⟨_, _, locate_seed hseed, rfl⟩
  · exact ⟨_, _, locate_bbuf hbbuf, rfl⟩
  · exact ⟨_, _, locate_slots hslot, rfl⟩

/-- Settles O47: results and polynomial data are hidden, `SEED` is not, and every operand write raises `E_ACCESS`. -/
theorem busyAccesses : Obligations.BusyAccesses := by
  unfold Obligations.BusyAccesses
  intro s x hb hx
  refine ⟨fun hhidden h => ?_, fun hseed h => step_of_read h hx (locate_seed hseed) rfl, fun v hoperand h => ?_⟩
  · obtain ⟨l, hl, hr⟩ := locate_hidden hb hhidden
    exact step_of_hiddenRead h hx hl hr
  · obtain ⟨l, store, hl, hw⟩ := locate_operand v (served s) hoperand
    have hbusy : (served s).busy = true := hb
    rw [step_of_write h hx hl (hw.trans (congrArg some (writeOperand_of_busy hbusy)))]
    rfl

end Sys2Proof.Machine
end

section
/-! PROOFS. The four statements about the encoding: printed words, the round trip both ways, and why a word is rejected
(rules R80–R88). -/

namespace Sys2Proof

/-! ## Why a word is rejected -/

/-- A word that fails the field checks of its opcode's row is rejected for its fields (rules R82–R84). -/
theorem decode_of_illegalFields {v : Word} {r : Row} (hr : r ∈ opcodeMap) (ho : r.opc = opcOf v)
    (hl : r.fieldsLegal v = false) : decode v = .error .illegalField := by
  rw [decode_of_row hr ho, hl, if_neg Bool.false_ne_true]

/-- A word is rejected for its fields exactly where rule R87 does not list its opcode and no command has it: a command's
word decodes, and a listed opcode is the other reason. -/
theorem decode_eq_illegalField_iff (v : Word) :
    decode v = .error .illegalField ↔
      Machine.reservedOpcode (v.toNat % 256) = false ∧ ∀ i : Instr, i.wellFormed = true → encode i ≠ v := by
  refine ⟨fun h => ⟨?_, ?_⟩, fun ⟨ho, hv⟩ => decode_eq_illegalField ho hv⟩
  · rw [Bool.eq_false_iff]
    intro ho
    have hreserved := (decode_eq_reservedOpcode_iff_listed v).2 ho
    rw [h] at hreserved
    cases hreserved
  · rintro i hw rfl
    rw [decode_encode hw] at h
    cases h

/-! ## The obligations -/

/-- Settles O2: the word is packed from the fields of the command's row, and each field is read back. -/
theorem decodeOfEncode : Obligations.DecodeOfEncode := fun _ hw => decode_encode hw

/-- Settles O3: the row's checks make the command well formed, and with `RSV` 0 the word is packed from its fields. -/
theorem encodeOfDecode : Obligations.EncodeOfDecode := fun _ _ h => wellFormed_and_encode_of_decode h

/-- Settles O4: one reason after the other. -/
theorem rejectedWords : Obligations.RejectedWords := fun v =>
  ⟨decode_eq_reservedOpcode_iff_listed v, decode_eq_illegalField_iff v⟩

/-- Settles O1: fifteen words are those of their commands; of the six others two have a listed opcode, `PADD` has `RSV` 1,
`NTT` names a source, and `SCBD` and `CMPR` have an illegal `P`. -/
theorem printedCommandWordsDecode : Obligations.PrintedCommandWordsDecode := by
  unfold Obligations.PrintedCommandWordsDecode
  refine ⟨decode_encode (i := .nop) rfl, decode_encode (i := .fadd) rfl, decode_encode (i := .fmul) rfl,
    decode_encode (i := .padd 4 1 3) rfl, decode_encode (i := .ntt 1) rfl, decode_encode (i := .intt 2) rfl,
    decode_encode (i := .bmul 2 0 1) rfl, decode_encode (i := .suni 0) rfl, decode_encode (i := .scbd 1 2) rfl,
    decode_encode (i := .cmpr 5 4 1) rfl, decode_encode (i := .dcmp 1 0 1) rfl, decode_encode (i := .enc 2 1) rfl,
    decode_encode (i := .dec 0 1) rfl, decode_encode (i := .pcopy 5 2) rfl, decode_encode (i := .wipe) rfl,
    (decode_eq_reservedOpcode_iff_listed _).2 rfl, (decode_eq_reservedOpcode_iff_listed _).2 rfl, ?_, ?_, ?_, ?_⟩
  · exact decode_of_illegalFields (r := opcodeMap[7]) (List.getElem_mem _) rfl rfl
  · exact decode_of_illegalFields (r := opcodeMap[10]) (List.getElem_mem _) rfl rfl
  · exact decode_of_illegalFields (r := opcodeMap[15]) (List.getElem_mem _) rfl rfl
  · exact decode_of_illegalFields (r := opcodeMap[16]) (List.getElem_mem _) rfl rfl

end Sys2Proof
end

section
/-! PROOFS. Field arithmetic (rules R103–R112): how a scalar and a lane-by-lane command can end, said once over the
condition its operands are checked for, and the nine commands from it. -/

namespace Sys2Proof.Machine

/-- A well-formed command whose word is `v` is also what `v` decodes to (rules R80, R85). -/
theorem encodes_of_wellFormed {i : Instr} {v : Nat} (hw : i.wellFormed = true) (he : encode i = BitVec.ofNat 32 v) :
    Encodes i v :=
  ⟨he, he ▸ decode_encode hw⟩

/-! ## Scalar commands -/

/-- The end of a scalar command that is to leave `v` in `RESULT` where its operands meet `inRange` (rules R103–R108,
R201, R205). -/
def ScalarEnds (inRange : Prop) (v : Nat) (s t : State) : Prop :=
  Completed t ∧ SameControls s t ∧ SameMemory s t ∧ t.blen = s.blen ∧
    (inRange → t.result = BitVec.ofNat 32 v ∧ NoError s t ∧ t.draws = s.draws) ∧
    (¬inRange → t.result = Config.freeWord s.draws ∧ Raised .range s t ∧ s.draws < t.draws)

/-- Completion ends so when its flag says whether `inRange` holds. -/
theorem finishScalar_ends {ok : Bool} {inRange : Prop} (hok : ok = true ↔ inRange) (v : Nat) (s : State) :
    ScalarEnds inRange v s (finishScalar ok v s) := by
  obtain ⟨hcomplete, hcontrols, hmem, hblen, hin, hout⟩ := finishScalar_spec ok v s
  exact ⟨hcomplete, hcontrols, hmem, hblen, fun h => hin (hok.2 h),
    fun h => hout (Bool.eq_false_iff.2 (mt hok.1 h))⟩

/-- A scalar command on `FA_A` and `FA_B` that computes `v` from them (rules R103–R105). -/
theorem scalarCommand_ends {g : Nat → Nat → Nat} {s : State} {v : Nat}
    (hv : g (operands s).faA.toNat (operands s).faB.toNat = v) :
    ScalarEnds ((operands s).faA.toNat < 3329 ∧ (operands s).faB.toNat < 3329) v s (scalarCommand g s) := by
  subst hv
  refine finishScalar_ends ?_ _ s
  rw [Bool.and_eq_true, decide_eq_true_iff, decide_eq_true_iff]
  rfl

/-- A scalar command that checks nothing (rules R106, R107). -/
theorem finishScalar_true_spec (v : Nat) (s : State) :
    Completed (finishScalar true v s) ∧ SameControls s (finishScalar true v s) ∧
      SameMemory s (finishScalar true v s) ∧ (finishScalar true v s).blen = s.blen ∧
      (finishScalar true v s).draws = s.draws ∧ NoError s (finishScalar true v s) ∧
      (finishScalar true v s).result = BitVec.ofNat 32 v := by
  obtain ⟨hcomplete, hcontrols, hmem, hblen, hin, -⟩ := finishScalar_spec true v s
  obtain ⟨hresult, herror, hdraws⟩ := hin rfl
  exact ⟨hcomplete, hcontrols, hmem, hblen, hdraws, herror, hresult⟩

/-- `169` is the inverse of `2^16` modulo `Q` (rules R10, R108): `169 * 2^16 = 3327 * 3329 + 1`. -/
theorem mul_montgomeryFactor_cancel (x : Nat) : x * 169 % 3329 * 2 ^ 16 % 3329 = x % 3329 := by
  omega

/-- Settles O9: the sum is `addMod` of the two operands. -/
theorem faddAddsModQ : Obligations.FaddAddsModQ :=
  ⟨encodes_of_wellFormed rfl rfl, fun _ => ⟨_, rfl, scalarCommand_ends rfl⟩⟩

/-- Settles O10: `subMod` is the integer difference reduced to `[0, Q)`. -/
theorem fsubSubtractsModQ : Obligations.FsubSubtractsModQ :=
  ⟨encodes_of_wellFormed rfl rfl, fun _ => ⟨_, rfl, scalarCommand_ends (subMod_eq_intMod _ _)⟩⟩

/-- Settles O11: the product is `mulMod` of the two operands. -/
theorem fmulMultipliesModQ : Obligations.FmulMultipliesModQ :=
  ⟨encodes_of_wellFormed rfl rfl, fun _ => ⟨_, rfl, scalarCommand_ends rfl⟩⟩

/-- Settles O12: nothing is checked, so every value of `FA_A` is reduced. -/
theorem fredReducesHalfword : Obligations.FredReducesHalfword :=
  ⟨encodes_of_wellFormed rfl rfl, fun s => ⟨_, rfl, finishScalar_true_spec _ s⟩⟩

/-- Settles O13: nothing is checked, so every value of `FA_W` is reduced. -/
theorem fbredReducesWord : Obligations.FbredReducesWord :=
  ⟨encodes_of_wellFormed rfl rfl, fun s => ⟨_, rfl, finishScalar_true_spec _ s⟩⟩

/-- Settles O14: the residue fits in `RESULT`, and times `2^16` it is `FA_W` again. -/
theorem fmredMontgomeryReduces : Obligations.FmredMontgomeryReduces := by
  refine ⟨encodes_of_wellFormed rfl rfl, fun s => ⟨_, rfl, ?_⟩⟩
  obtain ⟨hcomplete, hcontrols, hmem, hblen, hin, hout⟩ :=
    finishScalar_ends (decide_eq_true_iff (p := (operands s).faW.toNat < montgomeryBound))
      (mulMod (operands s).faW.toNat montgomeryFactor) s
  refine ⟨hcomplete, hcontrols, hmem, hblen, fun h => ?_, hout⟩
  obtain ⟨hresult, herror, hdraws⟩ := hin h
  have hlt := mulMod_lt (operands s).faW.toNat montgomeryFactor
  have hfits : (BitVec.ofNat 32 (mulMod (operands s).faW.toNat montgomeryFactor)).toNat = _ :=
    (BitVec.toNat_ofNat _ _).trans (Nat.mod_eq_of_lt (hlt.trans (by decide)))
  refine ⟨hresult, ?_, ?_, herror, hdraws⟩
  · rw [hresult, hfits]
    exact hlt
  · rw [hresult, hfits]
    exact mul_montgomeryFactor_cancel _

/-! ## Lane-by-lane commands -/

/-- The end of a polynomial command that is to leave `v i` in lane `i` of slot `d` where its sources meet `inRange`
(rules R109, R201, R205). -/
def LanesEnd (inRange : Prop) (d : SlotNo) (v : Nat → Nat) (s t : State) : Prop :=
  Completed t ∧ SameControls s t ∧ SameOutside (slotBase d) 512 s t ∧ t.blen = s.blen ∧ t.result = 0#32 ∧
    (inRange → (∀ i, i < 256 → t.lane d i = v i) ∧ NoError s t ∧ t.draws = s.draws) ∧
    (¬inRange → (∀ i, i < 256 → t.mem.coeff d i = Config.freeCoeff s.draws i) ∧ Raised .range s t ∧
      s.draws < t.draws)

/-- Completion ends so when its flag says whether `inRange` holds and every `v i` fits in a lane. -/
theorem finishPoly_ends {ok : Bool} {inRange : Prop} (hok : ok = true ↔ inRange) {f : Poly} {v : Nat → Nat}
    (hf : ∀ i, i < 256 → f.at i = v i) (hv : ∀ i, v i < 65536) (d : SlotNo) (s : State) :
    LanesEnd inRange d v s (finishPoly ok d f s) := by
  obtain ⟨hcomplete, hcontrols, hmem, hblen, hresult, hin, hout⟩ := finishPoly_spec ok d f s
  refine ⟨hcomplete, hcontrols, hmem, hblen, hresult, fun h => ?_,
    fun h => hout (Bool.eq_false_iff.2 (mt hok.1 h))⟩
  obtain ⟨hcoeff, herror, hdraws⟩ := hin (hok.2 h)
  exact ⟨fun i hi => lane_of_coeff (hf i hi ▸ hcoeff i hi) (hv i), herror, hdraws⟩

/-- A lane-by-lane command on two slots that computes `v i` from their lanes `i` (rules R109–R111). -/
theorem laneCommand_ends {g : Nat → Nat → Nat} (hg : ∀ x y, g x y < 3329) {s : State} {a b : SlotNo}
    {v : Nat → Nat} (hv : ∀ i, g ((operands s).lane a i) ((operands s).lane b i) = v i) (d : SlotNo) :
    LanesEnd ((operands s).slotBelow a 3329 ∧ (operands s).slotBelow b 3329) d v s (laneCommand g d a b s) := by
  refine finishPoly_ends ?_ (fun i hi => ?_) (fun i => ?_) d s
  · rw [Bool.and_eq_true, canonical_poly, canonical_poly]
  · rw [zipLanes_at _ _ _ hi, Operands.poly_at _ _ hi, Operands.poly_at _ _ hi, hv]
  · exact hv i ▸ (hg _ _).trans (by decide)

/-- Settles O15: the sources are in range exactly when both are canonical, and a sum modulo `Q` fits in a lane. -/
theorem paddAddsLanes : Obligations.PaddAddsLanes :=
  ⟨fun _ _ _ => encodes_of_wellFormed rfl (by simp [encode, pack]),
    fun _ d _ _ => ⟨_, rfl, laneCommand_ends addMod_lt (fun _ => rfl) d⟩⟩

/-- Settles O16: `subMod` is the integer difference reduced to `[0, Q)`, lane by lane. -/
theorem psubSubtractsLanes : Obligations.PsubSubtractsLanes :=
  ⟨fun _ _ _ => encodes_of_wellFormed rfl (by simp [encode, pack]),
    fun _ d _ _ => ⟨_, rfl, laneCommand_ends subMod_lt (fun _ => subMod_eq_intMod _ _) d⟩⟩

/-- Settles O17: nothing is checked, and a residue modulo `Q` fits in a lane. -/
theorem predReducesLanes : Obligations.PredReducesLanes := by
  refine ⟨fun _ _ => encodes_of_wellFormed rfl (by simp [encode, pack]), fun s d a => ⟨_, rfl, ?_⟩⟩
  obtain ⟨hcomplete, hcontrols, hmem, hblen, hresult, hin, -⟩ :=
    finishPoly_ends (ok := true) (iff_of_true rfl trivial) (f := mapLanes (· % Config.Q) ((operands s).poly a))
      (v := fun i => (operands s).lane a i % 3329)
      (fun i hi => by rw [mapLanes_at _ _ hi, Operands.poly_at _ _ hi]; rfl)
      (fun i => (Nat.mod_lt _ (by decide)).trans (by decide)) d s
  obtain ⟨hlanes, herror, hdraws⟩ := hin trivial
  exact ⟨hcomplete, hcontrols, hmem, hblen, hresult, herror, hdraws, hlanes⟩

end Sys2Proof.Machine
end

section
/-! PROOFS. The two printed reduction sequences (rule R102): each comes to a number below `2 * Q` with the right residue,
which its last, conditional subtraction makes canonical. -/

namespace Sys2Proof.Machine

/-- One conditional subtraction reduces a number below `2 * Q`. -/
theorem subtract_once {r : Nat} (h : r < 2 * 3329) : (if Config.Q ≤ r then r - Config.Q else r) = r % 3329 := by
  unfold Config.Q
  split
  · omega
  · exact (Nat.mod_eq_of_lt (by omega)).symm

/-- The estimated quotient is the quotient or one less, as `1290167 * 3329 = 2^32 - 1353`. -/
theorem barrett_quotient {v : Nat} (h : v < 2 ^ 32) :
    (v * 1290167) >>> 32 ≤ v / 3329 ∧ v / 3329 ≤ (v * 1290167) >>> 32 + 1 := by
  rw [Nat.shiftRight_eq_div_pow]
  omega

theorem barrettReduce32_eq_mod {v : Nat} (h : v < 2 ^ 32) : barrettReduce32 v = v % 3329 := by
  obtain ⟨hle, hge⟩ := barrett_quotient h
  unfold barrettReduce32
  generalize (v * 1290167) >>> 32 = t at hle hge ⊢
  have hlt : v - t * 3329 < 2 * 3329 := by omega
  calc
    _ = (v - t * 3329) % 3329 := subtract_once hlt
    _ = v % 3329 := by omega

/-- The multiple of `Q` clears the low half of `v`, as `3327 * 3329 = 169 * 2^16 - 1`. -/
theorem montgomery_low_half_clears (v : Nat) : (v + v % 2 ^ 16 * 3327 % 2 ^ 16 * 3329) % 2 ^ 16 = 0 := by
  omega

theorem montgomeryReduce_eq_mod {v : Nat} (h : v < 3329 * 2 ^ 16) : montgomeryReduce v = v * 169 % 3329 := by
  have hclear := montgomery_low_half_clears v
  have ht : v % 2 ^ 16 * 3327 % 2 ^ 16 < 2 ^ 16 := Nat.mod_lt _ (by decide)
  simp only [montgomeryReduce, Nat.shiftRight_eq_div_pow]
  generalize v % 2 ^ 16 * 3327 % 2 ^ 16 = t at hclear ht ⊢
  obtain ⟨u, hu⟩ := Nat.dvd_of_mod_eq_zero hclear
  have hquotient : (v + t * Config.Q) / 2 ^ 16 = u := by
    unfold Config.Q
    omega
  simp only [hquotient]
  have hlt : u < 2 * 3329 := by omega
  calc
    _ = u % 3329 := subtract_once hlt
    _ = v * 169 % 3329 := by omega

/-- Settles O60: both sequences give what the two commands compute. -/
theorem reductionSequencesConform : Obligations.ReductionSequencesConform := by
  refine ⟨fun _ => barrettReduce32_eq_mod, fun _ => montgomeryReduce_eq_mod, fun s => ⟨?_, fun h => ?_⟩⟩
  · obtain ⟨t, ht, -, -, -, -, -, -, hresult⟩ := fbredReducesWord.2 s
    exact ⟨t, ht, by rw [hresult, barrettReduce32_eq_mod (operands s).faW.isLt]⟩
  · obtain ⟨t, ht, -, -, -, -, hin, -⟩ := fmredMontgomeryReduces.2 s
    obtain ⟨hresult, -⟩ := hin h
    exact ⟨t, ht, by rw [hresult, montgomeryReduce_eq_mod h]⟩

end Sys2Proof.Machine
end

section
/-! PROOFS. The NTT engine (rules R130–R135): the two transforms, said once over what they have in common; the commands
on canonical slots as equations of polynomials, whose algebra stands in `Laws/NttAlgebra.lean`; and the base
multiplication, pair by pair. -/

namespace Sys2Proof.Machine

/-- Settles O22: both tables are the powers rule R130 gives, entry by entry. -/
theorem romHoldsPowersOfSeventeen : Obligations.RomHoldsPowersOfSeventeen :=
  ⟨rom_eq_powers, rfl, by decide +kernel, by decide, by decide⟩

/-! ## Canonical polynomials and slots -/

/-- A polynomial a slot can hold whose lanes are all canonical (rules R17, R21). -/
def InRq (f : Poly) : Prop := f.length = 256 ∧ canonical f = true

theorem InRq.at_lt {f : Poly} (h : InRq f) {i : Nat} (hi : i < 256) : f.at i < 3329 :=
  at_lt_of_canonical h.2 (h.1 ▸ hi)

theorem inRq_lanes {g : Nat → Nat} (h : ∀ i, g i < 3329) : InRq (lanes g) :=
  ⟨lanes_length g, below_lanes.2 fun i _ => h i⟩

theorem inRq_poly {o : Operands} {p : SlotNo} (h : o.slotBelow p 3329) : InRq (o.poly p) :=
  ⟨o.poly_length p, canonical_poly.2 h⟩

/-- A canonical polynomial is stored as it is, and every other slot is left alone. -/
theorem Memory.poly_setPoly (m : Memory) (p q : SlotNo) {f : Poly} (hf : InRq f) :
    (m.setPoly p f).poly q = if q = p then f else m.poly q := by
  split
  case isTrue hqp =>
    refine Poly.ext_at ((Memory.poly_length _ _).trans hf.1.symm) fun i hi => ?_
    rw [Memory.poly_length] at hi
    have hlt := hf.at_lt hi
    rw [Memory.poly_at _ _ hi, Memory.coeff_setPoly _ _ _ _ hi, if_pos hqp, BitVec.toNat_ofNat,
      Nat.mod_eq_of_lt (by omega)]
  case isFalse hqp =>
    refine Poly.ext_at ((Memory.poly_length _ _).trans (Memory.poly_length _ _).symm) fun i hi => ?_
    rw [Memory.poly_length] at hi
    rw [Memory.poly_at _ _ hi, Memory.poly_at _ _ hi, Memory.coeff_setPoly _ _ _ _ hi, if_neg hqp]

section
variable {f : Poly} (hf : InRq f) (d : SlotNo) (s : State)
include hf

/-- What the next command finds in slot `q` after a polynomial command in range (rules R109, R205). -/
theorem poly_finishPoly (q : SlotNo) :
    (operands (finishPoly true d f s)).poly q = if q = d then f else s.mem.poly q :=
  Memory.poly_setPoly s.mem d q hf

theorem poly_finishPoly_same : (operands (finishPoly true d f s)).poly d = f :=
  (poly_finishPoly hf d s d).trans (if_pos rfl)

theorem poly_finishPoly_other {q : SlotNo} (hq : q ≠ d) : (operands (finishPoly true d f s)).poly q = s.mem.poly q :=
  (poly_finishPoly hf d s q).trans (if_neg hq)

theorem lane_finishPoly_inRq {i : Nat} (hi : i < 256) : (finishPoly true d f s).lane d i = f.at i := by
  rw [lane_finishPoly d f s hi, BitVec.toNat_ofNat, Nat.mod_eq_of_lt ((hf.at_lt hi).trans (by decide))]

end

/-! ## The two transforms -/

/-- Command `c` transforms its slot by `T`: it checks the slot, and canonical polynomials stay canonical. -/
structure Transforms (c : SlotNo → Instr) (T : Poly → Poly) : Prop where
  exec_eq : ∀ d s, exec (c d) s =
    .next (finishPoly (canonical ((operands s).poly d)) d (T ((operands s).poly d)) s)
  keeps : ∀ f, InRq f → InRq (T f)

theorem ntt_transforms : Transforms .ntt nttPoly :=
  ⟨fun _ _ => rfl, fun f hf => ⟨nttPoly_length hf.1, nttPoly_canonical f hf.2⟩⟩

theorem intt_transforms : Transforms .intt inttPoly :=
  ⟨fun _ _ => rfl, fun f hf => ⟨inttPoly_length hf.1, inttPoly_canonical f⟩⟩

/-- A transform of a canonical slot completes in range. -/
theorem Transforms.exec_of_inRq {c : SlotNo → Instr} {T : Poly → Poly} (hT : Transforms c T) {s : State} {d : SlotNo}
    {f : Poly} (hp : (operands s).poly d = f) (hf : InRq f) : exec (c d) s = .next (finishPoly true d (T f) s) := by
  rw [hT.exec_eq, hp, hf.2]

/-- The end of a transform that is to leave `L f` in slot `d` where that held a canonical `f` (rules R131, R132,
R201, R205). -/
def TransformEnds (L : Poly → Poly) (d : SlotNo) (s t : State) : Prop :=
  Completed t ∧ SameControls s t ∧ SameOutside (slotBase d) 512 s t ∧ t.blen = s.blen ∧ t.result = 0#32 ∧
    ((operands s).slotBelow d 3329 →
      (∀ i, i < 256 → t.lane d i = (L ((operands s).poly d)).at i) ∧ t.slotBelow d 3329 ∧ NoError s t ∧
        t.draws = s.draws) ∧
    (¬(operands s).slotBelow d 3329 →
      (∀ i, i < 256 → t.mem.coeff d i = Config.freeCoeff s.draws i) ∧ Raised .range s t ∧ s.draws < t.draws)

theorem Transforms.ends {c : SlotNo → Instr} {T L : Poly → Poly} (hT : Transforms c T)
    (hL : ∀ f : Poly, f.length = 256 → T f = L f) (d : SlotNo) (s : State) :
    ∃ t, exec (c d) s = .next t ∧ TransformEnds L d s t := by
  refine ⟨_, hT.exec_eq d s, ?_⟩
  obtain ⟨hcomplete, hcontrols, hmem, hblen, hresult, hin, hout⟩ :=
    finishPoly_spec (canonical ((operands s).poly d)) d (T ((operands s).poly d)) s
  refine ⟨hcomplete, hcontrols, hmem, hblen, hresult, fun h => ?_,
    fun h => hout (Bool.eq_false_iff.2 (mt canonical_poly.1 h))⟩
  have hTf := hT.keeps _ (inRq_poly h)
  obtain ⟨hcoeff, herror, hdraws⟩ := hin (canonical_poly.2 h)
  have hlane := fun i hi => lane_of_coeff (hcoeff i hi) ((hTf.at_lt hi).trans (by decide))
  refine ⟨fun i hi => ?_, fun i hi => ?_, herror, hdraws⟩
  · rw [hlane i hi, hL _ (Operands.poly_length _ _)]
  · exact (hlane i hi).trans_lt (hTf.at_lt hi)

/-- Settles O18: the meaning takes the butterflies of a block together, the loops of rule R131 one by one. -/
theorem nttComputesTheLoops : Obligations.NttComputesTheLoops :=
  ⟨fun _ => encodes_of_wellFormed rfl (by simp [encode, pack]),
    fun s d => ntt_transforms.ends (fun _ => nttPoly_eq_loop) d s⟩

/-- Settles O19: the same for the loops and the scaling of rule R132. -/
theorem inttComputesTheLoops : Obligations.InttComputesTheLoops :=
  ⟨fun _ => encodes_of_wellFormed rfl (by simp [encode, pack]),
    fun s d => intt_transforms.ends (fun _ => inttPoly_eq_loop) d s⟩

/-! ## The transforms undo each other, and list residues -/

/-- Two transforms one after the other, the second the inverse of the first on canonical polynomials. -/
theorem Transforms.round_trip {c c' : SlotNo → Instr} {T T' : Poly → Poly} (hT : Transforms c T)
    (hT' : Transforms c' T') (hinv : ∀ f, InRq f → T' (T f) = f) {s : State} {d : SlotNo}
    (h : (operands s).slotBelow d 3329) :
    ∃ t u : State, exec (c d) s = .next t ∧ exec (c' d) t = .next u ∧
      (∀ i, i < 256 → u.lane d i = (operands s).lane d i) ∧ u.error = s.error := by
  have hf := inRq_poly h
  have hTf := hT.keeps _ hf
  refine ⟨_, _, hT.exec_of_inRq rfl hf, hT'.exec_of_inRq (poly_finishPoly_same hTf d s) hTf, fun i hi => ?_, rfl⟩
  rw [lane_finishPoly_inRq (hT'.keeps _ hTf) _ _ hi, hinv _ hf, Operands.poly_at _ _ hi]

/-- Settles O23: each transform is the inverse of the other on canonical polynomials. -/
theorem transformsUndoEachOther : Obligations.TransformsUndoEachOther := fun _ _ h =>
  ⟨ntt_transforms.round_trip intt_transforms (fun _ hf => inttPoly_nttPoly hf.1 hf.2) h,
    intt_transforms.round_trip ntt_transforms (fun _ hf => nttPoly_inttPoly hf.1 hf.2) h⟩

/-- The statements sum over the list `0, …, n - 1`, the algebra over the finite set. -/
theorem sum_list_range {M : Type*} [AddCommMonoid M] (F : Nat → M) (n : Nat) :
    ((List.range n).map F).sum = ∑ j ∈ Finset.range n, F j := rfl

/-- A canonical number that is congruent to `n` is `n mod Q`. -/
theorem eq_mod_of_cast {x n : Nat} (hx : x < 3329) (h : (x : Zq) = n) : x = n % 3329 :=
  eq_of_cast hx (Nat.mod_lt _ (by decide)) (h.trans (ZMod.natCast_mod n 3329).symm)

/-- Lane `m` of pair `i` of a transform: the lanes of parity `m` evaluated at `GAMMA[i]` (rule R135). -/
theorem nttPoly_at_eq_sum {f : Poly} (hf : InRq f) {i m : Nat} (hi : i < 128) (hm : m < 2) :
    (nttPoly f).at (2 * i + m) =
      ((List.range 128).map fun j => f.at (2 * j + m) * gamma i ^ j).sum % 3329 := by
  refine eq_mod_of_cast ((ntt_transforms.keeps f hf).at_lt (by omega)) ?_
  rw [nttPoly_pair hf.1 hi hm, sum_list_range]
  push_cast
  rfl

/-- Settles O24: the even and the odd lanes are the two parities of `nttPoly_at_eq_sum`. -/
theorem nttListsResidues : Obligations.NttListsResidues := by
  intro s d h
  have hf := inRq_poly h
  have hpair : ∀ i m, i < 128 → m < 2 →
      (finishPoly true d (nttPoly ((operands s).poly d)) s).lane d (2 * i + m) =
        ((List.range 128).map fun j => (operands s).lane d (2 * j + m) * gamma i ^ j).sum % 3329 := by
    intro i m hi hm
    rw [lane_finishPoly_inRq (ntt_transforms.keeps _ hf) _ _ (by omega), nttPoly_at_eq_sum hf hi hm]
    congr 2
    refine List.map_congr_left fun j hj => ?_
    rw [List.mem_range] at hj
    rw [Operands.poly_at _ _ (by omega)]
  exact ⟨_, ntt_transforms.exec_of_inRq rfl hf, fun i hi => ⟨hpair i 0 hi (by decide), hpair i 1 hi (by decide)⟩⟩

/-! ## Base multiplication -/

theorem baseMul_lt (x y : Poly) (i : Nat) : baseMul x y i < 3329 := by
  unfold baseMul
  split <;> exact Nat.mod_lt _ (by decide)

section
variable (o : Operands) (a b : SlotNo) {i : Nat} (hi : i < 128)
include hi

/-- The even lane of a product of two slots (rule R133). -/
theorem baseMul_poly_even : baseMul (o.poly a) (o.poly b) (2 * i) =
    (o.lane a (2 * i) * o.lane b (2 * i) + o.lane a (2 * i + 1) * o.lane b (2 * i + 1) * gamma i) % 3329 := by
  unfold baseMul
  simp only [Nat.mul_div_cancel_left i Nat.two_pos, Nat.mul_mod_right, if_true]
  rw [Operands.poly_at _ _ (by omega), Operands.poly_at _ _ (by omega), Operands.poly_at _ _ (by omega),
    Operands.poly_at _ _ (by omega)]
  rfl

/-- The odd lane of a product of two slots (rule R133). -/
theorem baseMul_poly_odd : baseMul (o.poly a) (o.poly b) (2 * i + 1) =
    (o.lane a (2 * i) * o.lane b (2 * i + 1) + o.lane a (2 * i + 1) * o.lane b (2 * i)) % 3329 := by
  unfold baseMul
  simp only [show (2 * i + 1) / 2 = i by omega, show ¬(2 * i + 1) % 2 = 0 by omega, if_false]
  rw [Operands.poly_at _ _ (by omega), Operands.poly_at _ _ (by omega), Operands.poly_at _ _ (by omega),
    Operands.poly_at _ _ (by omega)]
  rfl

end

/-- The end of a command that is to leave `even i` and `odd i` in pair `i` of slot `d` where its sources meet `inRange`
(rules R133, R134, R201, R205). -/
def PairsEnd (inRange : Prop) (d : SlotNo) (even odd : Nat → Nat) (s t : State) : Prop :=
  Completed t ∧ SameControls s t ∧ SameOutside (slotBase d) 512 s t ∧ t.blen = s.blen ∧ t.result = 0#32 ∧
    (inRange → (∀ i, i < 128 → t.lane d (2 * i) = even i ∧ t.lane d (2 * i + 1) = odd i) ∧ NoError s t ∧
      t.draws = s.draws) ∧
    (¬inRange → (∀ i, i < 256 → t.mem.coeff d i = Config.freeCoeff s.draws i) ∧ Raised .range s t ∧
      s.draws < t.draws)

/-- A command that leaves lanes `v` leaves their pairs. -/
theorem LanesEnd.pairs {inRange : Prop} {d : SlotNo} {v even odd : Nat → Nat} {s t : State}
    (h : LanesEnd inRange d v s t) (hv : ∀ i, i < 128 → v (2 * i) = even i ∧ v (2 * i + 1) = odd i) :
    PairsEnd inRange d even odd s t := by
  obtain ⟨hcomplete, hcontrols, hmem, hblen, hresult, hin, hout⟩ := h
  refine ⟨hcomplete, hcontrols, hmem, hblen, hresult, fun hr => ?_, hout⟩
  obtain ⟨hlanes, herror, hdraws⟩ := hin hr
  refine ⟨fun i hi => ?_, herror, hdraws⟩
  rw [hlanes _ (by omega), hlanes _ (by omega)]
  exact hv i hi

/-- Settles O20: the two lanes of a pair are the two cases of `baseMul`. -/
theorem bmulMultipliesPairs : Obligations.BmulMultipliesPairs := by
  refine ⟨fun _ _ _ => encodes_of_wellFormed rfl (by simp [encode, pack]), fun s d a b => ⟨_, rfl, ?_⟩⟩
  have hok : (canonical ((operands s).poly a) && canonical ((operands s).poly b)) = true ↔
      (operands s).slotBelow a 3329 ∧ (operands s).slotBelow b 3329 := by
    rw [Bool.and_eq_true, canonical_poly, canonical_poly]
  have hends := finishPoly_ends hok (fun _ => lanes_at (baseMul ((operands s).poly a) ((operands s).poly b)))
    (fun i => (baseMul_lt _ _ i).trans (by decide)) d s
  exact hends.pairs fun i hi => ⟨baseMul_poly_even _ a b hi, baseMul_poly_odd _ a b hi⟩

/-- Settles O21: the old lane is added to the product, which is reduced before and after. -/
theorem bmacAccumulatesPairs : Obligations.BmacAccumulatesPairs := by
  refine ⟨fun _ _ _ => encodes_of_wellFormed rfl (by simp [encode, pack]), fun s d a b => ⟨_, rfl, ?_⟩⟩
  have hok : (canonical ((operands s).poly a) && canonical ((operands s).poly b) &&
      canonical ((operands s).poly d)) = true ↔
      (operands s).slotBelow a 3329 ∧ (operands s).slotBelow b 3329 ∧ (operands s).slotBelow d 3329 := by
    rw [Bool.and_eq_true, Bool.and_eq_true, canonical_poly, canonical_poly, canonical_poly, and_assoc]
  have hends := finishPoly_ends hok
    (fun _ => lanes_at fun i =>
      addMod (((operands s).poly d).at i) (baseMul ((operands s).poly a) ((operands s).poly b) i))
    (fun i => (addMod_lt _ _).trans (by decide)) d s
  refine hends.pairs fun i hi => ⟨?_, ?_⟩
  · rw [Operands.poly_at _ _ (by omega), baseMul_poly_even _ a b hi]
    exact Nat.add_mod_mod _ _ _
  · rw [Operands.poly_at _ _ (by omega), baseMul_poly_odd _ a b hi]
    exact Nat.add_mod_mod _ _ _

/-! ## The product through the NTT domain -/

theorem exec_bmul_of_inRq {s : State} {a b : SlotNo} {x y : Poly} (ha : (operands s).poly a = x)
    (hb : (operands s).poly b = y) (hx : InRq x) (hy : InRq y) (d : SlotNo) :
    exec (.bmul d a b) s = .next (finishPoly true d (lanes (baseMul x y)) s) := by
  subst ha hb
  exact congrArg (fun ok => Host.Outcome.next (finishPoly ok d _ s)) (Bool.and_eq_true_iff.2 ⟨hx.2, hy.2⟩)

/-- Coefficient `k` of the product of `f` and `g` in `Zq[X]/(X^256 + 1)`, canonical (rule R135). -/
def productLane (f g : Nat → Nat) (k : Nat) : Nat :=
  intMod (((List.range 256).map fun i =>
    (f i : Int) * (if i ≤ k then (g (k - i) : Int) else -(g (256 + k - i) : Int))).sum)

theorem productLane_lt (f g : Nat → Nat) (k : Nat) : productLane f g k < 3329 := by
  unfold productLane intMod Config.Q
  omega

theorem cast_productLane (f g : Nat → Nat) (k : Nat) :
    (productLane f g k : Zq) = negacyclic (fun i => f i) (fun i => g i) k := by
  rw [productLane, cast_intMod, sum_list_range, negacyclic]
  push_cast
  rfl

/-- Where two slots, or one twice, hold the transforms of `f` and `g`, `BMUL` and `INTT` leave their product. -/
theorem multiply_transformed {s : State} {a b : SlotNo} {f g : Poly} (hf : InRq f) (hg : InRq g)
    (ha : (operands s).poly a = nttPoly f) (hb : (operands s).poly b = nttPoly g) (d : SlotNo) :
    ∃ t u : State, exec (.bmul d a b) s = .next t ∧ exec (.intt d) t = .next u ∧
      ∀ k, k < 256 → u.lane d k = productLane f.at g.at k := by
  have hmul : InRq (lanes (baseMul (nttPoly f) (nttPoly g))) := inRq_lanes (baseMul_lt _ _)
  have hproduct : InRq (lanes (productLane f.at g.at)) := inRq_lanes (productLane_lt _ _)
  refine ⟨_, _, exec_bmul_of_inRq ha hb (ntt_transforms.keeps f hf) (ntt_transforms.keeps g hg) d,
    intt_transforms.exec_of_inRq (poly_finishPoly_same hmul d s) hmul, fun k hk => ?_⟩
  rw [lane_finishPoly_inRq (intt_transforms.keeps _ hmul) _ _ hk,
    inttPoly_baseMul hf.1 hg.1 hproduct.1 hproduct.2
      (fun j hj => by rw [lanes_at _ hj, cast_productLane]),
    lanes_at _ hk]

/-- The product of two slots is that of their polynomials: it reads only the 256 lanes of each. -/
theorem productLane_poly (o : Operands) (a b : SlotNo) {k : Nat} (hk : k < 256) :
    productLane (o.poly a).at (o.poly b).at k = productLane (o.lane a) (o.lane b) k := by
  unfold productLane
  congr 2
  refine List.map_congr_left fun i hi => ?_
  rw [List.mem_range] at hi
  rw [Operands.poly_at _ _ hi]
  split <;> rw [Operands.poly_at _ _ (by omega)]

/-- Settles O25: the transforms leave the other slot alone, and the pairwise product of two transforms is the transform
of the product. -/
theorem productThroughTheNttDomain : Obligations.ProductThroughTheNttDomain := by
  refine ⟨fun s a b d hidle hab ha hb => ?_, fun s a d hidle ha => ?_⟩
  all_goals
    have hlive : operands s = capture s := operands_of_idle hidle
    have hf : InRq ((capture s).poly a) := inRq_poly ha
    have hNf := ntt_transforms.keeps _ hf
    have hntt := ntt_transforms.exec_of_inRq (congrArg (Operands.poly · a) hlive) hf
  · have hg : InRq ((capture s).poly b) := inRq_poly hb
    have hNg := ntt_transforms.keeps _ hg
    have hntt' := ntt_transforms.exec_of_inRq (poly_finishPoly_other hNf a s hab.symm) hg
    obtain ⟨t, u, hbmul, hintt, hu⟩ := multiply_transformed hf hg
      ((poly_finishPoly_other hNg b _ hab).trans (poly_finishPoly_same hNf a s)) (poly_finishPoly_same hNg b _) d
    exact ⟨_, _, t, u, hntt, hntt', hbmul, hintt, fun k hk => (hu k hk).trans (productLane_poly (capture s) a b hk)⟩
  · have hsame := poly_finishPoly_same hNf a s
    obtain ⟨t, u, hbmul, hintt, hu⟩ := multiply_transformed hf hf hsame hsame d
    exact ⟨_, t, u, hntt, hbmul, hintt, fun k hk => (hu k hk).trans (productLane_poly (capture s) a a hk)⟩

end Sys2Proof.Machine
end

section
/-! PROOFS. The sampler (rules R152–R157, R206, R246): how the rejection loop ends and what `SUNI` makes of each end; the
binomial differences of `SCBD`, and the parameters that are no command. -/

namespace Sys2Proof.Machine

/-! ## The rejection loop -/

theorem lt_of_mem_acceptable {x : Nat → Byte} {n c : Nat} (h : c ∈ acceptable x n) : c < 3329 :=
  of_decide_eq_true (List.mem_filter.1 h).2

theorem acceptable_getD_lt (x : Nat → Byte) (n i : Nat) : (acceptable x n).getD i 0 < 3329 := by
  by_cases hi : i < (acceptable x n).length
  · rw [List.getD_eq_getElem _ _ hi]
    exact lt_of_mem_acceptable (List.getElem_mem hi)
  · rw [List.getD_eq_default _ _ (not_lt.1 hi)]
    decide

/-- A loop that ends by acceptance has 256 values below `Q`, at most two from each of the groups it has read, and none of
these past the budget (rules R152, R154). -/
theorem counts_of_rejectionLoop_eq_accepted {x : Nat → Byte} {lim n : Nat} {smp : Sampling}
    (h : rejectionLoop x lim n .start = .accepted smp) :
    smp.accepted.length = 256 ∧ (∀ c ∈ smp.accepted, c < 3329) ∧ smp.pos % 3 = 0 ∧ 384 ≤ smp.pos ∧
      (lim = 0 ∨ smp.pos ≤ lim) := by
  have hsound := rejectionLoop_sound x lim n Sampling.start_sound (.inr (.inr (by decide)))
  rw [h] at hsound
  obtain ⟨⟨hvalues, -, hgroups, htwo⟩, hlength, hlim⟩ := hsound
  exact ⟨hlength, hvalues, hgroups, by omega, hlim⟩

/-- What a loop that has read nothing can do in `n` rounds: accept, meet the budget, or neither (rules R152, R154). -/
theorem rejectionLoop_start_cases (x : Nat → Byte) (lim n : Nat) :
    (∃ m smp, 256 ≤ (acceptable x m).length ∧ rejectionLoop x lim n .start = .accepted smp) ∨
      (lim ≠ 0 ∧ rejectionLoop x lim n .start = .limit) ∨
      ((lim = 0 ∨ 3 * n ≤ lim ∨ n = 0) ∧ (acceptable x n).length < 256 ∧
        ∃ smp, rejectionLoop x lim n .start = .unfinished smp) := by
  have hnone : (acceptable x 0).length < 256 := Nat.zero_lt_succ _
  rcases rejectionLoop_acceptable x lim n 0 hnone with
    ⟨m, -, -, -, -, henough, h⟩ | ⟨m, -, -, hbudget, -, -, -, h⟩ | ⟨hlim, hfew, h⟩
  · exact .inl ⟨m, _, henough, h⟩
  · exact .inr (.inl ⟨hbudget, h⟩)
  · rw [Nat.zero_add] at hlim hfew
    exact .inr (.inr ⟨hlim, hfew, _, h⟩)

/-- A budget of fewer bytes than `n` groups ends the loop within `n` rounds (rules R154, R246). -/
theorem rejectionLoop_ends_of_budget (x : Nat → Byte) {lim n : Nat} (hlim : 0 < lim) (hn : lim / 3 < n) :
    rejectionLoop x lim n .start = .limit ∨ ∃ smp, rejectionLoop x lim n .start = .accepted smp := by
  rcases rejectionLoop_start_cases x lim n with ⟨_, smp, -, h⟩ | ⟨-, h⟩ | ⟨hunmet, -⟩
  · exact .inr ⟨smp, h⟩
  · exact .inl h
  · omega

/-- Without a budget the loop ends by acceptance on exactly the streams that hold 256 candidates below `Q` (rule R246). -/
theorem exists_acceptable_iff_rejectionLoop_accepts (x : Nat → Byte) :
    (∃ n, 256 ≤ (acceptable x n).length) ↔ ∃ n smp, rejectionLoop x 0 n .start = .accepted smp := by
  constructor
  · rintro ⟨n, hn⟩
    rcases rejectionLoop_start_cases x 0 n with ⟨_, smp, -, h⟩ | ⟨hbudget, -⟩ | ⟨-, hfew, -⟩
    · exact ⟨n, smp, h⟩
    · exact absurd rfl hbudget
    · exact absurd hn (not_le.2 hfew)
  · rintro ⟨n, smp, haccepted⟩
    rcases rejectionLoop_start_cases x 0 n with ⟨m, _, henough, -⟩ | ⟨hbudget, -⟩ | ⟨-, -, _, h⟩
    · exact ⟨m, henough⟩
    · exact absurd rfl hbudget
    · cases haccepted.symm.trans h

/-- Settles O27: the counts hold of every sampling the loop reaches, and its rounds run along the acceptable candidates. -/
theorem rejectionLoopCountsAndEnds : Obligations.RejectionLoopCountsAndEnds :=
  ⟨fun _ _ _ _ h => counts_of_rejectionLoop_eq_accepted h, fun x _ _ hlim hn => rejectionLoop_ends_of_budget x hlim hn,
    fun _ => exists_acceptable_iff_rejectionLoop_accepts _⟩

/-! ## `SUNI` -/

/-- Whatever way its loop ends, `SUNI` writes to its destination and to `RESULT` alone (rules R109, R206). -/
theorem suniEnd_frame (d : SlotNo) (e : LoopEnd) (s : State) :
    SameControls s (suniEnd d e s) ∧ SameOutside (slotBase d) 512 s (suniEnd d e s) ∧
      (suniEnd d e s).blen = s.blen := by
  cases e with
  | accepted smp | limit =>
    exact ⟨⟨rfl, rfl, rfl, rfl, rfl, rfl, rfl, rfl, rfl⟩, fun y hy => Memory.read_setPoly_of_outside hy, rfl⟩
  | unfinished smp => exact ⟨⟨rfl, rfl, rfl, rfl, rfl, rfl, rfl, rfl, rfl⟩, fun y _ => rfl, rfl⟩

/-- The slot of an accepted sampling holds the first 256 candidates below `Q`, each of which fits in a lane (rule R152). -/
theorem lane_suniAccepted_acceptable (d : SlotNo) (x : Nat → Byte) (n : Nat) (s : State) {i : Nat} (hi : i < 256) :
    (suniAccepted d ⟨3 * n, (acceptable x n).take 256⟩ s).lane d i = (acceptable x n).getD i 0 := by
  have hat : Poly.at ((acceptable x n).take 256) i = (acceptable x n).getD i 0 := by
    rw [Poly.at, List.getD_eq_getElem?_getD, List.getElem?_take_of_lt hi, List.getD_eq_getElem?_getD]
  have hlt := acceptable_getD_lt x n i
  rw [lane_suniAccepted _ _ _ hi, hat, BitVec.toNat_ofNat, Nat.mod_eq_of_lt (by omega)]

theorem coeff_suniLimit (d : SlotNo) (s : State) {i : Nat} (hi : i < 256) :
    (suniLimit d s).mem.coeff d i = Config.freeCoeff s.draws i := by
  have hmem : (suniLimit d s).mem = s.mem.setPoly d (lanes fun i => (Config.freeCoeff s.draws i).toNat) := rfl
  rw [hmem, Memory.coeff_setPoly _ _ _ _ hi, if_pos rfl, lanes_at _ hi, BitVec.ofNat_toNat, BitVec.setWidth_eq]

/-- From a point where `k` groups have been read without 256 acceptable candidates, the loop of one step runs on from
group `k` (rules R152, R246). -/
theorem suniLoop_of_sampling {s : State} {k : Nat}
    (hs : samplingOf s = ⟨3 * k, acceptable (Config.xof (suniInput (operands s))) k⟩)
    (hk : (acceptable (Config.xof (suniInput (operands s))) k).length < 256) :
    suniLoop s = rejectionLoop (Config.xof (suniInput (operands s))) Config.xofLimitBytes Config.suniGroupsPerStep
      ⟨3 * k, (acceptable (Config.xof (suniInput (operands s))) k).take 256⟩ := by
  rw [suniLoop, hs, List.take_of_length_le hk.le]

/-- Settles O26: the three ends of the loop are those of the command. -/
theorem suniSamplesByRejection : Obligations.SuniSamplesByRejection := by
  refine ⟨fun _ => encodes_of_wellFormed rfl (by simp [encode, pack]), ?_⟩
  intro s d k o x lim last hs hk
  obtain ⟨hcontrols, hmem, hblen⟩ := suniEnd_frame d (suniLoop s) s
  refine ⟨suniEnd d (suniLoop s) s, rfl, hcontrols, hmem, hblen, ?_⟩
  have hloop : suniLoop s = rejectionLoop x lim Config.suniGroupsPerStep ⟨3 * k, (acceptable x k).take 256⟩ :=
    suniLoop_of_sampling hs hk
  rcases rejectionLoop_acceptable x lim Config.suniGroupsPerStep k hk with
    ⟨n, hkn, hlast, hlim, hbefore, henough, h⟩ | ⟨n, hkn, hlast, hbudget, hnext, hlim, hfew, h⟩ | ⟨hlim, hfew, h⟩
  · rw [hloop.trans h]
    exact .inl ⟨n, hkn, hlast, hlim, hbefore, henough, ⟨rfl, rfl⟩, rfl,
      fun i hi => lane_suniAccepted_acceptable d x n s hi, byteCount_of_lt⟩
  · rw [hloop.trans h]
    exact .inr (.inl ⟨n, hkn, hlast, hbudget, hnext, hlim, hfew, ⟨rfl, rfl⟩, raised_of_firstError rfl,
      fun i hi => coeff_suniLimit d s hi, rfl⟩)
  · rw [hloop.trans h, List.take_of_length_le hfew.le]
    exact .inr (.inr ⟨hlim.imp_right fun h => h.resolve_right (by decide), hfew, rfl⟩)

/-! ## Parameters that are no command -/

/-- A word rejected for its fields is rejected with `E_PARAM` when it is issued (rules R82–R84, R204). -/
theorem rejectedWithParam_of_decode {v : Nat} (h : decode (BitVec.ofNat 32 v) = .error .illegalField) :
    RejectedWithParam v :=
  ⟨h, fun _ hw hb => ⟨_, step_of_issue hw hb (issue_of_error h _), hb, rfl, raised_of_firstError rfl, fun _ => rfl, rfl,
    rfl⟩⟩

theorem opc_lt_of_mem : ∀ r ∈ opcodeMap, r.opc < 256 := by decide

/-- A word packed with a parameter its row does not list is rejected with `E_PARAM` (rules R82, R204). -/
theorem rejectedWithParam_of_pack {r : Row} (hr : r ∈ opcodeMap) (d a b : SlotNo) {p v : Nat} (hp : p < 16)
    (hlegal : r.legalP.contains p = false) (hv : pack r.opc d.val a.val b.val p = BitVec.ofNat 32 v) :
    RejectedWithParam v := by
  have hopc := opc_lt_of_mem r hr
  refine rejectedWithParam_of_decode (decode_of_illegal_parameter hr ?_ ?_)
  · rw [← hv, opcOf_pack hopc d.isLt a.isLt b.isLt hp]
  · rw [← hv, pOf_pack hopc d.isLt a.isLt b.isLt hp, hlegal]

/-! ## `SCBD` -/

/-- A sum of `n` bits is at most `n` (rule R156). -/
theorem weight_le (x : Nat → Byte) (k n : Nat) : weight x k n ≤ n := by
  have hbits : ∀ v ∈ (List.range n).map fun t => streamBit x (k + t), v ≤ 1 := by
    intro v hv
    obtain ⟨t, -, rfl⟩ := List.mem_map.1 hv
    exact Nat.lt_succ_iff.1 (Nat.mod_lt _ (by decide))
  simpa [weight] using List.sum_le_card_nsmul _ 1 hbits

/-- A difference of two numbers up to `n` lies in `[-n, n]`, modulo `Q` (rule R156). -/
theorem subMod_near_zero {x y n : Nat} (hx : x ≤ n) (hy : y ≤ n) (hn : n < 3329) :
    subMod x y ≤ n ∨ 3329 - n ≤ subMod x y ∧ subMod x y ≤ 3328 := by
  unfold subMod Config.Q
  omega

theorem cbdCoeff_near_zero (x : Nat → Byte) {eta : Nat} (h : eta < 3329) (i : Nat) :
    cbdCoeff x eta i ≤ eta ∨ 3329 - eta ≤ cbdCoeff x eta i ∧ cbdCoeff x eta i ≤ 3328 :=
  subMod_near_zero (weight_le x _ eta) (weight_le x _ eta) h

/-- Settles O28: nothing is checked, each lane is the difference of two weights, and `SCBD` lists no other parameter. -/
theorem scbdSamplesBinomially : Obligations.ScbdSamplesBinomially := by
  refine ⟨fun d p hp => ⟨fun h => ?_, fun h => ?_⟩, fun s d eta heta => ⟨_, rfl, ?_⟩⟩
  · have hw : legalEta p = true := by rcases h with rfl | rfl <;> rfl
    exact encodes_of_wellFormed hw (by simp [encode, pack])
  · have hlegal : [2, 3].contains p = false := by simpa using h
    exact rejectedWithParam_of_pack (r := opcodeMap[15]) (List.getElem_mem _) d 0 0 hp hlegal (by simp [pack, opcodeMap])
  · obtain ⟨hcomplete, hcontrols, hmem, hblen, hresult, hin, -⟩ :=
      finishPoly_ends (ok := true) (iff_of_true rfl trivial)
        (v := cbdCoeff (Config.prf (scbdInput (operands s)) (64 * eta)) eta) (fun _ hi => lanes_at _ hi)
        (fun _ => (subMod_lt _ _).trans (by decide)) d s
    obtain ⟨hlanes, herror, hdraws⟩ := hin trivial
    refine ⟨hcomplete, hcontrols, hmem, hblen, hresult, herror, hdraws, fun i hi => ⟨?_, ?_⟩⟩
    · exact (hlanes i hi).trans (subMod_eq_intMod _ _)
    · rw [hlanes i hi]
      exact cbdCoeff_near_zero _ (by omega) i

end Sys2Proof.Machine
end

section
/-! PROOFS. Compression and decompression (rules R170, R171, R173): both are quotients rounded to the nearest number, so the
two together move a value by no more than a rounded half step of the coarser grid. -/

namespace Sys2Proof.Machine

/-! ## Rounded quotients -/

/-- `round(a / b)`, halves up (rule R13). -/
def roundDiv (a b : Nat) : Nat := (2 * a + b) / (2 * b)

theorem roundDiv_bounds (a : Nat) {b : Nat} (hb : 0 < b) :
    2 * b * roundDiv a b ≤ 2 * a + b ∧ 2 * a + b < 2 * b * (roundDiv a b + 1) :=
  ⟨Nat.mul_div_le _ _, Nat.lt_mul_div_succ _ (by omega)⟩

theorem floor_eq_roundDiv (a : Nat) {b : Nat} (hb : 0 < b) : ⌊(a : ℚ) / b + 1 / 2⌋ = (roundDiv a b : Int) := by
  have hb' : (b : ℚ) ≠ 0 := Nat.cast_ne_zero.2 hb.ne'
  have hquotient : (a : ℚ) / b + 1 / 2 = ((2 * a + b : Nat) : ℚ) / ((2 * b : Nat) : ℚ) := by
    push_cast
    field_simp
  rw [hquotient, Rat.floor_natCast_div_natCast, roundDiv, Int.natCast_ediv]

/-- A tie, as an equation of integers. -/
theorem div_eq_add_half_iff (a : Nat) {b : Nat} (hb : 0 < b) (k : Int) :
    (a : ℚ) / b = k + 1 / 2 ↔ 2 * (a : Int) = (2 * k + 1) * b := by
  rw [div_eq_iff (Nat.cast_ne_zero.2 hb.ne'), ← @Int.cast_inj ℚ]
  push_cast
  constructor <;> intro h <;> linarith

/-- Rounding to a grid of step `q / p` and back moves a number by at most half a step, rounded (rule R173). -/
theorem roundDiv_roundDiv_near {p q : Nat} (hp : 0 < p) (hq : 0 < q) (x : Nat) :
    x ≤ roundDiv (q * roundDiv (p * x) q) p + roundDiv q (2 * p) ∧
      roundDiv (q * roundDiv (p * x) q) p ≤ x + roundDiv q (2 * p) := by
  obtain ⟨hylo, hyhi⟩ := roundDiv_bounds (p * x) hq
  obtain ⟨hzlo, hzhi⟩ := roundDiv_bounds (q * roundDiv (p * x) q) hp
  have hhalf : ∀ u v, 2 * (p * u) ≤ 2 * (p * v) + q + p → u ≤ v + roundDiv q (2 * p) := fun u v h => by
    obtain ⟨-, hstep⟩ := roundDiv_bounds q (b := 2 * p) (by omega)
    by_contra hlt
    have := Nat.mul_le_mul_left p (show v + roundDiv q (2 * p) + 1 ≤ u by omega)
    linarith
  exact ⟨hhalf _ _ (by linarith), hhalf _ _ (by linarith)⟩

/-! ## The closed forms -/

theorem compress_eq_div (w x : Nat) : compress w x = (x * 2 ^ (w + 1) + 3329) / 6658 % 2 ^ w := by
  rw [compress, Nat.shiftLeft_eq, Config.Q]

theorem decompress_eq_div (w y : Nat) : decompress w y = (3329 * y + 2 ^ (w - 1)) / 2 ^ w := by
  rw [decompress, Nat.shiftRight_eq_div_pow, Config.Q]

theorem compress_eq_roundDiv (w x : Nat) : compress w x = roundDiv (2 ^ w * x) 3329 % 2 ^ w := by
  rw [compress_eq_div, roundDiv, show x * 2 ^ (w + 1) = 2 * (2 ^ w * x) by ring]

theorem decompress_eq_roundDiv {w : Nat} (hw : 1 ≤ w) (y : Nat) : decompress w y = roundDiv (3329 * y) (2 ^ w) := by
  obtain ⟨n, rfl⟩ := Nat.exists_eq_add_of_le' hw
  rw [decompress_eq_div, roundDiv, Nat.add_sub_cancel, show 2 * (3329 * y) + 2 ^ (n + 1) = 2 * (3329 * y + 2 ^ n) by ring,
    Nat.mul_div_mul_left _ _ two_pos]

theorem compress_lt (w x : Nat) : compress w x < 2 ^ w := Nat.mod_lt _ (by positivity)

/-- What decompression gives is canonical (rule R171). -/
theorem decompress_lt {w y : Nat} (hw : w ≤ 11) (hy : y < 2 ^ w) : decompress w y < 3329 := by
  have hhalf : 2 ^ (w - 1) < 3329 := (Nat.pow_le_pow_right two_pos (by omega : w - 1 ≤ 10)).trans_lt (by decide)
  rw [decompress_eq_div, Nat.div_lt_iff_lt_mul (by positivity)]
  omega

/-- `2 ^ w * x / Q` is never a half: `Q` is odd (rule R170). -/
theorem compress_no_tie {w x : Nat} (k : Int) : (2 ^ w * x : ℚ) / 3329 ≠ k + 1 / 2 := by
  have h := div_eq_add_half_iff (2 ^ w * x) (b := 3329) (by decide) k
  push_cast at h
  rw [Ne, h]
  omega

/-- `Q * y / 2 ^ w` is a half exactly in the middle of the range: `Q` is odd (rule R171). -/
theorem decompress_tie_iff {w y : Nat} (hw : 1 ≤ w) (hy : y < 2 ^ w) :
    (∃ k : Int, (3329 * y : ℚ) / 2 ^ w = k + 1 / 2) ↔ y = 2 ^ (w - 1) := by
  obtain ⟨n, rfl⟩ := Nat.exists_eq_add_of_le' hw
  have h := div_eq_add_half_iff (3329 * y) (b := 2 ^ (n + 1)) (by positivity)
  push_cast at h
  simp only [h, Nat.add_sub_cancel]
  constructor
  · rintro ⟨k, hk⟩
    have hdvd : 2 ^ n ∣ 3329 * y := by
      rw [← Int.natCast_dvd_natCast]
      refine ⟨2 * k + 1, ?_⟩
      push_cast
      rw [pow_succ] at hk
      linarith
    obtain ⟨c, rfl⟩ := (Nat.Coprime.pow_left n (by decide : Nat.Coprime 2 3329)).dvd_of_dvd_mul_left hdvd
    have hc : c < 2 := lt_of_mul_lt_mul_left (pow_succ 2 n ▸ hy) (Nat.zero_le _)
    have hodd : 3329 * (c : Int) = 2 * k + 1 := by
      refine mul_left_cancel₀ (pow_ne_zero (n + 1) (two_ne_zero (α := Int))) ?_
      push_cast at hk
      rw [pow_succ] at hk ⊢
      linarith
    obtain rfl : c = 1 := by omega
    exact Nat.mul_one _
  · rintro rfl
    refine ⟨1664, ?_⟩
    push_cast
    ring

/-- The tie is rounded up: half of `Q` is `1664.5` (rule R171). -/
theorem decompress_tie {w : Nat} (hw : 1 ≤ w) : decompress w (2 ^ (w - 1)) = 1665 := by
  obtain ⟨n, rfl⟩ := Nat.exists_eq_add_of_le' hw
  rw [decompress_eq_div, Nat.add_sub_cancel]
  exact Nat.div_eq_of_eq_mul_left (by positivity) (by ring)

/-- Settles O29: the closed forms are `roundDiv`, and `Q` is odd. -/
theorem closedFormsRound : Obligations.ClosedFormsRound := by
  refine ⟨fun w x _ _ _ => ⟨?_, rfl, compress_no_tie⟩, fun w y h1 h11 hy => ⟨?_, rfl, decompress_tie_iff h1 hy, ?_,
    decompress_lt h11 hy⟩⟩
  · have hfloor := floor_eq_roundDiv (2 ^ w * x) (b := 3329) (by decide)
    push_cast at hfloor
    rw [hfloor, compress_eq_roundDiv]
    push_cast
    rfl
  · have hfloor := floor_eq_roundDiv (3329 * y) (b := 2 ^ w) (by positivity)
    push_cast at hfloor
    rw [hfloor, decompress_eq_roundDiv h1]
  · rintro rfl
    exact decompress_tie h1

/-! ## Quantisation -/

/-- The quotient that rounds to `2 ^ w` wraps to 0, and decompresses to `Q`, which is 0 modulo `Q` (rule R172). -/
theorem decompress_compress {w x : Nat} (h1 : 1 ≤ w) (h11 : w ≤ 11) (hx : x < 3329) :
    decompress w (compress w x) = roundDiv (3329 * roundDiv (2 ^ w * x) 3329) (2 ^ w) % 3329 := by
  have hpos : 0 < 2 ^ w := by positivity
  have hle : roundDiv (2 ^ w * x) 3329 ≤ 2 ^ w := by
    rw [roundDiv, ← Nat.lt_succ_iff, Nat.div_lt_iff_lt_mul (by decide)]
    have := Nat.mul_le_mul_left (2 ^ w) (Nat.le_of_lt_succ hx)
    omega
  rw [compress_eq_roundDiv]
  rcases hle.lt_or_eq with hlt | heq
  · rw [Nat.mod_eq_of_lt hlt, ← decompress_eq_roundDiv h1, Nat.mod_eq_of_lt (decompress_lt h11 hlt)]
  · have hzero : roundDiv 0 (2 ^ w) = 0 := Nat.div_eq_of_lt (by omega)
    have hmodulus : roundDiv (3329 * 2 ^ w) (2 ^ w) = 3329 :=
      Nat.div_eq_of_lt_le (by omega) (by omega)
    rw [heq, Nat.mod_self, decompress_eq_roundDiv h1, hzero, hmodulus]

/-- Numbers at most `b` apart are so modulo `Q` too, in one of the two directions. -/
theorem residue_distance_le {x z b : Nat} (hx : x < 3329) (hup : x ≤ z + b) (hdown : z ≤ x + b) :
    min ((x + 3329 - z % 3329) % 3329) ((z % 3329 + 3329 - x) % 3329) ≤ b := by
  rcases le_total x z with h | h
  · have hstep : (z % 3329 + 3329 - x) % 3329 = (z - x) % 3329 := by omega
    exact (min_le_right _ _).trans (hstep ▸ (Nat.mod_le _ _).trans (by omega))
  · have hstep : (x + 3329 - z % 3329) % 3329 = (x - z) % 3329 := by omega
    exact (min_le_left _ _).trans (hstep ▸ (Nat.mod_le _ _).trans (by omega))

/-- The bound `B_w` (rule R173). -/
def moveBound (w : Nat) : Nat := roundDiv 3329 (2 ^ (w + 1))

/-- Compression and decompression move a value by at most `B_w` around the circle of residues (rule R173). -/
theorem decompress_compress_near {w x : Nat} (h1 : 1 ≤ w) (h11 : w ≤ 11) (hx : x < 3329) :
    min ((x + 3329 - decompress w (compress w x)) % 3329) ((decompress w (compress w x) + 3329 - x) % 3329) ≤
      moveBound w := by
  obtain ⟨hup, hdown⟩ := roundDiv_roundDiv_near (p := 2 ^ w) (q := 3329) (by positivity) (by decide) x
  rw [← pow_succ'] at hup hdown
  rw [decompress_compress h1 h11 hx]
  exact residue_distance_le hx hup hdown

/-- The bounds rule R173 lists. -/
theorem listed_eq_moveBound {w : Nat} (h1 : 1 ≤ w) (h11 : w ≤ 11) :
    [832, 416, 208, 104, 52, 26, 13, 7, 3, 2, 1].getD (w - 1) 0 = moveBound w := by
  interval_cases w <;> rfl

/-- For each width a value that is moved by the whole bound. -/
def farthest (w : Nat) : Nat := [832, 416, 208, 104, 52, 26, 13, 1658, 3, 5, 1].getD (w - 1) 0

theorem decompress_compress_farthest {w : Nat} (h1 : 1 ≤ w) (h11 : w ≤ 11) :
    farthest w < 3329 ∧ min ((farthest w + 3329 - decompress w (compress w (farthest w))) % 3329)
      ((decompress w (compress w (farthest w)) + 3329 - farthest w) % 3329) = moveBound w := by
  interval_cases w <;> decide

/-- Settles O30: the bound is that of rounding twice, and the values of `farthest` reach it. -/
theorem quantisationBound : Obligations.QuantisationBound := by
  intro w h1 h11
  rw [listed_eq_moveBound h1 h11]
  refine ⟨?_, fun x hx => decompress_compress_near h1 h11 hx, farthest w, decompress_compress_farthest h1 h11⟩
  have hfloor := floor_eq_roundDiv 3329 (b := 2 ^ (w + 1)) (by positivity)
  push_cast at hfloor
  exact hfloor.symm

end Sys2Proof.Machine
end

section
/-! PROOFS. The codec's commands (rules R172, R174–R179): the words of the four commands said once over their rows; lane
maps into a checked slot; and the ends of `ENC` and `DEC`, the second read off the bytes the first leaves. -/

namespace Sys2Proof.Machine

/-! ## Words -/

/-- A word packed with the parameter `p` is the command of its row where the row lists `p`, and is rejected with `E_PARAM`
where it does not (rules R82, R85, R204). -/
theorem encodes_or_rejected {r : Row} (hr : r ∈ opcodeMap) {d a b : SlotNo} {p v : Nat} {legal : Prop}
    (hd : (r.usesD || d.val == 0) = true) (ha : (r.usesA || a.val == 0) = true) (hb : (r.usesB || b.val == 0) = true)
    (hp : p < 16) (hlegal : r.legalP.contains p = true ↔ legal)
    (hv : pack r.opc d.val a.val b.val p = BitVec.ofNat 32 v) :
    (legal → Encodes (r.build d a b p) v) ∧ (¬legal → RejectedWithParam v) := by
  refine ⟨fun h => ?_, fun h => ?_⟩
  · obtain ⟨hw, he⟩ := opcodeMap_builds r hr d a b p hd ha hb (hlegal.2 h)
    exact encodes_of_wellFormed hw (he.trans hv)
  · exact rejectedWithParam_of_pack hr d a b hp (Bool.eq_false_iff.2 (mt hlegal.1 h)) hv

theorem contains_compressWidths_iff (p : Nat) : compressWidths.contains p = true ↔ 1 ≤ p ∧ p ≤ 11 := by
  rw [contains_compressWidths, legalCompressWidth, Bool.and_eq_true, decide_eq_true_iff, decide_eq_true_iff]

theorem contains_packWidths_iff (p : Nat) : packWidths.contains p = true ↔ 1 ≤ p ∧ p ≤ 12 := by
  rw [contains_packWidths, legalPackWidth, Bool.and_eq_true, decide_eq_true_iff, decide_eq_true_iff]

/-! ## `CMPR` and `DCMP` -/

/-- The end of a command that is to leave `v x`, below `bound`, in each lane of slot `d` where slot `a` holds an `x` below
`lim` (rules R109, R172, R174, R201, R205). -/
def MapEnds (lim bound : Nat) (v : Nat → Nat) (d a : SlotNo) (s t : State) : Prop :=
  Completed t ∧ SameControls s t ∧ SameOutside (slotBase d) 512 s t ∧ t.blen = s.blen ∧ t.result = 0#32 ∧
    ((operands s).slotBelow a lim →
      (∀ i, i < 256 → t.lane d i = v ((operands s).lane a i) ∧ t.lane d i < bound) ∧ NoError s t ∧
        t.draws = s.draws) ∧
    (¬(operands s).slotBelow a lim →
      (∀ i, i < 256 → t.mem.coeff d i = Config.freeCoeff s.draws i) ∧ Raised .range s t ∧ s.draws < t.draws)

/-- Completion ends so when every value below `lim` is mapped to one below `bound`, which fits in a lane. -/
theorem finishPoly_mapEnds {lim bound : Nat} {g v : Nat → Nat} (hgv : ∀ x, g x = v x)
    (hg : ∀ x, x < lim → g x < bound) (hbound : bound ≤ 65536) (d a : SlotNo) (s : State) :
    MapEnds lim bound v d a s
      (finishPoly (below lim ((operands s).poly a)) d (mapLanes g ((operands s).poly a)) s) := by
  obtain ⟨hcomplete, hcontrols, hmem, hblen, hresult, hin, hout⟩ :=
    finishPoly_spec (below lim ((operands s).poly a)) d (mapLanes g ((operands s).poly a)) s
  refine ⟨hcomplete, hcontrols, hmem, hblen, hresult, fun h => ?_,
    fun h => hout (Bool.eq_false_iff.2 (mt below_poly.1 h))⟩
  obtain ⟨hcoeff, herror, hdraws⟩ := hin (below_poly.2 h)
  refine ⟨fun i hi => ?_, herror, hdraws⟩
  have hlt := hg _ (h i hi)
  have hat : (mapLanes g ((operands s).poly a)).at i = g ((operands s).lane a i) := by
    rw [mapLanes_at _ _ hi, Operands.poly_at _ _ hi]
  rw [lane_of_coeff (hat ▸ hcoeff i hi) (hlt.trans_le hbound)]
  exact ⟨hgv _, hlt⟩

/-- Settles O31: a compressed value is a residue modulo `2 ^ w`. -/
theorem cmprCompressesLanes : Obligations.CmprCompressesLanes := by
  refine ⟨fun d a p hp => ?_, fun s d a w _ h11 => ⟨_, rfl, ?_⟩⟩
  · exact encodes_or_rejected (r := opcodeMap[16]) (List.getElem_mem _) (b := 0) rfl rfl rfl hp
      (contains_compressWidths_iff p) (by simp [pack, opcodeMap])
  · exact finishPoly_mapEnds (compress_eq_div w) (fun x _ => compress_lt w x)
      (Nat.pow_le_pow_right two_pos (by omega : w ≤ 16)) d a s

/-- Settles O32: a decompressed value is canonical. -/
theorem dcmpDecompressesLanes : Obligations.DcmpDecompressesLanes := by
  refine ⟨fun d a p hp => ?_, fun s d a w _ h11 => ⟨_, rfl, ?_⟩⟩
  · exact encodes_or_rejected (r := opcodeMap[17]) (List.getElem_mem _) (b := 0) rfl rfl rfl hp
      (contains_compressWidths_iff p) (by simp [pack, opcodeMap])
  · exact finishPoly_mapEnds (decompress_eq_div w) (fun _ hy => decompress_lt h11 hy) (by decide) d a s

/-! ## `ENC` -/

/-- The state after an `ENC` that leaves the bytes `vs` in `BBUF` (rule R177). -/
def encoded (w : Nat) (vs : List Byte) (s : State) : State :=
  finish 0#32 ((s.setBlen (BitVec.ofNat 16 (packedLength w))).setBuffer vs)

/-- The state after an `ENC` whose slot is out of range (rules R177, R201). -/
def encodedOutOfRange (w : Nat) (s : State) : State :=
  finish 0#32 (raiseError .range ((s.setBlen (BitVec.ofNat 16 (packedLength w))).freeBuffer (packedLength w)))

theorem exec_enc_of_slotBelow {s : State} {a : SlotNo} {w : Nat} (h : (operands s).slotBelow a (packLimit w)) :
    exec (.enc a w) s = .next (encoded w (packPoly ((operands s).poly a) w) s) := by
  rw [exec, execEnc, below_poly.2 h]
  rfl

theorem exec_enc_of_not_slotBelow {s : State} {a : SlotNo} {w : Nat}
    (h : ¬(operands s).slotBelow a (packLimit w)) : exec (.enc a w) s = .next (encodedOutOfRange w s) := by
  rw [exec, execEnc, Bool.eq_false_iff.2 (mt below_poly.1 h)]
  rfl

theorem bufferByte_encoded {w k : Nat} {vs : List Byte} (hk : k < vs.length) (s : State) :
    (encoded w vs s).bufferByte k = vs.getD k Memory.unlisted :=
  Memory.read_write_of_inside hk

theorem bufferByte_encodedOutOfRange {w k : Nat} (hk : k < 32 * w) (s : State) :
    (encodedOutOfRange w s).bufferByte k = Config.freeByte s.draws k := by
  refine (Memory.read_write_of_inside (by simpa [packedLength] using hk)).trans ?_
  simp [packedLength, List.getD_eq_getElem?_getD, List.getElem?_range hk]

/-- Byte `k` of a packed slot, from the lanes (rules R176, R177). -/
theorem packPoly_poly_byte (o : Operands) (a : SlotNo) {w k : Nat} (hk : k < 32 * w) :
    ((packPoly (o.poly a) w).getD k Memory.unlisted).toNat =
      ((List.range 8).map fun m => (o.lane a ((8 * k + m) / w) >>> ((8 * k + m) % w)) % 2 * 2 ^ m).sum := by
  rw [packPoly_byte _ hk]
  congr 1
  refine List.map_congr_left fun m hm => ?_
  have hm := List.mem_range.1 hm
  rw [packedBit, Operands.poly_at _ _ ((Nat.div_lt_iff_lt_mul (by omega)).2 (by omega))]

/-- Settles O33: both ends of `ENC` write `BLEN` and the same bytes of `BBUF`. -/
theorem encPacksTheBuffer : Obligations.EncPacksTheBuffer := by
  refine ⟨fun a p hp => ?_, fun s a w _ _ => ?_⟩
  · exact encodes_or_rejected (r := opcodeMap[18]) (List.getElem_mem _) (d := 0) (b := 0) rfl rfl rfl hp
      (contains_packWidths_iff p) (by simp [pack, opcodeMap])
  by_cases h : (operands s).slotBelow a (packLimit w)
  · have hlen : (packPoly ((operands s).poly a) w).length = 32 * w := packPoly_length _ w
    refine ⟨_, exec_enc_of_slotBelow h, ⟨rfl, rfl⟩, ⟨rfl, rfl, rfl, rfl, rfl, rfl, rfl, rfl, rfl⟩,
      sameOutside_write _ _ _ _ hlen.le, rfl, rfl, fun _ => ⟨fun k hk => ?_, rfl, rfl⟩, fun hnot => absurd h hnot⟩
    rw [bufferByte_encoded (hlen.symm ▸ hk), packPoly_poly_byte _ _ hk]
  · exact ⟨_, exec_enc_of_not_slotBelow h, ⟨rfl, rfl⟩, ⟨rfl, rfl, rfl, rfl, rfl, rfl, rfl, rfl, rfl⟩,
      sameOutside_write _ _ _ _ (by simp [packedLength]), rfl, rfl, fun hin => absurd hin h,
      fun _ => ⟨fun k hk => bufferByte_encodedOutOfRange hk s, raised_of_firstError rfl, Nat.lt_succ_self _⟩⟩

/-! ## `DEC` -/

/-- A `DEC` is rejected at issue with `E_LENGTH` when `BLEN` is not `32 * w` (rules R178, R179, R204). -/
theorem step_of_dec_illegalLength {s : State} {d : SlotNo} {w : Nat} (h1 : 1 ≤ w) (h12 : w ≤ 12)
    (h : WritesNext 0x00C (encode (.dec d w)) s) (hb : s.busy = false) (hlen : s.blen.toNat ≠ 32 * w) :
    step s = .next { reject .length { served s with cmd := encode (.dec d w) } with response := .written } := by
  have hw : (Instr.dec d w).wellFormed = true := by
    simp only [Instr.wellFormed, legalPackWidth, h1, h12, decide_true, Bool.and_self]
  have hl : lengthLegal (.dec d w) s.blen = false :=
    Bool.eq_false_iff.2 fun hl => hlen ((lengthLegal_dec d w _).1 hl)
  exact step_of_issue h hb (issue_of_illegalLength (decode_encode hw) hl)

/-- What `DEC` leaves in its slot and in `RESULT` when the values of the packed string are `value i` (rule R178). -/
def Unpacks (w : Nat) (value : Nat → Nat) (d : SlotNo) (t : State) : Prop :=
  (w = 12 → t.result = BitVec.ofNat 32 ((List.range 256).countP fun i => decide (3329 ≤ value i)) ∧
    ∀ i, i < 256 → t.lane d i = value i % 3329) ∧
  (w < 12 → t.result = 0#32 ∧ ∀ i, i < 256 → t.lane d i = value i)

theorem exec_dec_of_twelve (s : State) (d : SlotNo) :
    exec (.dec d 12) s =
      .next (finish (BitVec.ofNat 32 (overflowCount (unpackPoly (operands s).bbuf 12)))
        (s.setSlot d (mapLanes (fun v => v % Config.Q) (unpackPoly (operands s).bbuf 12)))) := rfl

theorem exec_dec_of_lt_twelve (s : State) (d : SlotNo) {w : Nat} (hw : w < 12) :
    exec (.dec d w) s = .next (finish 0#32 (s.setSlot d (unpackPoly (operands s).bbuf w))) := by
  rw [exec, execDec, if_neg hw.ne]

/-- A lane of a slot that a command has just written. -/
theorem lane_finish_setSlot {v : Word} {s : State} {d : SlotNo} {f : Poly} {i n : Nat} (hi : i < 256)
    (hf : f.at i = n) (hn : n < 65536) : (finish v (s.setSlot d f)).lane d i = n :=
  lane_of_coeff (by rw [finish_mem, State.setSlot_mem, Memory.coeff_setPoly _ _ _ _ hi, if_pos rfl, hf]) hn

theorem overflowCount_lanes (g : Nat → Nat) :
    overflowCount (lanes g) = (List.range 256).countP fun i => decide (3329 ≤ g i) := by
  rw [overflowCount, lanes, List.countP_map]
  rfl

/-- All `DEC` can do at its completion (rules R178, R205). -/
theorem exec_dec_spec (s : State) (d : SlotNo) {w : Nat} (h12 : w ≤ 12) :
    ∃ t, exec (.dec d w) s = .next t ∧ Completed t ∧ SameControls s t ∧ SameOutside (slotBase d) 512 s t ∧
      t.blen = s.blen ∧ NoError s t ∧ t.draws = s.draws ∧ Unpacks w (unpackedValue (operands s).bbuf w) d t := by
  rcases h12.eq_or_lt with rfl | hlt
  · refine ⟨_, exec_dec_of_twelve s d, ⟨rfl, rfl⟩, ⟨rfl, rfl, rfl, rfl, rfl, rfl, rfl, rfl, rfl⟩,
      fun y hy => Memory.read_setPoly_of_outside hy, rfl, rfl, rfl, fun _ => ⟨?_, fun i hi => ?_⟩,
      fun h => absurd h (lt_irrefl _)⟩
    · rw [finish_result, unpackPoly, overflowCount_lanes]
    · refine lane_finish_setSlot hi ?_ ((Nat.mod_lt _ (by decide)).trans (by decide))
      rw [mapLanes_at _ _ hi, unpackPoly, lanes_at _ hi, Config.Q]
  · refine ⟨_, exec_dec_of_lt_twelve s d hlt, ⟨rfl, rfl⟩, ⟨rfl, rfl, rfl, rfl, rfl, rfl, rfl, rfl, rfl⟩,
      fun y hy => Memory.read_setPoly_of_outside hy, rfl, rfl, rfl, fun h => absurd h hlt.ne,
      fun _ => ⟨rfl, fun i hi => lane_finish_setSlot hi (lanes_at _ hi) ?_⟩⟩
    exact (unpackedValue_lt _ w i).trans_le (Nat.pow_le_pow_right two_pos (by omega : w ≤ 16))

/-- Settles O34: the values of rule R178 are those of `unpackedValue`. -/
theorem decUnpacksTheBuffer : Obligations.DecUnpacksTheBuffer := by
  refine ⟨fun d p hp => ?_, fun s d w h1 h12 hwrite hb hlen => ?_, fun s d w _ h12 => ?_⟩
  · exact encodes_or_rejected (r := opcodeMap[19]) (List.getElem_mem _) (a := 0) (b := 0) rfl rfl rfl hp
      (contains_packWidths_iff p) (by simp [pack, opcodeMap])
  · exact ⟨_, step_of_dec_illegalLength h1 h12 hwrite hb hlen, raised_of_firstError rfl, hb, rfl, fun _ => rfl, rfl⟩
  · have hspec := exec_dec_spec s d h12
    rw [funext (unpackedValue_eq (operands s).bbuf w)] at hspec
    exact hspec

/-! ## `DEC` after `ENC` -/

theorem packLimit_le (w : Nat) : packLimit w ≤ 2 ^ w := by
  unfold packLimit
  split
  case isTrue h => subst h; decide
  case isFalse => exact le_rfl

/-- What `DEC` finds in `BBUF` after an `ENC` in range (rules R176–R178). -/
theorem unpackedValue_encoded {o : Operands} {a : SlotNo} {w i : Nat} (h : o.slotBelow a (packLimit w)) (hi : i < 256)
    (s : State) : unpackedValue (operands (encoded w (packPoly (o.poly a) w) s)).bbuf w i = o.lane a i := by
  have hat := o.poly_at a hi
  rw [← hat]
  refine unpackedValue_packPoly (o.poly a) hi (hat ▸ (h i hi).trans_le (packLimit_le w)) _ fun b hb => ?_
  exact bufferByte_encoded (packPoly_length (o.poly a) w ▸ hb) s

/-- Unpacking values a slot of that width may hold gives them back, none of them counted (rule R178). -/
theorem Unpacks.of_slotBelow {o : Operands} {a d : SlotNo} {w : Nat} {value : Nat → Nat} {t : State}
    (ht : Unpacks w value d t) (h12 : w ≤ 12) (h : o.slotBelow a (packLimit w))
    (hvalue : ∀ i, i < 256 → value i = o.lane a i) : t.result = 0#32 ∧ ∀ i, i < 256 → t.lane d i = o.lane a i := by
  obtain ⟨htwelve, hless⟩ := ht
  rcases h12.eq_or_lt with rfl | hlt
  · obtain ⟨hresult, hlanes⟩ := htwelve rfl
    have hcanonical : ∀ i, i < 256 → value i < 3329 := fun i hi => hvalue i hi ▸ h i hi
    refine ⟨?_, fun i hi => ?_⟩
    · have hnone : ((List.range 256).countP fun i => decide (3329 ≤ value i)) = 0 :=
        List.countP_eq_zero.2 fun i hi => by simpa using hcanonical i (List.mem_range.1 hi)
      rw [hresult, hnone]
    · rw [hlanes i hi, Nat.mod_eq_of_lt (hcanonical i hi), hvalue i hi]
  · obtain ⟨hresult, hlanes⟩ := hless hlt
    exact ⟨hresult, fun i hi => (hlanes i hi).trans (hvalue i hi)⟩

/-- Settles O35: the bytes `ENC` leaves unpack to the lanes it read, all below `DEC`'s bound. -/
theorem decUndoesEnc : Obligations.DecUndoesEnc := by
  intro s a d w _ h12 h
  obtain ⟨u, hu, -, -, -, -, -, -, hunpacks⟩ :=
    exec_dec_spec (encoded w (packPoly ((operands s).poly a) w) s) d h12
  refine ⟨_, u, exec_enc_of_slotBelow h, ?_, hu, hunpacks.of_slotBelow h12 h fun i hi => unpackedValue_encoded h hi s⟩
  exact (BitVec.toNat_ofNat _ _).trans (Nat.mod_eq_of_lt (by unfold packedLength; omega))

end Sys2Proof.Machine
end

section
/-! PROOFS. The control and buffer commands (rules R190–R193), and what a change of a slot can come from (rule R194). -/

namespace Sys2Proof.Machine

/-! ## `NOP` -/

theorem encodes_nop : Encodes .nop 0 := encodes_of_wellFormed rfl rfl

/-- Of the words with the opcode of `NOP`, one alone passes the field checks of its row (rules R82–R84, R190). -/
theorem decode_eq_illegalField_of_nop_opcode {v : Word} (ho : opcOf v = 0) (hv : v ≠ 0#32) :
    decode v = .error .illegalField := by
  have hrow := decode_of_row (r := opcodeMap[0]) (List.getElem_mem _) ho.symm
  refine hrow.trans (if_neg fun hlegal => hv ?_)
  obtain ⟨-, hword⟩ := wellFormed_and_encode_of_decode (hrow.trans (if_pos hlegal))
  exact hword.symm

/-- Settles O36: the field checks leave the word 0 alone, and `NOP` completes with 0 in `RESULT`. -/
theorem nopLeavesEverything : Obligations.NopLeavesEverything := by
  refine ⟨encodes_nop, fun v hv ho hne => ?_, fun s h hb => ?_, fun s => rfl⟩
  · have hnat : (BitVec.ofNat 32 v).toNat = v := (BitVec.toNat_ofNat v 32).trans (Nat.mod_eq_of_lt hv)
    refine rejectedWithParam_of_decode (decode_eq_illegalField_of_nop_opcode ?_ fun hzero => hne ?_)
    · rw [opcOf_eq, hnat, ho]
    · rw [← hnat, hzero, BitVec.toNat_zero]
  · exact ⟨_, step_of_issue h hb (issue_of_legal encodes_nop.2 rfl), rfl, rfl⟩

/-! ## `PZERO` and `PCOPY` -/

/-- The completion of a polynomial command that checks nothing (rules R191, R192, R205). -/
theorem finishPoly_unchecked (d : SlotNo) (f : Poly) (s : State) :
    Completed (finishPoly true d f s) ∧ SameControls s (finishPoly true d f s) ∧
      SameOutside (slotBase d) 512 s (finishPoly true d f s) ∧ (finishPoly true d f s).blen = s.blen ∧
      (finishPoly true d f s).result = 0#32 ∧ NoError s (finishPoly true d f s) ∧
      (finishPoly true d f s).draws = s.draws ∧
      ∀ i, i < 256 → (finishPoly true d f s).mem.coeff d i = BitVec.ofNat 16 (f.at i) := by
  obtain ⟨hcomplete, hcontrols, hmem, hblen, hresult, hin, -⟩ := finishPoly_spec true d f s
  obtain ⟨hcoeff, herror, hdraws⟩ := hin rfl
  exact ⟨hcomplete, hcontrols, hmem, hblen, hresult, herror, hdraws, hcoeff⟩

/-- Settles O37: the polynomial written is 0 in every lane. -/
theorem pzeroClearsOneSlot : Obligations.PzeroClearsOneSlot := by
  refine ⟨fun d => encodes_of_wellFormed rfl (by simp [encode, pack]),
    fun s d => ⟨finishPoly true d (lanes fun _ => 0) s, rfl, ?_⟩⟩
  obtain ⟨hcomplete, hcontrols, hmem, hblen, hresult, herror, hdraws, hcoeff⟩ :=
    finishPoly_unchecked d (lanes fun _ => 0) s
  exact ⟨hcomplete, hcontrols, hmem, hblen, hresult, herror, hdraws,
    fun i hi => lane_of_coeff ((hcoeff i hi).trans (by rw [lanes_at _ hi])) (Nat.succ_pos _)⟩

/-- Settles O38: a coefficient of the source is narrowed to the 16 bits it has. -/
theorem pcopyCopiesRawValues : Obligations.PcopyCopiesRawValues := by
  refine ⟨fun d a => encodes_of_wellFormed rfl (by simp [encode, pack]),
    fun s d a => ⟨finishPoly true d ((operands s).poly a) s, rfl, ?_⟩⟩
  obtain ⟨hcomplete, hcontrols, hmem, hblen, hresult, herror, hdraws, hcoeff⟩ :=
    finishPoly_unchecked d ((operands s).poly a) s
  refine ⟨hcomplete, hcontrols, hmem, hblen, hresult, herror, hdraws, fun i hi => ?_⟩
  rw [hcoeff i hi, Operands.poly_at _ _ hi, Operands.lane, BitVec.ofNat_toNat, BitVec.setWidth_eq]

/-! ## `WIPE` -/

theorem lane_of_mem_eq {s t : State} (h : t.mem = s.mem) (p : SlotNo) (i : Nat) : t.lane p i = s.lane p i := by
  rw [State.lane, State.lane, h]

/-- A memory that lists no byte holds 0 in every lane (rule R45). -/
theorem lane_of_mem_eq_nil {t : State} (h : t.mem = []) (p : SlotNo) (i : Nat) : t.lane p i = 0 :=
  (lane_of_mem_eq (s := endWipe t) h p i).trans (lane_endWipe t p i)

/-- Settles O39: no byte is listed any more, and no command holds operands. -/
theorem wipeClearsEveryMemory : Obligations.WipeClearsEveryMemory :=
  ⟨encodes_of_wellFormed rfl rfl, fun _ => ⟨_, rfl, ⟨rfl, rfl⟩, fun p i _ => lane_of_mem_eq_nil rfl p i,
    fun _ _ => rfl, fun _ _ => rfl, rfl, rfl, rfl, rfl, rfl, rfl, rfl, rfl, rfl, rfl, rfl, rfl, rfl⟩⟩

/-! ## What changes a slot -/

/-- A write to `CMD` changes no byte of memory (rules R203, R204). -/
theorem writeCmd_mem (v : Word) (s : State) : (writeCmd v s).mem = s.mem := by
  rcases writeCmd_cases v s with ⟨-, e⟩ | ⟨-, code, e⟩ | ⟨-, i, -, -, e⟩ <;> rw [e] <;> rfl

/-- The start of a reset changes no coefficient (rules R230, R231). -/
theorem lane_enterReset (s : State) (p : SlotNo) (i : Nat) : (enterReset s).lane p i = s.lane p i :=
  congrArg BitVec.toNat (Memory.coeff_clearSeed s.mem p i)

/-- A write to `CTRL`, a soft reset too, changes no coefficient (rules R26, R231). -/
theorem lane_writeCtrl (v : Word) (s : State) (p : SlotNo) (i : Nat) : (writeCtrl v s).lane p i = s.lane p i := by
  unfold writeCtrl
  split
  · exact lane_enterReset s p i
  · rfl

/-- Storing a word at an aligned offset changes the two coefficients of that word alone (rule R23). -/
theorem coeff_setWord_of_ne {m : Memory} {x : Nat} (hx : x % 4 = 0) (v : Word) {p : SlotNo} {i : Nat}
    (h : x ≠ slotBase p + 4 * (i / 2)) : (m.setWord x v).coeff p i = m.coeff p i := by
  have hbase := slotBase_eq p
  rw [Memory.coeff, Memory.coeff, Memory.half, Memory.half, Memory.read_setWord_of_outside (by omega),
    Memory.read_setWord_of_outside (by omega)]

/-- The one host access that changes a coefficient is a write to the word that holds it (rules R23, R194). -/
theorem busAccess_write_of_lane_ne {a : BusAccess} {s t : State} {p : SlotNo} {i : Nat}
    (h : busAccess a s = .next t) (hne : t.lane p i ≠ s.lane p i) :
    ∃ v, a = .write (slotBase p + 4 * (i / 2)) 4 v := by
  rcases busAccess_next h with ⟨x, l, -, -, -, rfl⟩ | ⟨x, l, v, u, rfl, hx, hl, hw, rfl⟩
  · rw [readLocation_frame] at hne
    exact absurd rfl hne
  have hmap := locate_eq_some hl
  rcases writeLocation_cases hw with ⟨-, rfl⟩ | ⟨-, rfl⟩ | ⟨-, rfl⟩ | ⟨-, rfl⟩ | ⟨-, arg, blen, faA, faB, faW, rfl⟩ |
    ⟨-, y, hy, rfl⟩
  · exact absurd (lane_writeCtrl v s p i) hne
  · exact absurd rfl hne
  · exact absurd (lane_of_mem_eq (writeCmd_mem v s) p i) hne
  · exact absurd rfl hne
  · exact absurd rfl hne
  · have hxy : x = y := by rcases hy with rfl | rfl <;> exact hmap.1
    subst hxy
    by_contra hno
    exact hne (congrArg BitVec.toNat (coeff_setWord_of_ne hx v fun e => hno ⟨v, e ▸ rfl⟩))

/-- No byte belongs to two slots (rule R23). -/
theorem slot_unique {p d : SlotNo} {y : Nat} (hp : InSlot p y) (hd : InSlot d y) : d = p := by
  unfold InSlot slotBase at hp hd
  exact Fin.ext (by omega)

/-- The commands that may change a byte of slot `p` (rules R85, R193, R194). -/
theorem destination_of_touches {c : Instr} (hw : c.wellFormed = true) {p : SlotNo} {y : Nat} (hy : InSlot p y)
    (h : Touches c y) : destination c = some p ∨ c = .wipe := by
  cases c with
  | wipe => exact .inr rfl
  | enc a w =>
    obtain ⟨-, hbuffer⟩ : 0x400 ≤ y ∧ y < 0x400 + 32 * w := h
    have hw12 := (legalPackWidth_listed hw).2
    unfold InSlot slotBase at hy
    omega
  | nop | fadd | fsub | fmul | fred | fbred | fmred => exact False.elim h
  | padd d _ _ | psub d _ _ | pred d _ | ntt d | intt d | bmul d _ _ | bmac d _ _ | suni d | scbd d _ | cmpr d _ _
  | dcmp d _ _ | dec d _ | pzero d | pcopy d _ => exact .inl (congrArg some (slot_unique hy h))

/-- A command that changes a coefficient has its slot as destination, or is `WIPE` (rule R194). -/
theorem destination_of_lane_ne {c : Instr} (hw : c.wellFormed = true) {s t : State} (h : exec c s = .next t)
    {p : SlotNo} {i : Nat} (hi : i < 256) (hne : t.lane p i ≠ s.lane p i) : destination c = some p ∨ c = .wipe := by
  by_contra hno
  refine hne (congrArg BitVec.toNat (Memory.coeff_congr (fun y h1 h2 => ?_) hi))
  exact (exec_effect hw h).memory y fun ht => hno (destination_of_touches hw ⟨h1, h2⟩ ht)

/-- Settles O55: of the kinds of step, three can change a coefficient. -/
theorem slotsChangeOnlyWhenNamed : Obligations.SlotsChangeOnlyWhenNamed := by
  intro s t p i hi h hne
  rcases step_cases h with ⟨a, rest, ha, ht⟩ | ⟨rest, -, rfl⟩ | ⟨-, -, rfl⟩ | ⟨hb, he, -⟩ |
    ⟨hb, v, ops, smp, c, he, hd, ht⟩
  · obtain ⟨v, rfl⟩ := busAccess_write_of_lane_ne ht hne
    exact .inl ⟨v, rest, ha⟩
  · exact absurd (lane_enterReset (served s) p i) hne
  · exact absurd rfl hne
  · exact .inr (.inl ⟨hb, he⟩)
  · exact .inr (.inr ⟨hb, v, ops, smp, c, he, hd, destination_of_lane_ne (wellFormed_of_decode hd) ht hi hne⟩)

end Sys2Proof.Machine
end

section
/-! PROOFS. Errors (rules R202, R209, R210): what raising one does, and what clears one. Then the block's own step on the
command in flight (rules R204, R205, R217, R247). -/

namespace Sys2Proof.Machine

/-! ## Raising an error -/

/-- With no error held the code is recorded and nothing else changes (rules R200, R202). -/
theorem raiseError_of_none {s : State} (h : s.error = none) (code : ErrCode) :
    raiseError code s = { s with error := some code } := by
  rw [raiseError, h, firstError_of_none]

/-- With an error held nothing changes at all (rule R202). -/
theorem raiseError_of_some {s : State} {c : ErrCode} (h : s.error = some c) (code : ErrCode) :
    raiseError code s = s := by
  rw [raiseError, h, firstError_of_some, ← h]

theorem firstError_of_held {held : Option ErrCode} {c : ErrCode} (h : held = some c) (code : ErrCode) :
    firstError held code = some c := by
  rw [h, firstError_of_some]

/-! ## What becomes of an error that is held -/

/-- The acknowledgement clears the error exactly with a 1 in bit 2 (rules R27, R210). -/
theorem acknowledge_error_of_held {s : State} {c : ErrCode} (h : s.error = some c) (v : Word) :
    (acknowledge v s).error = some c ∨ ((acknowledge v s).error = none ∧ v.getLsbD 2 = true) := by
  rw [acknowledge_error]
  split
  · exact .inr ⟨rfl, ‹_›⟩
  · exact .inl h

/-- A write to `CTRL` clears the error exactly as a soft reset (rules R26, R231). -/
theorem writeCtrl_error_of_held {s : State} {c : ErrCode} (h : s.error = some c) (v : Word) :
    (writeCtrl v s).error = some c ∨ ((writeCtrl v s).error = none ∧ v.getLsbD 31 = true) := by
  unfold writeCtrl
  split
  · exact .inr ⟨rfl, ‹_›⟩
  · exact .inl h

/-- A write to `CMD` may raise an error or issue a word; neither clears one (rules R203, R204). -/
theorem writeCmd_error_of_held {s : State} {c : ErrCode} (h : s.error = some c) (v : Word) :
    (writeCmd v s).error = some c := by
  rcases writeCmd_cases v s with ⟨-, e⟩ | ⟨-, code, e⟩ | ⟨-, i, -, -, e⟩ <;> rw [e]
  · exact firstError_of_held h .busy
  · exact firstError_of_held h code
  · exact h

/-- The host clears an error by acknowledging it or by a soft reset, and by no other access (rules R202, R210, R231). -/
theorem busAccess_error_of_held {a : BusAccess} {s t : State} {c : ErrCode} (hc : s.error = some c)
    (h : busAccess a s = .next t) :
    t.error = some c ∨
      (t.error = none ∧ ((∃ v : Word, a = .write 0x008 4 v ∧ v.getLsbD 2 = true) ∨
        ∃ v : Word, a = .write 0x004 4 v ∧ v.getLsbD 31 = true)) := by
  rcases busAccess_next h with ⟨x, l, -, -, -, rfl⟩ | ⟨x, l, v, u, rfl, -, hl, hw, rfl⟩
  · rw [readLocation_frame]
    exact .inl hc
  have hmap := locate_eq_some hl
  rcases writeLocation_cases hw with ⟨rfl, rfl⟩ | ⟨rfl, rfl⟩ | ⟨-, rfl⟩ | ⟨-, rfl⟩ | ⟨-, arg, blen, faA, faB, faW, rfl⟩ |
    ⟨-, y, -, rfl⟩
  · obtain rfl : x = 0x004 := hmap
    exact (writeCtrl_error_of_held hc v).imp_right fun ⟨he, hv⟩ => ⟨he, .inr ⟨v, rfl, hv⟩⟩
  · obtain rfl : x = 0x008 := hmap
    exact (acknowledge_error_of_held hc v).imp_right fun ⟨he, hv⟩ => ⟨he, .inl ⟨v, rfl, hv⟩⟩
  · exact .inl (writeCmd_error_of_held hc v)
  · exact .inl (firstError_of_held hc .access)
  · exact .inl hc
  · exact .inl hc

/-- A command records at most a first error (rules R202, R205). -/
theorem Effect.error_of_held {i : Instr} {s t : State} (h : Effect i s t) {c : ErrCode} (hc : s.error = some c) :
    t.error = some c := by
  rcases h.error with e | ⟨code, e⟩ <;> rw [e]
  · exact hc
  · exact firstError_of_held hc code

/-- Settles O54: by the kinds of step; only an access and a reset pulse can clear, neither the end of the wipe nor a
command does. -/
theorem firstErrorIsKept : Obligations.FirstErrorIsKept := by
  unfold Obligations.FirstErrorIsKept
  refine ⟨fun s code => ⟨fun h => raiseError_of_none h code, fun c h => raiseError_of_some h code⟩, fun s t c hc h => ?_⟩
  rcases step_cases h with ⟨a, rest, ha, ht⟩ | ⟨rest, ha, rfl⟩ | ⟨-, -, rfl⟩ | ⟨-, -, rfl⟩ | ⟨-, v, ops, smp, i, -, hd, ht⟩
  · rcases busAccess_error_of_held (s := served s) hc ht with he | ⟨he, ⟨v, rfl, hv⟩ | ⟨v, rfl, hv⟩⟩
    · exact .inl he
    · exact .inr ⟨he, .inl ⟨v, ⟨rest, ha⟩, hv⟩⟩
    · exact .inr ⟨he, .inr (.inl ⟨v, ⟨rest, ha⟩, hv⟩)⟩
  · exact .inr ⟨rfl, .inr (.inr ⟨rest, ha⟩)⟩
  · exact .inl hc
  · exact .inl hc
  · exact .inl ((exec_effect (wellFormed_of_decode hd) ht).error_of_held hc)

/-! ## The command in flight -/

/-- Settles O7: whose turn it is depends on the arrivals and the engine alone. -/
theorem stepRunsCommandInFlight : Obligations.StepRunsCommandInFlight :=
  ⟨fun _ _ _ _ _ hb he hd => step_of_running hb he hd, fun _ hb he => step_of_idle hb he⟩

/-- A 32-bit word is its own table word. -/
theorem tableWord_toNat (v : Word) : tableWord 32 v.toNat = v := by
  rw [tableWord, Nat.mod_eq_of_lt v.isLt, BitVec.ofNat_toNat, BitVec.setWidth_eq]

/-- A loaded word that decodes runs in the next step, the turn that was put before the arrivals being served. -/
theorem step_loadCommand {v : Word} {i : Instr} (h : decode v = .ok i) (s : State) :
    step (loadCommand v s) = exec i (accept v { s with cmd := v }) :=
  step_of_running (.inr ⟨s.arrivals, rfl⟩) (loadCommand_engine s v) h

/-- Settles O8: the word that was placed decodes to the command. -/
theorem placedWordRunsNext : Obligations.PlacedWordRunsNext := by
  unfold Obligations.PlacedWordRunsNext
  intro s i hw
  rw [State.withFetchWord, tableWord_toNat]
  exact step_loadCommand (decode_encode hw) s

end Sys2Proof.Machine
end

section
/-! PROOFS. The soft reset (rules R26, R231). -/

namespace Sys2Proof.Machine

/-- With bit 31 set a write to `CTRL` is the hardware reset, the rest of the word ignored (rule R231). -/
theorem writeCtrl_of_bit31 {v : Word} (hv : v.getLsbD 31 = true) (s : State) : writeCtrl v s = enterReset s :=
  if_pos hv

/-- Once it is served, an arrival leaves no trace of which one it was (rule R247). -/
theorem served_replaceArrival {s : State} {a : Arrival} {rest : List Arrival} (h : s.arrivals = a :: rest)
    (b : Arrival) : served { s with arrivals := b :: rest } = served s := by
  rw [served, served, h, List.tail_cons, List.tail_cons]

/-- Settles O50: the pulse and the write both come to `enterReset` of the state in which the arrival has been served. -/
theorem softReset : Obligations.SoftReset := by
  unfold Obligations.SoftReset
  intro s v rest ha hv
  refine ⟨enterReset (served s), ?_, ?_⟩
  · rw [step_of_resetPulse rfl, served_replaceArrival ha]
  · exact step_of_write ⟨rest, ha⟩ rfl rfl (congrArg some (writeCtrl_of_bit31 hv (served s)))

end Sys2Proof.Machine
end
